-- ==== Sys2Proof/Word.lean ====
section
/-!
DEFINITION. The words of the block (spec 00_scope.md R5, R8; 10_state.md R20, R34): bit vectors for what the
spec treats as bits, bit 0 the least significant, every number unsigned.
-/

namespace Sys2Proof

/-- A byte of one of the three streams. -/
abbrev Byte := BitVec 8

/-- A symbol: one input byte value, `SYM_W = 8` bits (R5, R11). -/
abbrev Symbol := BitVec 8

/-- One frequency count, `FREQ_W = 64` bits (R5, R33). -/
abbrev Count := BitVec 64

/-- A node frequency or `TOTAL`, `SUM_W = 72` bits (R5, R31). -/
abbrev FreqSum := BitVec 72

/-- A node index, `NODE_W = 9` bits; 511 is `NULL` and names no slot (R5, R34). -/
abbrev NodeIx := BitVec 9

/-- The code register, `CODE_W = 255` bits (R5, R21). -/
abbrev CodeReg := BitVec 255

/-- A command word, `CMD_W = 80` bits (R5, R90). -/
abbrev CommandWord := BitVec 80

/-- The tag of a node record (R34: `Leaf` is 0, `Internal` is 1). -/
inductive Tag where
  | leaf
  | internal
  deriving DecidableEq, Repr, Inhabited

/-- One record of the node arena (R34). -/
structure Node where
  tag    : Tag
  sym    : Symbol
  freq   : FreqSum
  parent : NodeIx
  left   : NodeIx
  right  : NodeIx
  deriving DecidableEq, Repr, Inhabited

end Sys2Proof
end

