-- ==== Sys2Proof/Config.lean ====
section
/-!
DEFINITION. What is fixed for the block (spec 00_scope.md R5) and the FREE VALUES: opaque constants with no
body, which no proof can evaluate (93_implementation_defined.md, treatment "any value" and "parameter").
-/

namespace Sys2Proof

/-- `NULL`: the node index that means "no node" (R5). -/
abbrev Config.null : NodeIx := 511#9

/-- `NSYM`: entries in the frequency table (R5). -/
abbrev Config.NSYM : Nat := 256

/-- `NNODE`: node slots, indices 0 to 510 (R5). -/
abbrev Config.NNODE : Nat := 511

/-- `CODE_W`: bits in the code register, and the greatest number of links from a leaf to the root (R5, R131). -/
abbrev Config.CODE_W : Nat := 255

/-- FREE VALUE: what slot `n` of the node arena holds after power-on. "Unspecified": reset does not clear it and
"a model must not give it a value a proof could use" (R20, R220; V1). Log entry 3. -/
opaque Config.nodeInit : Nat → Node

/-- FREE VALUE: what bit `s` of `LEAFV` holds after power-on (R20, R220; V1). Log entry 3. -/
opaque Config.leafvInit : Nat → Bool

/-- FREE VALUE: what `Q[0]` of the builder's scratch holds when a `BUILD` at command index `k` has inserted
nothing into it (V2: "any value"). Only states outside R32 (`LIVE ≠ 0` with every count zero) read it. Log
entry 4. -/
opaque Config.scratchHead : Nat → NodeIx

/-- The two byte orders `HDR_BYTE_ORDER` may take (92_eei_decisions.md D16). -/
inductive ByteOrder where
  | little
  | big
  deriving DecidableEq, Repr, Inhabited

/-- FREE VALUE: `HDR_BYTE_ORDER`, the one open parameter; it touches only the host's file header (R80, D16). Log
entry 10. -/
opaque Config.hdrByteOrder : ByteOrder

end Sys2Proof
end

