-- ==== Sys2Proof/Syntax.lean ====
section
/-!
DEFINITION. The 14 commands of `IHC-1` (spec 30_encoding.md R96; spec/opcode_table.json), their formats (R93) and
the assembler's three pseudo-commands (R102). Operands other than the `sym` and `imm` fields are implicit (R92).
-/

namespace Sys2Proof

/-- The commands of `IHC-1`, in opcode order (R96): one constructor for each row of the opcode table. -/
inductive Instr where
  /-- `CLR`, 0x01, format Z (R180). -/
  | clr
  /-- `FLD s, v`, 0x02, format SI (R111). -/
  | fld (sym : Symbol) (imm : Count)
  /-- `FINC s`, 0x03, format S (R112). -/
  | finc (sym : Symbol)
  /-- `FDEC s`, 0x04, format S (R113). -/
  | fdec (sym : Symbol)
  /-- `FRD s`, 0x05, format S (R114). -/
  | frd (sym : Symbol)
  /-- `BUILD`, 0x10, format Z (R120). -/
  | build
  /-- `XCODE s`, 0x11, format S (R140). -/
  | xcode (sym : Symbol)
  /-- `PACK`, 0x12, format Z (R151). -/
  | pack
  /-- `FLUSH`, 0x13, format Z (R153). -/
  | flush
  /-- `STEP`, 0x14, format Z (R161). -/
  | step
  /-- `EMIT`, 0x15, format Z (R162). -/
  | emit
  /-- `ENC s`, 0x20, format S (R170). -/
  | enc (sym : Symbol)
  /-- `DEC`, 0x21, format Z (R171). -/
  | dec
  /-- `DRUN`, 0x22, format Z (R172). -/
  | drun
  deriving DecidableEq, Repr

/-- The three operand shapes (R93). -/
inductive Format where
  | z
  | s
  | si
  deriving DecidableEq, Repr

/-- The format of a command (R93, R96). -/
def Instr.format : Instr → Format
  | .clr => .z
  | .fld _ _ => .si
  | .finc _ => .s
  | .fdec _ => .s
  | .frd _ => .s
  | .build => .z
  | .xcode _ => .s
  | .pack => .z
  | .flush => .z
  | .step => .z
  | .emit => .z
  | .enc _ => .s
  | .dec => .z
  | .drun => .z

/-- The opcode of a command (R96). -/
def Instr.opcode : Instr → BitVec 8
  | .clr => 0x01#8
  | .fld _ _ => 0x02#8
  | .finc _ => 0x03#8
  | .fdec _ => 0x04#8
  | .frd _ => 0x05#8
  | .build => 0x10#8
  | .xcode _ => 0x11#8
  | .pack => 0x12#8
  | .flush => 0x13#8
  | .step => 0x14#8
  | .emit => 0x15#8
  | .enc _ => 0x20#8
  | .dec => 0x21#8
  | .drun => 0x22#8

/-- The `sym` operand, zero in a command that takes no symbol (R91). -/
def Instr.symOperand : Instr → Symbol
  | .clr => 0#8
  | .fld x _ => x
  | .finc x => x
  | .fdec x => x
  | .frd x => x
  | .build => 0#8
  | .xcode x => x
  | .pack => 0#8
  | .flush => 0#8
  | .step => 0#8
  | .emit => 0#8
  | .enc x => x
  | .dec => 0#8
  | .drun => 0#8

/-- The `imm` operand, zero in every command but `FLD` (R91). -/
def Instr.immOperand : Instr → Count
  | .clr => 0#64
  | .fld _ v => v
  | .finc _ => 0#64
  | .fdec _ => 0#64
  | .frd _ => 0#64
  | .build => 0#64
  | .xcode _ => 0#64
  | .pack => 0#64
  | .flush => 0#64
  | .step => 0#64
  | .emit => 0#64
  | .enc _ => 0#64
  | .dec => 0#64
  | .drun => 0#64

/-- The assembler's pseudo-commands, each a repetition of one real command (R102). -/
inductive Pseudo where
  /-- `COUNT b0, …, bn` -/
  | count (bytes : List Byte)
  /-- `ENCS b0, …, bn` -/
  | encs (bytes : List Byte)
  /-- `DECN k` -/
  | decn (k : Nat)
  deriving DecidableEq, Repr

/-- The expansion of a pseudo-command (R102). -/
def Pseudo.expand : Pseudo → List Instr
  | .count bytes => bytes.map Instr.finc
  | .encs bytes => bytes.map Instr.enc
  | .decn k => List.replicate k Instr.dec

end Sys2Proof
end

