-- ==== Sys2Proof/WellFormed.lean ====
section
/-!
DEFINITION. What makes a command well formed (spec 30_encoding.md R91, R93, R96, R101): a listed opcode, operands
that fit their fields, and zero in the fields its format does not use. The checks are made on a raw command, whose
fields are plain numbers; every `Instr` is well formed, since its operands have their fields' types (R92: every
value of `sym` and `imm` is legal).
-/

namespace Sys2Proof

/-- A command before it is checked: the three fields as plain numbers. -/
structure RawCommand where
  op  : Nat
  sym : Nat
  imm : Nat
  deriving DecidableEq, Repr

/-- The format the opcode map gives an opcode; none for a reserved one (R96, R97). -/
def formatOfOpcode (op : Nat) : Option Format :=
  if op = 0x02 then some .si
  else if op = 0x03 ∨ op = 0x04 ∨ op = 0x05 ∨ op = 0x11 ∨ op = 0x20 then some .s
  else if op = 0x01 ∨ op = 0x10 ∨ op = 0x12 ∨ op = 0x13 ∨ op = 0x14 ∨ op = 0x15 ∨ op = 0x21 ∨ op = 0x22 then some .z
  else none

/-- Must-be-zero fields (R93). -/
def Format.zeroFieldsOk (f : Format) (sym imm : Nat) : Bool :=
  match f with
  | .z => sym == 0 && imm == 0
  | .s => imm == 0
  | .si => true

/-- A raw command is well formed when its opcode is listed (R96), its operands fit their fields (R91, R101) and the
fields its format does not use are zero (R93). -/
def RawCommand.wellFormed (r : RawCommand) : Bool :=
  match formatOfOpcode r.op with
  | none => false
  | some f => decide (r.sym < 2 ^ 8) && decide (r.imm < 2 ^ 64) && f.zeroFieldsOk r.sym r.imm

/-- The raw form of a command. -/
def Instr.raw (i : Instr) : RawCommand :=
  { op := i.opcode.toNat, sym := i.symOperand.toNat, imm := i.immOperand.toNat }

/-- A command is well formed when its raw form is. -/
def WellFormed (i : Instr) : Bool := i.raw.wellFormed

end Sys2Proof
end

