-- ==== Sys2Proof/Decode.lean ====
section
/-!
DEFINITION. Command words (spec 30_encoding.md R90 to R98): the fields, a total decoder that rejects by name, and
the encoder, both written from the same opcode map (R96).
-/

namespace Sys2Proof

/-- `op`, bits 79:72 (R91). -/
def opField (w : CommandWord) : BitVec 8 := w.extractLsb' 72 8

/-- `sym`, bits 71:64 (R91). -/
def symField (w : CommandWord) : Symbol := w.extractLsb' 64 8

/-- `imm`, bits 63:0 (R91). -/
def immField (w : CommandWord) : Count := w.extractLsb' 0 64

/-- The word with the given fields (R91). -/
def assemble (op : BitVec 8) (sym : Symbol) (imm : Count) : CommandWord := op ++ sym ++ imm

/-- Why a word is illegal. Either way it raises `IllegalCmd` with the opcode as its information value. -/
inductive DecodeError where
  /-- A reserved opcode (R97). -/
  | reservedOpcode (op : BitVec 8)
  /-- A listed opcode whose must-be-zero field is not zero (R98). -/
  | nonzeroField (op : BitVec 8)
  deriving DecidableEq, Repr

/-- Format Z: `sym` and `imm` must be zero (R93). -/
def decodeZ (w : CommandWord) (i : Instr) : Except DecodeError Instr :=
  if symField w = 0#8 ∧ immField w = 0#64 then .ok i else .error (.nonzeroField (opField w))

/-- Format S: `imm` must be zero (R93). -/
def decodeS (w : CommandWord) (i : Instr) : Except DecodeError Instr :=
  if immField w = 0#64 then .ok i else .error (.nonzeroField (opField w))

/-- Decoding: total, and a function of the word alone (R94, R96 to R98). -/
def decode (w : CommandWord) : Except DecodeError Instr :=
  if opField w = 0x01#8 then decodeZ w .clr
  else if opField w = 0x02#8 then .ok (.fld (symField w) (immField w))
  else if opField w = 0x03#8 then decodeS w (.finc (symField w))
  else if opField w = 0x04#8 then decodeS w (.fdec (symField w))
  else if opField w = 0x05#8 then decodeS w (.frd (symField w))
  else if opField w = 0x10#8 then decodeZ w .build
  else if opField w = 0x11#8 then decodeS w (.xcode (symField w))
  else if opField w = 0x12#8 then decodeZ w .pack
  else if opField w = 0x13#8 then decodeZ w .flush
  else if opField w = 0x14#8 then decodeZ w .step
  else if opField w = 0x15#8 then decodeZ w .emit
  else if opField w = 0x20#8 then decodeS w (.enc (symField w))
  else if opField w = 0x21#8 then decodeZ w .dec
  else if opField w = 0x22#8 then decodeZ w .drun
  else .error (.reservedOpcode (opField w))

/-- The word of a command (R91, R95, R96). -/
def encode (i : Instr) : CommandWord := assemble i.opcode i.symOperand i.immOperand

/-- The mask of a format (R95): the `op` field and every must-be-zero field. -/
def Format.mask : Format → CommandWord
  | .z => 0xFFFFFFFFFFFFFFFFFFFF#80
  | .s => 0xFF00FFFFFFFFFFFFFFFF#80
  | .si => 0xFF000000000000000000#80

/-- The match of a row: its opcode and zeros (R95). -/
def Instr.matchWord (i : Instr) : CommandWord := assemble i.opcode 0#8 0#64

/-- The word `w`, given as the opcode table numbers its bits: one 80-bit word, bit 0 its least significant bit, of
which the row gives `nbits`; bits above are zero. -/
def tableWord (nbits w : Nat) : CommandWord := BitVec.ofNat 80 (w % 2 ^ nbits)

/-- The instruction the decoder reads from a word numbered as the opcode table numbers it. -/
def decodeTableWord (nbits w : Nat) : Option Instr :=
  if w % 2 ^ nbits < 2 ^ 80 then (decode (tableWord nbits w)).toOption else none

end Sys2Proof
end

