-- ==== Sys2Proof/Machine/State.lean ====
section
/-!
DEFINITION. The complete state of the block (spec 10_state.md R20), the host's channels (R24, R39), the reasons a
step of the MODEL stops, and the state after hardware reset (70_reset_and_hazards.md R220). The machine's own
faults (60_exceptions.md R191) are not stops: they are recorded in `fault`, `fcode`, `finfo` and the run goes on.
-/

namespace Sys2Proof.Machine

/-- The fault causes of the block (R191). Raising one is a next state (R196), never a stop of the model. -/
inductive Cause where
  | illegalCmd
  | emptyBuild
  | noTree
  | absentSymbol
  | freqOverflow
  | inUnderrun
  | nullChild
  | badCursor
  deriving DecidableEq, Repr

/-- Why the MODEL stops. Each is raised only in states the spec's invariants rule out, and each is SAFE: the model
stops where the spec gives no effect. -/
inductive Fault where
  /-- Raised by `STEP`, `EMIT`, `DEC`, `DRUN` with `TV = 1` and `CUR = NULL`: 511 names no slot (R60). R44 item 6
  rules it out. Safe. Log entry 5. -/
  | noSuchSlot
  /-- Raised by `XCODE`, `ENC` when the walk from the leaf has passed 255 links and has not reached a node without
  parent (R131, R140: at most 255). R44 item 2 rules it out. Safe. Log entry 6. -/
  | walkTooLong
  /-- The bound on the turns of the loops of `DEC` and `DRUN`; no state raises it, since every turn consumes a bit of
  a finite input (R172, R201). Safe. Log entry 7. -/
  | loopBound
  deriving DecidableEq, Repr

/-- Why the model gives a command no meaning. -/
inductive Refusal where
  /-- A command of the table with no meaning yet. No arm of `exec` raises it: every command has its meaning. Safe. -/
  | notModelled (mnemonic : String)
  deriving DecidableEq, Repr

/-- The state (R20), with the host's command list and its position (R24) and the three streams (R39). `STATUS` is
`Sys2Proof.Machine.status`: `tv`, `fault` and `fcode` are its stored fields, the others are functions of the state
(R26). The builder's `Q` and `QLEN` are local to `BUILD` (R40). -/
structure State where
  /-- the command words the host has issued, in order (R24) -/
  cmds  : List CommandWord
  /-- the position in that list (R24) -/
  cmdIx : Nat
  /-- `F[0..255]` (R33) -/
  freq  : Vector Count 256
  /-- `LIVE` (R30) -/
  live  : BitVec 9
  /-- `TOTAL` (R31) -/
  total : FreqSum
  /-- `STATUS.TV` (R27) -/
  tv    : Bool
  /-- `STATUS.FAULT` (R29) -/
  fault : Bool
  /-- `STATUS.FCODE` (R29) -/
  fcode : BitVec 8
  /-- `FINFO` (R29) -/
  finfo : BitVec 16
  /-- `N[0..510]` (R34) -/
  nodes : Vector Node 511
  /-- `LEAFV[0..255]` (R35) -/
  leafv : Vector Bool 256
  /-- `ROOT` (R36) -/
  root  : NodeIx
  /-- `CUR` (R25) -/
  cur   : NodeIx
  /-- `NLEAF` (R36) -/
  nleaf : BitVec 9
  /-- `NINT` (R36) -/
  nint  : BitVec 9
  /-- `CODE` (R21) -/
  code  : CodeReg
  /-- `CLEN` (R21) -/
  clen  : BitVec 8
  /-- `SYM` (R22) -/
  sym   : Symbol
  /-- `RES` (R23) -/
  res   : Count
  /-- `PBUF` (R37) -/
  pbuf  : BitVec 8
  /-- `FREE` (R37) -/
  free  : BitVec 4
  /-- `UBUF` (R38) -/
  ubuf  : BitVec 8
  /-- `UCNT` (R38) -/
  ucnt  : BitVec 4
  /-- the bytes of `IN` not yet taken; `IN.atEnd` is "the list is empty" (R39) -/
  inp   : List Byte
  /-- the bytes pushed to `OUT`, in push order (R39) -/
  out   : List Byte
  /-- the bytes pushed to `SOUT`, in emission order (R39) -/
  sout  : List Byte
  deriving DecidableEq, Repr

/-- How the body of a command ends, inside the model: completed, or ended by a `raise` (R196), or at a stop of the
model. -/
inductive Result where
  | done (s : State)
  | raised (s : State)
  | stuck (f : Fault)
  deriving DecidableEq, Repr

/-- The arena after power-on: unspecified in every slot (R220). -/
def arenaInit : Vector Node 511 := ⟨⟨(List.range 511).map Config.nodeInit⟩, by simp⟩

/-- `LEAFV` after power-on: unspecified in every bit (R220). -/
def leafvInit : Vector Bool 256 := ⟨⟨(List.range 256).map Config.leafvInit⟩, by simp⟩

/-- The state after hardware reset (R220), before the host has issued a command or supplied a byte. -/
def State.reset : State where
  cmds  := []
  cmdIx := 0
  freq  := Vector.replicate 256 0#64
  live  := 0#9
  total := 0#72
  tv    := false
  fault := false
  fcode := 0#8
  finfo := 0#16
  nodes := arenaInit
  leafv := leafvInit
  root  := Config.null
  cur   := Config.null
  nleaf := 0#9
  nint  := 0#9
  code  := 0#255
  clen  := 0#8
  sym   := 0#8
  res   := 0#64
  pbuf  := 0#8
  free  := 8#4
  ubuf  := 0#8
  ucnt  := 0#4
  inp   := []
  out   := []
  sout  := []

end Sys2Proof.Machine
end

