-- ==== Sys2Proof/Machine/Operands.lean ====
section
/-!
DEFINITION. How commands reach their operands: direct access to a table by the `sym` field (spec 40_freq_table.md
R116, 20_memory.md R60, R64), the arena by a node index (R34), and the bits of `CODE` (R21, R151).
-/

namespace Sys2Proof.Machine

/-- `F[x]` (R33, R116). -/
def freqOf (s : State) (x : Symbol) : Count := s.freq[x.toNat]'x.isLt

/-- `LEAFV[x]` (R35). -/
def leafValid (s : State) (x : Symbol) : Bool := s.leafv[x.toNat]'x.isLt

/-- The slot of symbol `x`'s leaf (R34, R35): slot `x` itself. -/
def leafSlot (x : Symbol) : NodeIx := x.setWidth 9

/-- `N[n]`; none exactly for `NULL`, which names no slot (R60, R69). -/
def nodeAt (nodes : Vector Node 511) (n : NodeIx) : Option Node := nodes[n.toNat]?

/-- `N[n] <- nd`. `NULL` names no slot, so there is nothing to write there. -/
def setNode (nodes : Vector Node 511) (n : NodeIx) (nd : Node) : Vector Node 511 :=
  nodes.setIfInBounds n.toNat nd

/-- `N[n].parent <- p`. -/
def setParent (nodes : Vector Node 511) (n p : NodeIx) : Vector Node 511 :=
  match nodeAt nodes n with
  | some nd => setNode nodes n { nd with parent := p }
  | none => nodes

/-- `N[n].freq` (0 where `n` names no slot, which the builder never asks). -/
def nodeFreq (nodes : Vector Node 511) (n : NodeIx) : FreqSum :=
  match nodeAt nodes n with
  | some nd => nd.freq
  | none => 0#72

/-- `CODE[hi-1 : hi-k]` as a number: the `k` bits below position `hi` (R8, R151). -/
def codeChunk (code : CodeReg) (hi k : Nat) : CodeReg :=
  (code >>> (hi - k)) &&& BitVec.ofNat 255 (2 ^ k - 1)

/-- The 256 symbols in ascending order (R120). -/
def allSymbols : List Symbol := (List.range 256).map (BitVec.ofNat 8)

end Sys2Proof.Machine
end

