-- ==== Sys2Proof/Machine/Flags.lean ====
section
/-!
DEFINITION. `STATUS` (spec 10_state.md R26 to R29): three stored fields (`TV`, `FAULT`, `FCODE`), three flags that are
functions of the state, and the whole 16-bit word.
-/

namespace Sys2Proof.Machine

/-- `STATUS.EMPTY`: 1 exactly when `TOTAL = 0` (R26, R28). -/
def emptyFlag (s : State) : Bool := s.total == 0#72

/-- `STATUS.PPEND`: 1 exactly when `FREE < 8` (R26). -/
def ppendFlag (s : State) : Bool := decide (s.free.toNat < 8)

/-- `STATUS.ATLEAF`: 1 exactly when `TV = 1` and `N[CUR].tag = Leaf` (R26). -/
def atLeafFlag (s : State) : Bool :=
  s.tv && match nodeAt s.nodes s.cur with
    | some nd => nd.tag == .leaf
    | none => false

/-- `STATUS`, bits 15:8 `FCODE`, 7:5 zero, then `ATLEAF`, `PPEND`, `FAULT`, `EMPTY`, `TV` (R26). -/
def status (s : State) : BitVec 16 :=
  s.fcode ++ 0#3 ++ BitVec.ofBool (atLeafFlag s) ++ BitVec.ofBool (ppendFlag s) ++ BitVec.ofBool s.fault ++
    BitVec.ofBool (emptyFlag s) ++ BitVec.ofBool s.tv

/-- The fault code of a cause (R191). -/
def causeCode : Cause → BitVec 8
  | .illegalCmd => 0x01#8
  | .emptyBuild => 0x02#8
  | .noTree => 0x03#8
  | .absentSymbol => 0x04#8
  | .freqOverflow => 0x05#8
  | .inUnderrun => 0x06#8
  | .nullChild => 0x07#8
  | .badCursor => 0x08#8

end Sys2Proof.Machine
end

