-- ==== Sys2Proof/Machine/Ops.lean ====
section
/-!
DEFINITION. The operations the commands share: taking a fault (spec 60_exceptions.md R196) and leaving the fault state
(46_system.md R180), the common pre-check (R198), writing the frequency table (40_freq_table.md R110), delivering one
bit of `IN` (44_bit_unpacker.md R160), pushing to the streams,
  and fetching a word from the host's list (10_state.md R24).
-/

namespace Sys2Proof.Machine

/-- Fault entry, `raise X(info)`: three registers are written and the command ends (R196). -/
def enterFault (c : Cause) (info : BitVec 16) (s : State) : State :=
  { s with fault := true, fcode := causeCode c, finfo := info }

/-- A `raise` inside a command body (R196). -/
def raise (c : Cause) (info : BitVec 16) (s : State) : Result := .raised (enterFault c info s)

/-- `call`: the rest of the command runs only when the called part completed (R9, R196). -/
def Result.andThen (r : Result) (k : State → Result) : Result :=
  match r with
  | .done s => k s
  | .raised s => .raised s
  | .stuck f => .stuck f

/-- How a body's end reads as the outcome of a step: a fault of the block is a next state (R196). -/
def Result.outcome : Result → Host.Outcome State Fault Refusal
  | .done s => .next s
  | .raised s => .next s
  | .stuck f => .fault f

/-- The common pre-check: while `FAULT = 1` the command is refused and changes no state at all (R194, R198). -/
def command (body : State → Result) (s : State) : Host.Outcome State Fault Refusal :=
  if s.fault then .next s else (body s).outcome

/-- `SetF(x, v)`: the only way any rule writes the frequency table (R110). -/
def setF (s : State) (x : Symbol) (v : Count) : State :=
  { s with
    freq  := s.freq.set x.toNat v x.isLt
    total := s.total - (freqOf s x).setWidth 72 + v.setWidth 72
    live  := s.live - (if freqOf s x = 0#64 then 0#9 else 1#9) + (if v = 0#64 then 0#9 else 1#9)
    tv    := false }

/-- The state `CLR` and hardware reset leave: every item of R20 at its reset value; the arena and `LEAFV` are not
cleared, and the host's channels keep what they hold (R180, R222). Leaving the fault state is part of it (R200). -/
def clearState (s : State) : State :=
  { s with
    freq  := Vector.replicate 256 0#64
    live  := 0#9
    total := 0#72
    tv    := false
    fault := false
    fcode := 0#8
    finfo := 0#16
    root  := Config.null
    cur   := Config.null
    nleaf := 0#9
    nint  := 0#9
    code  := 0#255
    clen  := 0#8
    sym   := 0#8
    res   := 0#64
    pbuf  := 0#8
    free  := 8#4
    ubuf  := 0#8
    ucnt  := 0#4 }

/-- The delivery of one bit from `UBUF`, bit 7 first, a zero entering at bit 0 (R160). -/
def takeBit (s : State) : Bool × State :=
  (s.ubuf.msb, { s with ubuf := s.ubuf <<< 1, ucnt := s.ucnt - 1#4 })

/-- The refill: one byte of `IN` into `UBUF` (R160). -/
def refill (b : Byte) (rest : List Byte) (s : State) : State := { s with ubuf := b, ucnt := 8#4, inp := rest }

/-- `GetBit()`: lazy refill, then one bit (R160); none when a bit is wanted, `UCNT = 0` and `IN.atEnd`. -/
def getBit (s : State) : Option (Bool × State) :=
  if s.ucnt = 0#4 then
    match s.inp with
    | [] => none
    | b :: rest => some (takeBit (refill b rest s))
  else some (takeBit s)

/-- The number of bits the unpacker can still deliver: those in `UBUF` and eight for each byte of `IN` (R38, R39). -/
def bitsLeft (s : State) : Nat := s.ucnt.toNat + 8 * s.inp.length

/-- `SOUT.push(b)` (R9). -/
def pushSymbol (b : Byte) (s : State) : State := { s with sout := s.sout ++ [b] }

/-- The word at the position in the host's list; none when the core is idle (R24, R221). -/
def fetchWord (s : State) : Option CommandWord := s.cmds[s.cmdIx]?

/-- The position advances by exactly one after every command, completed, faulted or refused (R24). -/
def advance (s : State) : State := { s with cmdIx := s.cmdIx + 1 }

/-- An illegal word: refused in the fault state, else `IllegalCmd` with the opcode (R97, R98, R194). -/
def execIllegal (w : CommandWord) (s : State) : Host.Outcome State Fault Refusal :=
  command (raise .illegalCmd ((opField w).setWidth 16)) s

/-- `s` with the word `w` standing in the host's list at the position fetched next. -/
def placeWord (w : CommandWord) (s : State) : State :=
  { s with cmds := (s.cmds ++ List.replicate (s.cmdIx + 1 - s.cmds.length) 0#80).set s.cmdIx w }

end Sys2Proof.Machine
end

