-- ==== Sys2Proof/Machine/BitPacker.lean ====
section
/-!
DEFINITION. The bit packer `PACK`, `FLUSH` (spec 43_bit_packer.md R150 to R153).
-/

namespace Sys2Proof.Machine

/-- What the packer works on: `PBUF`, `FREE` and the stream `OUT` (R37, R151). -/
structure Packer where
  pbuf : BitVec 8
  free : BitVec 4
  out  : List Byte
  deriving DecidableEq, Repr

/-- `OUT.push(PBUF); PBUF <- 0; FREE <- 8` (R151, R153). -/
def pushByte (p : Packer) : Packer := { pbuf := 0#8, free := 8#4, out := p.out ++ [p.pbuf] }

/-- The first lines of a pass: a full byte that is waiting is pushed (R151, R152). -/
def pushIfFull (p : Packer) : Packer := if p.free = 0#4 then pushByte p else p

/-- The rest of a pass: the `k` highest-order bits not yet packed, of `len`, go just below the bits already there. -/
def packChunk (code : CodeReg) (len k : Nat) (p : Packer) : Packer :=
  { p with
    pbuf := p.pbuf ||| (codeChunk code len k <<< (p.free.toNat - k)).setWidth 8
    free := BitVec.ofNat 4 (p.free.toNat - k) }

/-- The loop of `PACK` with `len` bits to go, for at most `fuel` passes; every pass packs a bit, so `len` passes
are enough (R151). -/
def packLoop (code : CodeReg) : Nat → Nat → Packer → Packer
  | 0, _, p => p
  | fuel + 1, len, p =>
    if len = 0 then p
    else
      let p := pushIfFull p
      let k := min len p.free.toNat
      packLoop code fuel (len - k) (packChunk code len k p)

/-- The packer's part of the state. -/
def packerOf (s : State) : Packer := { pbuf := s.pbuf, free := s.free, out := s.out }

/-- `s` with the packer's part replaced. -/
def withPacker (s : State) (p : Packer) : State := { s with pbuf := p.pbuf, free := p.free, out := p.out }

/-- `PACK` (R151). -/
def packBody (s : State) : Result :=
  .done (withPacker s (packLoop s.code s.clen.toNat s.clen.toNat (packerOf s)))

/-- `FLUSH` (R153). -/
def flushBody (s : State) : Result :=
  if s.free.toNat < 8 then .done (withPacker s (pushByte (packerOf s))) else .done s

/-- The meaning of `PACK` (R151, R198). -/
def execPack (s : State) : Host.Outcome State Fault Refusal := command packBody s

/-- The meaning of `FLUSH` (R153, R198). -/
def execFlush (s : State) : Host.Outcome State Fault Refusal := command flushBody s

end Sys2Proof.Machine
end

