-- ==== Sys2Proof/Machine/FreqTable.lean ====
section
/-!
DEFINITION. The frequency-table commands `FLD`, `FINC`, `FDEC`, `FRD` (spec 40_freq_table.md).
-/

namespace Sys2Proof.Machine

/-- `FLD x, v` (R111). -/
def fldBody (x : Symbol) (v : Count) (s : State) : Result := .done (setF s x v)

/-- `FINC x`: the count does not wrap (R112). -/
def fincBody (x : Symbol) (s : State) : Result :=
  if freqOf s x = BitVec.allOnes 64 then raise .freqOverflow (x.setWidth 16) s
  else .done (setF s x (freqOf s x + 1#64))

/-- `FDEC x`: the count does not go below zero (R113). -/
def fdecBody (x : Symbol) (s : State) : Result :=
  if freqOf s x = 0#64 then raise .absentSymbol (x.setWidth 16) s
  else .done (setF s x (freqOf s x - 1#64))

/-- `FRD x`: reads one entry into `RES`; `TV` is kept (R114). -/
def frdBody (x : Symbol) (s : State) : Result := .done { s with res := freqOf s x }

/-- The meaning of `FLD` (R111, R198). -/
def execFld (x : Symbol) (v : Count) (s : State) : Host.Outcome State Fault Refusal := command (fldBody x v) s

/-- The meaning of `FINC` (R112, R198). -/
def execFinc (x : Symbol) (s : State) : Host.Outcome State Fault Refusal := command (fincBody x) s

/-- The meaning of `FDEC` (R113, R198). -/
def execFdec (x : Symbol) (s : State) : Host.Outcome State Fault Refusal := command (fdecBody x) s

/-- The meaning of `FRD` (R114, R198). -/
def execFrd (x : Symbol) (s : State) : Host.Outcome State Fault Refusal := command (frdBody x) s

end Sys2Proof.Machine
end

