-- ==== Sys2Proof/Machine/BitUnpacker.lean ====
section
/-!
DEFINITION. The bit unpacker and the tree walk `STEP`, `EMIT` (spec 44_bit_unpacker.md R160 to R162).
-/

namespace Sys2Proof.Machine

/-- The end of `STEP` at the internal node `nd`, with the bit read: one edge down, or `NullChild` with the bit
consumed (R161). -/
def followEdge (nd : Node) (bit : Bool) (s : State) : Result :=
  let nxt := if bit then nd.right else nd.left
  if nxt = Config.null then raise .nullChild (s.cur.setWidth 16) s else .done { s with cur := nxt }

/-- `STEP` (R161): `NoTree`, `BadCursor`, `InUnderrun`, `NullChild` in this order. -/
def stepBody (s : State) : Result :=
  if s.tv = false then raise .noTree 0#16 s
  else
    match nodeAt s.nodes s.cur with
    | none => .stuck .noSuchSlot
    | some nd =>
      match nd.tag with
      | .leaf => raise .badCursor (s.cur.setWidth 16) s
      | .internal =>
        match getBit s with
        | none => raise .inUnderrun 0#16 s
        | some (bit, s') => followEdge nd bit s'

/-- `EMIT` (R162): `NoTree`, then `BadCursor`; then the symbol goes out and is counted off. -/
def emitBody (s : State) : Result :=
  if s.tv = false then raise .noTree 0#16 s
  else
    match nodeAt s.nodes s.cur with
    | none => .stuck .noSuchSlot
    | some nd =>
      match nd.tag with
      | .internal => raise .badCursor (s.cur.setWidth 16) s
      | .leaf => fdecBody nd.sym (pushSymbol nd.sym { s with sym := nd.sym })

/-- The meaning of `STEP` (R161, R198). -/
def execStep (s : State) : Host.Outcome State Fault Refusal := command stepBody s

/-- The meaning of `EMIT` (R162, R198). -/
def execEmit (s : State) : Host.Outcome State Fault Refusal := command emitBody s

end Sys2Proof.Machine
end

