-- ==== Sys2Proof/Machine/CodeExtractor.lean ====
section
/-!
DEFINITION. The code extractor `XCODE` (spec 42_code_extractor.md R140): the leaf-to-root walk and the reversal.
-/

namespace Sys2Proof.Machine

/-- The edge bits of the walk from slot `n` to the root, the edge of `n` itself first (R140): 0 when `n` is its
parent's left child, else 1. None when the walk has not ended within `k` links. -/
def edgesUp (nodes : Vector Node 511) : Nat → NodeIx → Option (List Bool)
  | k, n =>
    match nodeAt nodes n with
    | none => none
    | some nd =>
      if nd.parent = Config.null then some []
      else
        match k with
        | 0 => none
        | k + 1 =>
          match nodeAt nodes nd.parent, edgesUp nodes k nd.parent with
          | some p, some rest => some (decide (p.left ≠ n) :: rest)
          | _, _ => none

/-- A list of bits as a number, the first bit the least significant one. -/
def bitsToNat : List Bool → Nat
  | [] => 0
  | b :: rest => b.toNat + 2 * bitsToNat rest

/-- The k-th bit recorded goes to `CODE[k]` (R140); sent from `CODE[CLEN-1]` down, the root's edge is first (R62). -/
def codeOfEdges (edges : List Bool) : CodeReg := BitVec.ofNat 255 (bitsToNat edges)

/-- `XCODE x` (R140). -/
def xcodeBody (x : Symbol) (s : State) : Result :=
  if s.tv = false then raise .noTree 0#16 s
  else if leafValid s x = false then raise .absentSymbol (x.setWidth 16) s
  else
    match edgesUp s.nodes Config.CODE_W (leafSlot x) with
    | none => .stuck .walkTooLong
    | some edges => .done { s with code := codeOfEdges edges, clen := BitVec.ofNat 8 edges.length }

/-- The meaning of `XCODE` (R140, R198). -/
def execXcode (x : Symbol) (s : State) : Host.Outcome State Fault Refusal := command (xcodeBody x) s

end Sys2Proof.Machine
end

