-- ==== Sys2Proof/Machine/TreeBuilder.lean ====
section
/-!
DEFINITION. The tree builder `BUILD` (spec 41_tree_builder.md R120 to R125). `Builder` is what a build works on: the
arena, `LEAFV`, and its scratch, the sequence `Q` (the list; `QLEN` is its length) and `NINT`.
-/

namespace Sys2Proof.Machine

/-- The working state of a build (R120; R40: `Q` and `QLEN` are local to it). -/
structure Builder where
  nodes : Vector Node 511
  leafv : Vector Bool 256
  q     : List NodeIx
  nint  : BitVec 9
  deriving DecidableEq, Repr

/-- `Insert(n)`: `n` goes behind every entry of greater or equal frequency (R121). -/
def insertNode (nodes : Vector Node 511) (n : NodeIx) : List NodeIx → List NodeIx
  | [] => [n]
  | m :: rest =>
    if (nodeFreq nodes n).toNat ≤ (nodeFreq nodes m).toNat then m :: insertNode nodes n rest else n :: m :: rest

/-- The leaf record of symbol `x` with count `v` (R123). -/
def leafNode (x : Symbol) (v : Count) : Node :=
  { tag := .leaf, sym := x, freq := v.setWidth 72, parent := Config.null, left := Config.null, right := Config.null }

/-- The live symbols with their counts, in ascending symbol order (R12, R123). -/
def liveEntries (freq : Vector Count 256) : List (Symbol × Count) :=
  (allSymbols.zip freq.toList).filter fun e => decide (e.2 ≠ 0#64)

/-- Steps 1 and 2 for one live symbol: its leaf is written and inserted at once (R120, R123). -/
def addLeaf (b : Builder) (e : Symbol × Count) : Builder :=
  let nodes := setNode b.nodes (leafSlot e.1) (leafNode e.1 e.2)
  { b with nodes := nodes, q := insertNode nodes (leafSlot e.1) b.q }

/-- Steps 1 and 2, from an empty `Q`: a leaf for each live symbol in ascending order; all 256 bits of `LEAFV` are
written, 1 for the live symbols (R35, R120, R123). -/
def addLeaves (s : State) : Builder :=
  (liveEntries s.freq).foldl addLeaf
    { nodes := s.nodes, leafv := s.freq.map fun v => decide (v ≠ 0#64), q := [], nint := 0#9 }

/-- The slot of the next internal node (R122). -/
def nextSlot (b : Builder) : NodeIx := 256#9 + b.nint

/-- The record of a new internal node, with no parent yet (R120). -/
def innerNode (f : FreqSum) (a z : NodeIx) : Node :=
  { tag := .internal, sym := 0#8, freq := f, parent := Config.null, left := a, right := z }

/-- Step 3: the one-leaf parent in slot 256, the leaf its left child, no right child (R124). -/
def oneLeafParent (b : Builder) (a : NodeIx) : Builder :=
  let nodes := setNode b.nodes 256#9 (innerNode (nodeFreq b.nodes a) a Config.null)
  { b with nodes := setParent nodes a 256#9, q := [256#9], nint := 1#9 }

/-- One pass of step 4: the tail `z` and the entry before it `a` become the children of a new node, `a` the left one,
and the node is inserted into what is left of `Q` (R125). -/
def mergePass (b : Builder) (front : List NodeIx) (a z : NodeIx) : Builder :=
  let p := nextSlot b
  let nodes := setNode b.nodes p (innerNode (nodeFreq b.nodes a + nodeFreq b.nodes z) a z)
  let nodes := setParent (setParent nodes a p) z p
  { b with nodes := nodes, q := insertNode nodes p front, nint := b.nint + 1#9 }

/-- Step 4, the merge loop, for at most `k` passes: it ends when fewer than two entries remain (R125, R126). -/
def mergeLoop : Nat → Builder → Builder
  | 0, b => b
  | k + 1, b =>
    match b.q.reverse with
    | z :: a :: front => mergeLoop k (mergePass b front.reverse a z)
    | _ => b

/-- Steps 3 and 4: exactly one leaf takes step 3, otherwise the merge loop runs (R120). -/
def joinLeaves (b : Builder) : Builder :=
  match b.q with
  | [a] => oneLeafParent b a
  | q => mergeLoop q.length b

/-- The arena a build makes of the frequency table (R120). -/
def buildArena (s : State) : Builder := joinLeaves (addLeaves s)

/-- `Q[0]` at the end of a build. With every count zero nothing was inserted and it is a FREE VALUE (log entry 4). -/
def rootOf (s : State) (b : Builder) : NodeIx := b.q.headD (Config.scratchHead s.cmdIx)

/-- The state a completed `BUILD` leaves (R120, R133): the tree of the current table is valid and the cursor stands at
its root. -/
def builtState (s : State) : State :=
  let b := buildArena s
  { s with
    nodes := b.nodes
    leafv := b.leafv
    nleaf := BitVec.ofNat 9 (addLeaves s).q.length
    nint  := b.nint
    root  := rootOf s b
    cur   := rootOf s b
    tv    := true }

/-- `BUILD` (R120, R133). -/
def buildBody (s : State) : Result :=
  if s.live = 0#9 then raise .emptyBuild 0#16 s else .done (builtState s)

/-- The meaning of `BUILD` (R120, R198). -/
def execBuild (s : State) : Host.Outcome State Fault Refusal := command buildBody s

end Sys2Proof.Machine
end

