-- ==== Sys2Proof/Machine/Driver.lean ====
section
/-!
DEFINITION. The driver commands `ENC`, `DEC`, `DRUN` (spec 45_driver.md R170 to R172): the primitive commands in the
source's order.
-/

namespace Sys2Proof.Machine

/-- `ENC x` (R170): its two tests first, then (a) build, (b) extract, (c) pack, (d) count off. -/
def encBody (x : Symbol) (s : State) : Result :=
  if s.live = 0#9 then raise .emptyBuild 0#16 s
  else if freqOf s x = 0#64 then raise .absentSymbol (x.setWidth 16) s
  else (((buildBody s).andThen (xcodeBody x)).andThen packBody).andThen (fdecBody x)

/-- Loop (b) of `DEC`: `STEP` while the cursor is on an internal node, for at most `k` turns (R171). -/
def walkLoop : Nat → State → Result
  | k, s =>
    match nodeAt s.nodes s.cur with
    | none => .stuck .noSuchSlot
    | some nd =>
      match nd.tag with
      | .leaf => .done s
      | .internal =>
        match k with
        | 0 => .stuck .loopBound
        | k + 1 => (stepBody s).andThen (walkLoop k)

/-- `DEC` (R171): build, walk, emit. Every `STEP` that completes takes a bit, so the bits left bound the turns. -/
def decBody (s : State) : Result :=
  ((buildBody s).andThen fun s => walkLoop (bitsLeft s + 1) s).andThen emitBody

/-- The loop of `DRUN`: `DEC` while `TOTAL ≠ 0`, for at most `k` turns (R172). -/
def drunLoop : Nat → State → Result
  | k, s =>
    if s.total = 0#72 then .done s
    else
      match k with
      | 0 => .stuck .loopBound
      | k + 1 => (decBody s).andThen (drunLoop k)

/-- `DRUN` (R172). Every `DEC` that completes takes a bit, so the bits left bound the turns. -/
def drunBody (s : State) : Result := drunLoop (bitsLeft s + 1) s

/-- The meaning of `ENC` (R170, R198). -/
def execEnc (x : Symbol) (s : State) : Host.Outcome State Fault Refusal := command (encBody x) s

/-- The meaning of `DEC` (R171, R198). -/
def execDec (s : State) : Host.Outcome State Fault Refusal := command decBody s

/-- The meaning of `DRUN` (R172, R198). -/
def execDrun (s : State) : Host.Outcome State Fault Refusal := command drunBody s

end Sys2Proof.Machine
end

