-- ==== Sys2Proof/Machine/SystemCommand.lean ====
section
/-!
DEFINITION. The system command `CLR` (spec 46_system.md R180), the only command that executes in the fault state.
-/

namespace Sys2Proof.Machine

/-- The meaning of `CLR` (R180): it cannot fault and is never refused (R198). -/
def execClr (s : State) : Host.Outcome State Fault Refusal := .next (clearState s)

end Sys2Proof.Machine
end

