-- ==== Sys2Proof/Machine/Dispatch.lean ====
section
/-!
DEFINITION. One arm per command: each calls that command's own meaning (spec 30_encoding.md R96).
-/

namespace Sys2Proof.Machine

def exec (i : Instr) (s : State) : Host.Outcome State Fault Refusal :=
  match i with
  | .clr => Sys2Proof.Machine.execClr s
  | .fld sym imm => Sys2Proof.Machine.execFld sym imm s
  | .finc sym => Sys2Proof.Machine.execFinc sym s
  | .fdec sym => Sys2Proof.Machine.execFdec sym s
  | .frd sym => Sys2Proof.Machine.execFrd sym s
  | .build => Sys2Proof.Machine.execBuild s
  | .xcode sym => Sys2Proof.Machine.execXcode sym s
  | .pack => Sys2Proof.Machine.execPack s
  | .flush => Sys2Proof.Machine.execFlush s
  | .step => Sys2Proof.Machine.execStep s
  | .emit => Sys2Proof.Machine.execEmit s
  | .enc sym => Sys2Proof.Machine.execEnc sym s
  | .dec => Sys2Proof.Machine.execDec s
  | .drun => Sys2Proof.Machine.execDrun s

end Sys2Proof.Machine
end

