-- ==== Sys2Proof/Machine/Step.lean ====
section
/-!
DEFINITION. One step: the word at the position in the host's list is decoded and executed, and the position advances by
exactly one, whether the command completed, faulted or was refused (spec 10_state.md R24). With no word left the core is
idle and holds its state (60_exceptions.md R210, 70_reset_and_hazards.md R221).
-/

namespace Sys2Proof.Machine

/-- What the core does with a word, legal or not (R94, R97, R98). -/
def runWord (w : CommandWord) (s : State) : Host.Outcome State Fault Refusal :=
  match decode w with
  | .ok i => exec i s
  | .error _ => execIllegal w s

/-- One step of the machine (R24). -/
def step (s : State) : Host.Outcome State Fault Refusal :=
  match fetchWord s with
  | none => .next s
  | some w => runWord w (advance s)

/-- `s` with the instruction of a word, numbered as the opcode table numbers it, standing where `step` fetches next:
this stands for the host issuing it (R240). Log entry 1. -/
def State.withFetchWord (s : State) (nbits w : Nat) : State := placeWord (tableWord nbits w) s

end Sys2Proof.Machine
end

