-- ==== Sys2Proof/Machine/HostPort.lean ====
section
/-!
DEFINITION. What the host does to the block and sees of it (spec 70_reset_and_hazards.md R220 to R224, R238 to R240;
10_state.md R42; 60_exceptions.md R199, R201). None of it is a step of the core; all of it happens between commands.
-/

namespace Sys2Proof.Machine

/-- The host issues command words, in order (R240). -/
def issue (ws : List CommandWord) (s : State) : State := { s with cmds := s.cmds ++ ws }

/-- The host supplies bytes of `IN` (R240). -/
def supply (bytes : List Byte) (s : State) : State := { s with inp := s.inp ++ bytes }

/-- The reset input: the block's state as after `CLR`, and the host-side view of `OUT` and `SOUT` emptied (R222).
The arena and `LEAFV` are not cleared (R43); the words and input bytes the host holds stay (log entry 9). -/
def hardwareReset (s : State) : State := { clearState s with out := [], sout := [] }

/-- The start of a run: the reset state, a finite list of command words, and a finite byte list `IN` (R238). -/
def startRun (ws : List CommandWord) (bytes : List Byte) : State := supply bytes (issue ws State.reset)

/-- A run is over when the last command of the list has completed, faulted or been refused (R238). -/
def runOver (s : State) : Bool := decide (s.cmds.length ≤ s.cmdIx)

/-- `k` steps of the machine. -/
def runFor (k : Nat) (s : State) : Host.Outcome State Fault Refusal := Sys2Proof.core.run k s

/-- The whole run from `s`: one step for each word not yet executed. -/
def runAll (s : State) : Host.Outcome State Fault Refusal := runFor (s.cmds.length - s.cmdIx) s

/-- The result of an encoder run: `OUT`, when the run is over with `FAULT = 0`; otherwise no result (R199, R238). -/
def encoderResult (s : State) : Option (List Byte) := if runOver s && !s.fault then some s.out else none

/-- An encoder's result is a complete packed stream only if also `FREE = 8` (R238). -/
def encoderComplete (s : State) : Bool := (encoderResult s).isSome && s.free == 8#4

/-- The result of a decoder run: `SOUT`, when the run is over with `FAULT = 0`; otherwise no result (R199, R238). -/
def decoderResult (s : State) : Option (List Byte) := if runOver s && !s.fault then some s.sout else none

/-- A decoder's result is a complete decode only if also `STATUS.EMPTY = 1` (R238). -/
def decoderComplete (s : State) : Bool := (decoderResult s).isSome && emptyFlag s

/-- A list of commands executed one after another, each to completion before the next begins (R24, R71); the position in
the host's list is not moved. -/
def execAll : List Instr → State → Host.Outcome State Fault Refusal
  | [], s => .next s
  | i :: rest, s =>
    match exec i s with
    | .next t => execAll rest t
    | .fault f => .fault f
    | .refused r => .refused r

/-- The three ways a command ends (R201). -/
inductive CommandEnd where
  | completed
  | faulted
  | refused
  deriving DecidableEq, Repr

/-- How the word `w` ended, from the state before it and the state after it (R198, R201). -/
def commandEnd (w : CommandWord) (before after : State) : CommandEnd :=
  if before.fault && !decide ((decode w).toOption = some .clr) then .refused
  else if after.fault then .faulted
  else .completed

/-- The register outputs of the block (R42, R240). The table, the arena and `LEAFV` are not among them. -/
structure HostView where
  status : BitVec 16
  finfo  : BitVec 16
  live   : BitVec 9
  total  : FreqSum
  root   : NodeIx
  cur    : NodeIx
  nleaf  : BitVec 9
  nint   : BitVec 9
  code   : CodeReg
  clen   : BitVec 8
  sym    : Symbol
  res    : Count
  pbuf   : BitVec 8
  free   : BitVec 4
  ubuf   : BitVec 8
  ucnt   : BitVec 4
  deriving DecidableEq, Repr

/-- What the host reads between two commands; reading has no side effect (R42, R68). -/
def hostView (s : State) : HostView :=
  { status := status s, finfo := s.finfo, live := s.live, total := s.total, root := s.root, cur := s.cur,
    nleaf := s.nleaf, nint := s.nint, code := s.code, clen := s.clen, sym := s.sym, res := s.res,
    pbuf := s.pbuf, free := s.free, ubuf := s.ubuf, ucnt := s.ucnt }

/-- The table of counts the encoder's pre-scan makes (R112, R118). -/
def countTable (bytes : List Byte) : Vector Count 256 :=
  Vector.ofFn fun i => BitVec.ofNat 64 (bytes.count (BitVec.ofNat 8 i.val))

/-- The encoder's command list for an input: count, then code every byte in file order, then `FLUSH` (R118, R223).
(The `FRD`s with which the host reads the table stand between the two; they change only `RES`.) -/
def encoderCommands (bytes : List Byte) : List CommandWord :=
  (Pseudo.expand (.count bytes) ++ Pseudo.expand (.encs bytes) ++ [Instr.flush]).map encode

/-- The 256 `FRD`s with which the encoder's host reads the table for its header (R78, R118). -/
def readTableCommands : List CommandWord := allSymbols.map fun x => encode (.frd x)

/-- The decoder's command list for a table: load all 256 entries, then `DRUN` (R118, R224). -/
def decoderCommands (table : Vector Count 256) : List CommandWord :=
  ((allSymbols.zip table.toList).map fun e => encode (.fld e.1 e.2)) ++ [encode .drun]

end Sys2Proof.Machine
end

