-- ==== Sys2Proof/Machine/HostFile.lean ====
section
/-!
DEFINITION. The compressed file the host builds around the block's streams (spec 20_memory.md R77 to R81). The block
implements none of it (00_scope.md R4); it is modelled so that whole-file statements can be made. The byte order of a
2, 4 or 8 byte count is the open parameter `HDR_BYTE_ORDER` (R80, log entry 10).
-/

namespace Sys2Proof.Machine

/-- The largest count of a table (R79). -/
def maxCount (table : Vector Count 256) : Nat := (table.toList.map BitVec.toNat).foldl max 0

/-- The frequency field width: the smallest of 1, 2, 4, 8 bytes that holds the largest count (R78, R79). -/
def headerWidth (table : Vector Count 256) : Nat :=
  if maxCount table ≤ 255 then 1
  else if maxCount table ≤ 65535 then 2
  else if maxCount table ≤ 2 ^ 32 - 1 then 4
  else 8

/-- The bytes of a number, least significant first. -/
def littleBytes : Nat → Nat → List Byte
  | 0, _ => []
  | k + 1, v => BitVec.ofNat 8 v :: littleBytes k (v / 256)

/-- The number whose bytes are these, least significant first. -/
def ofLittleBytes : List Byte → Nat
  | [] => 0
  | b :: rest => b.toNat + 256 * ofLittleBytes rest

/-- A count as `width` bytes in a byte order (R78, R80). -/
def countBytes (order : ByteOrder) (width : Nat) (c : Count) : List Byte :=
  match order with
  | .little => littleBytes width c.toNat
  | .big => (littleBytes width c.toNat).reverse

/-- The count a field of bytes holds in a byte order (R78, R80). -/
def ofCountBytes (order : ByteOrder) (bytes : List Byte) : Count :=
  match order with
  | .little => BitVec.ofNat 64 (ofLittleBytes bytes)
  | .big => BitVec.ofNat 64 (ofLittleBytes bytes.reverse)

/-- The header: the width byte, then the 256 counts in symbol order (R78). -/
def headerBytes (table : Vector Count 256) : List Byte :=
  BitVec.ofNat 8 (headerWidth table) ::
    table.toList.flatMap (countBytes Config.hdrByteOrder (headerWidth table))

/-- The compressed file: the header followed immediately by the packed bit stream, nothing else (R77). -/
def compressedFile (table : Vector Count 256) (packed : List Byte) : List Byte := headerBytes table ++ packed

/-- `k` counts of `width` bytes from the front of a file, with the rest of it; none when fewer can be read (R81). -/
def readCounts (order : ByteOrder) (width : Nat) : Nat → List Byte → Option (List Count × List Byte)
  | 0, bytes => some ([], bytes)
  | k + 1, bytes =>
    if bytes.length < width then none
    else
      match readCounts order width k (bytes.drop width) with
      | some (cs, rest) => some (ofCountBytes order (bytes.take width) :: cs, rest)
      | none => none

/-- The host's header reader: the counts and the packed stream; none for a width outside 1, 2, 4, 8 or fewer than 256
counts, where "decode must fail" (R79, R81). -/
def readHeader (file : List Byte) : Option (List Count × List Byte) :=
  match file with
  | [] => none
  | w :: rest =>
    if w = 1#8 ∨ w = 2#8 ∨ w = 4#8 ∨ w = 8#8 then readCounts Config.hdrByteOrder w.toNat 256 rest else none

end Sys2Proof.Machine
end

