-- ==== Sys2Proof/Machine/TreeValue.lean ====
section
/-!
DEFINITION. The tree as a value (spec 41_tree_builder.md R134), written from that rule alone and apart from the arena:
what the arena of `BUILD` represents, the code of a symbol, and the symbol a bit string leads to (R132).
-/

namespace Sys2Proof.Machine

/-- A node of the tree as a value: `Leaf(s, f)`, `Two(l, r, f)`, `One(l, f)` (R134). -/
inductive HTree where
  | leaf (x : Symbol) (f : Nat)
  | two (l r : HTree) (f : Nat)
  | one (l : HTree) (f : Nat)
  deriving DecidableEq, Repr

/-- `freq`, the last component (R134). -/
def treeFreq : HTree → Nat
  | .leaf _ f => f
  | .two _ _ f => f
  | .one _ f => f

/-- `ins(q, n)`: behind the last element of greater or equal frequency (R134). -/
def insertTree (n : HTree) : List HTree → List HTree
  | [] => [n]
  | m :: rest => if treeFreq n ≤ treeFreq m then m :: insertTree n rest else n :: m :: rest

/-- `leaves(F)` (R134). -/
def leafTrees (freq : Vector Count 256) : List HTree :=
  (liveEntries freq).foldl (fun q e => insertTree (.leaf e.1 e.2.toNat) q) []

/-- `merge(q)`, for at most `k` merges (R134). -/
def mergeTrees : Nat → List HTree → Option HTree
  | 0, _ => none
  | k + 1, q =>
    match q.reverse with
    | [] => none
    | [x] => some x
    | z :: a :: front => mergeTrees k (insertTree (.two a z (treeFreq a + treeFreq z)) front.reverse)

/-- `tree(F)`; none for the all-zero table, where it is undefined (R134). -/
def treeOf (freq : Vector Count 256) : Option HTree :=
  match leafTrees freq with
  | [x] => some (.one x (treeFreq x))
  | q => mergeTrees q.length q

/-- `code(t, x)`: the edge bits from the root to the leaf of `x`, 0 into `l` and 1 into `r` (R134). -/
def treeCode : HTree → Symbol → Option (List Bool)
  | .leaf y _, x => if y = x then some [] else none
  | .two l r _, x =>
    match treeCode l x with
    | some bits => some (false :: bits)
    | none => (treeCode r x).map (true :: ·)
  | .one l _, x => (treeCode l x).map (false :: ·)

/-- The symbol a bit string leads to from the root, and the bits left over; none when the string ends first or leads
to the missing child of the one-leaf tree (R132, R161). -/
def treeDecode : HTree → List Bool → Option (Symbol × List Bool)
  | .leaf x _, bits => some (x, bits)
  | .two _ _ _, [] => none
  | .two l _ _, false :: bits => treeDecode l bits
  | .two _ r _, true :: bits => treeDecode r bits
  | .one _ _, [] => none
  | .one l _, false :: bits => treeDecode l bits
  | .one _ _, true :: _ => none

/-- Where a walk from the root faults on a bit string: the bits end, or the missing child of the one-leaf tree is
selected; none when a leaf is reached (R161, R171). -/
def treeFault : HTree → List Bool → Option Cause
  | .leaf _ _, _ => none
  | .two _ _ _, [] => some .inUnderrun
  | .two l _ _, false :: bits => treeFault l bits
  | .two _ r _, true :: bits => treeFault r bits
  | .one _ _, [] => some .inUnderrun
  | .one l _, false :: bits => treeFault l bits
  | .one _ _, true :: _ => some .nullChild

/-- The table with one occurrence of `x` counted off (R113). -/
def countDown (freq : Vector Count 256) (x : Symbol) : Vector Count 256 :=
  freq.set x.toNat (freq[x.toNat]'x.isLt - 1#64) x.isLt

/-- The encode loop on values: for each symbol the code in the tree of the current table, then the symbol is counted off
(R170, R173). None when a symbol has no code. -/
def encodeSymbols : Vector Count 256 → List Symbol → Option (List Bool)
  | _, [] => some []
  | freq, x :: xs =>
    match treeOf freq with
    | none => none
    | some t =>
      match treeCode t x, encodeSymbols (countDown freq x) xs with
      | some c, some bits => some (c ++ bits)
      | _, _ => none

/-- The decode loop on values, for `n` symbols: the symbol the bits lead to in the tree of the current table, then it is
counted off (R171, R172). None when the bits end or lead to the missing child first. -/
def decodeSymbols : Nat → Vector Count 256 → List Bool → Option (List Symbol × List Bool)
  | 0, _, bits => some ([], bits)
  | n + 1, freq, bits =>
    match treeOf freq with
    | none => none
    | some t =>
      match treeDecode t bits with
      | none => none
      | some (x, rest) =>
        match decodeSymbols n (countDown freq x) rest with
        | none => none
        | some (xs, rest) => some (x :: xs, rest)

/-- The fault of the first of `n` turns that does not decode a symbol (R172); none when every turn does. -/
def symbolsFault : Nat → Vector Count 256 → List Bool → Option Cause
  | 0, _, _ => none
  | n + 1, freq, bits =>
    match treeOf freq with
    | none => none
    | some t =>
      match treeDecode t bits with
      | none => treeFault t bits
      | some (x, rest) => symbolsFault n (countDown freq x) rest

/-- The record of a leaf with parent link `p` (R34, R123). -/
def leafRecord (x : Symbol) (f : Nat) (p : NodeIx) : Node :=
  { tag := .leaf, sym := x, freq := BitVec.ofNat 72 f, parent := p, left := Config.null, right := Config.null }

/-- The record of an internal node with parent link `p` and children `a`, `z` (R34, R125). -/
def innerRecord (f : Nat) (p a z : NodeIx) : Node :=
  { tag := .internal, sym := 0#8, freq := BitVec.ofNat 72 f, parent := p, left := a, right := z }

/-- The subtree in slot `n`, whose parent link is `p`, is the value `t`: record by record as R34 and R120 lay it out. -/
def Represents (nodes : Vector Node 511) : NodeIx → NodeIx → HTree → Prop
  | n, p, .leaf x f => n = leafSlot x ∧ nodeAt nodes n = some (leafRecord x f p)
  | n, p, .two l r f =>
    ∃ a z, nodeAt nodes n = some (innerRecord f p a z) ∧ 256 ≤ n.toNat ∧ a ≠ Config.null ∧ z ≠ Config.null ∧
      Represents nodes a n l ∧ Represents nodes z n r
  | n, p, .one l f =>
    ∃ a, nodeAt nodes n = some (innerRecord f p a Config.null) ∧ 256 ≤ n.toNat ∧ a ≠ Config.null ∧
      Represents nodes a n l

end Sys2Proof.Machine
end

