-- ==== Sys2Proof/Safety.lean ====
section
/-!
DEFINITION. What holds in a safe state of the block, in the terms the statements use: the counters (spec 10_state.md
R32), the registers' ranges (R21, R26, R37, R38), the tree while `TV = 1` (R44), and their conjunction `Inv`.
-/

namespace Sys2Proof.Machine

/-- The sum of all 256 counts (R32). -/
def sumOfCounts (freq : Vector Count 256) : Nat := (freq.toList.map BitVec.toNat).sum

/-- The number of live symbols (R12, R32). -/
def liveCount (freq : Vector Count 256) : Nat := freq.toList.countP fun v => decide (v ≠ 0#64)

/-- R32: `TOTAL` is the sum of the counts, `LIVE` the number of live symbols. -/
abbrev CountsOk (s : State) : Prop :=
  s.total.toNat = sumOfCounts s.freq ∧ s.live.toNat = liveCount s.freq

/-- R37, R150: `FREE ≤ 8` and `PBUF[FREE-1:0]` is zero. -/
abbrev PackerOk (s : State) : Prop := s.free.toNat ≤ 8 ∧ s.pbuf.toNat % 2 ^ s.free.toNat = 0

/-- R38: `UCNT ≤ 8`. -/
abbrev UnpackerOk (s : State) : Prop := s.ucnt.toNat ≤ 8

/-- R21: `CODE[254:CLEN]` is zero. -/
abbrev CodeOk (s : State) : Prop := s.code.toNat < 2 ^ s.clen.toNat

/-- R26, R191: with `FAULT = 0`, `FCODE` is 0 (and so is `FINFO`, R29); with `FAULT = 1` it is one of the eight codes. -/
abbrev FaultOk (s : State) : Prop :=
  if s.fault then 1 ≤ s.fcode.toNat ∧ s.fcode.toNat ≤ 8 else s.fcode = 0#8 ∧ s.finfo = 0#16

/-- R24: the position stands in the command list or at its end. -/
abbrev IndexOk (s : State) : Prop := s.cmdIx ≤ s.cmds.length

/-- The slot `k` parent links above slot `n` (R131). -/
def ancestor (nodes : Vector Node 511) : Nat → NodeIx → Option NodeIx
  | 0, n => some n
  | k + 1, n =>
    match nodeAt nodes n with
    | none => none
    | some nd => if nd.parent = Config.null then none else ancestor nodes k nd.parent

/-- The slot reached from `n` by the child links a bit string selects, 0 left and 1 right (R10). -/
def walkDown (nodes : Vector Node 511) : NodeIx → List Bool → Option NodeIx
  | n, [] => some n
  | n, b :: bits =>
    match nodeAt nodes n with
    | none => none
    | some nd =>
      let c := if b then nd.right else nd.left
      if c = Config.null then none else walkDown nodes c bits

/-- R44 item 1: `ROOT` is the last internal slot, internal, without parent. -/
def RootOk (s : State) : Prop :=
  s.root.toNat = 255 + s.nint.toNat ∧
    ∃ nd, nodeAt s.nodes s.root = some nd ∧ nd.tag = .internal ∧ nd.parent = Config.null

/-- R27, R44 item 2: `LEAFV[x] = 1` exactly when `F[x] ≠ 0`; then slot `x` is the leaf of `x`, and `ROOT` is 1 to 255
parent links above it. -/
def LeafOk (s : State) (x : Symbol) : Prop :=
  (leafValid s x = true ↔ freqOf s x ≠ 0#64) ∧
    (leafValid s x = true →
      (∃ p, nodeAt s.nodes (leafSlot x) = some { leafNode x (freqOf s x) with parent := p }) ∧
        ∃ k, 1 ≤ k ∧ k ≤ 255 ∧ ancestor s.nodes k (leafSlot x) = some s.root)

/-- R44 item 3: an internal slot has a left child that links back to it, and either a right child that links back to
it, its frequency their sum, or it is the one-leaf parent, its frequency its child's. -/
def InternalOk (s : State) (p : NodeIx) : Prop :=
  ∃ nd l, nodeAt s.nodes p = some nd ∧ nd.tag = .internal ∧ nd.sym = 0#8 ∧ nd.left ≠ Config.null ∧
    nodeAt s.nodes nd.left = some l ∧ l.parent = p ∧
    ((nd.right ≠ Config.null ∧ ∃ r, nodeAt s.nodes nd.right = some r ∧ r.parent = p ∧
        nd.freq.toNat = l.freq.toNat + r.freq.toNat) ∨
      (s.nleaf = 1#9 ∧ p = 256#9 ∧ s.root = 256#9 ∧ nd.right = Config.null ∧ nd.freq = l.freq))

/-- A slot that a build of the table with `NINT` internal nodes writes (R128). -/
def SlotWritten (s : State) (n : NodeIx) : Prop :=
  (∃ x, freqOf s x ≠ 0#64 ∧ n = leafSlot x) ∨ (256 ≤ n.toNat ∧ n.toNat < 256 + s.nint.toNat)

/-- What `TV = 1` says (R26, R27): the arena, `LEAFV`, `ROOT`, `NLEAF`, `NINT` are what a build of the current contents
of `F` makes, and the cursor stands in the tree (R44 item 6). R44's items follow from it. -/
structure TreeOk (s : State) : Prop where
  some_live : liveCount s.freq ≠ 0
  arena_eq  : ∀ n, SlotWritten s n → nodeAt s.nodes n = nodeAt (buildArena s).nodes n
  leafv_eq  : s.leafv = (buildArena s).leafv
  nleaf_eq  : s.nleaf.toNat = liveCount s.freq
  nint_eq   : s.nint = (buildArena s).nint
  root_eq   : s.root = rootOf s (buildArena s)
  cur_ok    : ∃ path, walkDown s.nodes s.root path = some s.cur

/-- The invariant of the block: R21, R26, R32, R37, R38, and R44 while `TV = 1`. -/
structure Inv (s : State) : Prop where
  counts   : CountsOk s
  packer   : PackerOk s
  unpacker : UnpackerOk s
  code     : CodeOk s
  fault    : FaultOk s
  tree     : s.tv = true → TreeOk s

/-- The bits the unpacker will deliver, in order: those left in `UBUF`, then those of `IN`, bit 7 of a byte first
(R38, R61, R72). -/
def byteBits (b : Byte) : List Bool := (List.range 8).map fun i => b.getLsbD (7 - i)

/-- The bits still to be delivered by `GetBit` (R160). -/
def inputBits (s : State) : List Bool := (byteBits s.ubuf).take s.ucnt.toNat ++ s.inp.flatMap byteBits

/-- The bits packed so far: the bytes of `OUT`, then `PBUF[7:FREE]`, bit 7 of a byte first (R72, R154). -/
def packedBits (s : State) : List Bool := s.out.flatMap byteBits ++ (byteBits s.pbuf).take (8 - s.free.toNat)

/-- The code in `CODE`/`CLEN`, its first transmitted bit first: `CODE[CLEN-1]` down to `CODE[0]` (R21, R62). -/
def codeBits (s : State) : List Bool := (List.range s.clen.toNat).map fun i => s.code.getLsbD (s.clen.toNat - 1 - i)

/-- A reserved opcode (R97). -/
abbrev ReservedOpcode (n : Nat) : Prop :=
  n = 0x00 ∨ (0x06 ≤ n ∧ n ≤ 0x0F) ∨ (0x16 ≤ n ∧ n ≤ 0x1F) ∨ (0x23 ≤ n ∧ n ≤ 0xFF)

/-- `c` is the code of symbol `x` in the tree of the table `freq` (R134). -/
def IsCode (freq : Vector Count 256) (x : Symbol) (c : List Bool) : Prop :=
  ∃ h, treeOf freq = some h ∧ treeCode h x = some c

/-- What `SetF(x, v)` does (R110), on numbers: the entry, the two counters, the tree discarded, nothing else. -/
structure WritesCount (s : State) (x : Symbol) (v : Count) (t : State) : Prop where
  frame : t = { s with freq := t.freq, total := t.total, live := t.live, tv := false }
  entry : ∀ y, freqOf t y = if y = x then v else freqOf s y
  total : t.total.toNat + (freqOf s x).toNat = s.total.toNat + v.toNat
  live  : t.live.toNat + (if freqOf s x = 0#64 then 0 else 1) = s.live.toNat + (if v = 0#64 then 0 else 1)

/-- The row of R191 for each cause: the command that raises it, its condition, and its information value; `s` before,
`t` after. (`IllegalCmd` is raised by words that are no command. "A bit is wanted" where `CUR` is on an internal node;
the bit of `NullChild` is the last one the command took, its only one for `STEP`.) -/
def FaultRow (i : Instr) (s t : State) : Cause → Prop
  | .illegalCmd => False
  | .emptyBuild => (i = .build ∨ (∃ x, i = .enc x) ∨ i = .dec) ∧ s.live = 0#9 ∧ t.finfo = 0#16
  | .noTree => ((∃ x, i = .xcode x) ∨ i = .step ∨ i = .emit) ∧ s.tv = false ∧ t.finfo = 0#16
  | .absentSymbol => ∃ x, t.finfo = x.setWidth 16 ∧
      (((i = .fdec x ∨ i = .enc x) ∧ freqOf s x = 0#64) ∨ (i = .xcode x ∧ leafValid s x = false))
  | .freqOverflow => ∃ x, i = .finc x ∧ (freqOf s x).toNat = 2 ^ 64 - 1 ∧ t.finfo = x.setWidth 16
  | .inUnderrun => (i = .step ∨ i = .dec ∨ i = .drun) ∧ t.ucnt = 0#4 ∧ t.inp = [] ∧ t.finfo = 0#16 ∧
      ∃ nd, nodeAt t.nodes t.cur = some nd ∧ nd.tag = .internal
  | .nullChild => (i = .step ∨ i = .dec ∨ i = .drun) ∧ t.finfo = t.cur.setWidth 16 ∧
      ∃ nd taken bit, nodeAt t.nodes t.cur = some nd ∧ nd.tag = .internal ∧
        inputBits s = taken ++ bit :: inputBits t ∧ (i = .step → taken = []) ∧
        (if bit then nd.right else nd.left) = Config.null
  | .badCursor => t.finfo = s.cur.setWidth 16 ∧ ∃ nd, nodeAt s.nodes s.cur = some nd ∧
      ((i = .step ∧ nd.tag = .leaf) ∨ (i = .emit ∧ nd.tag = .internal))

/-- R194: the first of a command's own tests that fails, in the order the rule lists them; none when it completes. -/
def firstFault (i : Instr) (s : State) : Option Cause :=
  match i with
  | .clr => none
  | .fld _ _ => none
  | .finc x => if (freqOf s x).toNat = 2 ^ 64 - 1 then some .freqOverflow else none
  | .fdec x => if freqOf s x = 0#64 then some .absentSymbol else none
  | .frd _ => none
  | .build => if s.live = 0#9 then some .emptyBuild else none
  | .xcode x =>
    if s.tv = false then some .noTree
    else if leafValid s x = false then some .absentSymbol
    else none
  | .pack => none
  | .flush => none
  | .step =>
    if s.tv = false then some .noTree
    else
      match nodeAt s.nodes s.cur with
      | none => none
      | some nd =>
        if nd.tag = .leaf then some .badCursor
        else
          match inputBits s with
          | [] => some .inUnderrun
          | bit :: _ => if (if bit then nd.right else nd.left) = Config.null then some .nullChild else none
  | .emit =>
    if s.tv = false then some .noTree
    else if (nodeAt s.nodes s.cur).any (·.tag == .internal) then some .badCursor
    else none
  | .enc x =>
    if s.live = 0#9 then some .emptyBuild
    else if freqOf s x = 0#64 then some .absentSymbol
    else none
  | .dec =>
    if s.live = 0#9 then some .emptyBuild
    else
      match treeOf s.freq with
      | none => none
      | some h => treeFault h (inputBits s)
  | .drun => symbolsFault s.total.toNat s.freq (inputBits s)

/-- R44 item 3 as a whole: every internal slot a build made is right. -/
def InternalsOk (s : State) : Prop := ∀ p : NodeIx, 256 ≤ p.toNat → p.toNat < 256 + s.nint.toNat → InternalOk s p

/-! ### What a command may write: every field not named is unchanged -/

/-- All that `BUILD` may write (R120, R133). -/
def BuildFrame (s t : State) : Prop :=
  t = { s with nodes := t.nodes, leafv := t.leafv, root := t.root, cur := t.cur, nleaf := t.nleaf, nint := t.nint,
               tv := t.tv }

/-- A fault raised before the first write: only its three registers differ (R197). -/
def FaultFrame (s t : State) : Prop := t = { s with fault := t.fault, fcode := t.fcode, finfo := t.finfo }

/-- All that `STEP` and loop (b) of `DEC` may write when they complete: the cursor and the unpacker's side of `IN`
(R161). -/
def WalkFrame (s t : State) : Prop := t = { s with cur := t.cur, ubuf := t.ubuf, ucnt := t.ucnt, inp := t.inp }

/-- All that `ENC` may write when it completes (R170). -/
def EncodeFrame (s t : State) : Prop :=
  t = { s with nodes := t.nodes, leafv := t.leafv, root := t.root, cur := t.cur, nleaf := t.nleaf, nint := t.nint,
               tv := t.tv, code := t.code, clen := t.clen, pbuf := t.pbuf, free := t.free, out := t.out,
               freq := t.freq, total := t.total, live := t.live }

/-- All that `DEC` and `DRUN` may write when they complete (R171, R172). -/
def DecodeFrame (s t : State) : Prop :=
  t = { s with nodes := t.nodes, leafv := t.leafv, root := t.root, cur := t.cur, nleaf := t.nleaf, nint := t.nint,
               tv := t.tv, ubuf := t.ubuf, ucnt := t.ucnt, inp := t.inp, sym := t.sym, sout := t.sout,
               freq := t.freq, total := t.total, live := t.live }

end Sys2Proof.Machine
end

