-- ==== Sys2Proof/Certificates/Slice0/Obligations.lean ====
section
/-!
DEFINITION. The statements for the provers, each from the numbered rules of spec/ that its docstring names. A statement
over every state takes `Inv`, or the part of it that it needs, as a premise where it could fail in states no run
reaches; that `Inv` holds at reset and that every step keeps it are statements of their own.
-/

open Sys2Proof Sys2Proof.Machine

/-! ### Encoding (30_encoding.md) -/

/-- Every command is well formed, and its word decodes to it: no bit of an operand is dropped (R91, R96). -/
def Obligations.DecodeOfEncode : Prop := ∀ i : Instr, WellFormed i = true ∧ decode (encode i) = .ok i

/-- A word that decodes is the word of the command it decodes to: each command has one word (R91 to R96). -/
def Obligations.EncodeOfDecode : Prop := ∀ (w : CommandWord) (i : Instr), decode w = .ok i → encode i = w

/-- R94, R95: a word is the command of a row exactly when `w AND mask = match`; the masks and matches are R95's; no word
satisfies two rows; a word that satisfies none is illegal. A row is named by its opcode. -/
def Obligations.DecodeByMaskAndMatch : Prop :=
  Format.z.mask = 0xFFFFFFFFFFFFFFFFFFFF#80 ∧ Format.s.mask = 0xFF00FFFFFFFFFFFFFFFF#80 ∧
  Format.si.mask = 0xFF000000000000000000#80 ∧
  (∀ i : Instr, i.matchWord.toNat = i.opcode.toNat * 2 ^ 72) ∧
  (∀ (w : CommandWord) (i : Instr),
    w &&& i.format.mask = i.matchWord ↔ ∃ j, decode w = .ok j ∧ j.opcode = i.opcode) ∧
  (∀ (w : CommandWord) (i j : Instr), w &&& i.format.mask = i.matchWord → w &&& j.format.mask = j.matchWord →
    i.opcode = j.opcode) ∧
  (∀ w : CommandWord, (∀ i : Instr, w &&& i.format.mask ≠ i.matchWord) → ∃ e, decode w = .error e)

/-- R97, R98: the reserved opcodes are the 242 values listed; a word with one, or with a must-be-zero field that is not
zero, is illegal and raises `IllegalCmd` with its opcode; the all-zero word is illegal. -/
def Obligations.IllegalWordsFault : Prop :=
  (∀ w : CommandWord, decode w = .error (.reservedOpcode (opField w)) ↔ ReservedOpcode (opField w).toNat) ∧
  (∀ (w : CommandWord) (i : Instr), opField w = i.opcode →
    i.format.zeroFieldsOk (symField w).toNat (immField w).toNat = false →
    decode w = .error (.nonzeroField (opField w))) ∧
  ((List.range 256).countP fun n => decide (ReservedOpcode n)) = 242 ∧
  (∃ e, decode 0#80 = .error e) ∧
  (∀ (w : CommandWord) (e : DecodeError) (s : State), decode w = .error e → s.fault = false →
    runWord w s = .next { s with fault := true, fcode := 0x01#8, finfo := (opField w).setWidth 16 })

/-- Words written out from R91 and R96 decode to the commands they stand for. -/
def Obligations.SampleWordsDecode : Prop :=
  decode 0x02610000000000000003#80 = .ok (.fld 0x61#8 3#64) ∧ decode 0x20620000000000000000#80 = .ok (.enc 0x62#8) ∧
  decode 0x10000000000000000000#80 = .ok .build ∧ decode 0x03FF0000000000000000#80 = .ok (.finc 0xFF#8) ∧
  decode 0x11800000000000000000#80 = .ok (.xcode 0x80#8) ∧ decode 0x14000000000000000000#80 = .ok .step ∧
  decode 0x12000000000000000000#80 = .ok .pack ∧ decode 0x01000000000000000000#80 = .ok .clr

/-! ### One step, the command list, the fault state (10_state.md R24; 60_exceptions.md) -/

/-- R24: when the word at the position decodes to a command, a step is that command's execution with the position
advanced by one; an illegal word likewise; with no word left the core is idle and holds its state (R210, R221; that an
idle step is a step is the model's choice, log entry 1). A word placed for the next fetch is the word fetched (log
entry 1). -/
def Obligations.StepRunsTheFetchedWord : Prop :=
  (∀ (s : State) (w : CommandWord) (i : Instr), s.cmds[s.cmdIx]? = some w → decode w = .ok i →
    step s = exec i { s with cmdIx := s.cmdIx + 1 }) ∧
  (∀ (s : State) (w : CommandWord) (e : DecodeError), s.cmds[s.cmdIx]? = some w → decode w = .error e →
    step s = execIllegal w { s with cmdIx := s.cmdIx + 1 }) ∧
  (∀ s : State, s.cmds.length ≤ s.cmdIx → step s = .next s) ∧
  (∀ (s : State) (nbits w : Nat),
    (s.withFetchWord nbits w).cmds[(s.withFetchWord nbits w).cmdIx]? = some (tableWord nbits w))

/-- R24: the word at the position is the one executed; the position advances by exactly one after every command,
whether it completed, faulted or was refused, and nothing else changes it or the list. That with no word left the
position is kept, and so never leaves the list, is the model's idle step (log entry 1, DEDUCED from R210 and R221). -/
def Obligations.PositionAdvancesByOne : Prop :=
  (∀ (s t : State) (w : CommandWord), s.cmds[s.cmdIx]? = some w → step s = .next t →
    runWord w { s with cmdIx := s.cmdIx + 1 } = .next t) ∧
  (∀ s t : State, step s = .next t →
    t.cmds = s.cmds ∧ t.cmdIx = (if s.cmdIx < s.cmds.length then s.cmdIx + 1 else s.cmdIx) ∧
      (IndexOk s → IndexOk t)) ∧
  (∀ (i : Instr) (s t : State), exec i s = .next t → t.cmds = s.cmds ∧ t.cmdIx = s.cmdIx)

/-- R198, R200: while `FAULT = 1` every word but a legal `CLR` is refused and changes no state at all, illegal words
included; the only exits from the fault state are `CLR` and hardware reset, and both discard the whole coding run. That
hardware reset keeps the host's list, its position, `IN`, the arena and `LEAFV` is the model's choice (log entry 9). -/
def Obligations.FaultStateRefuses : Prop :=
  (∀ (w : CommandWord) (s : State), s.fault = true → decode w ≠ .ok .clr → runWord w s = .next s) ∧
  (∀ s t : State, s.fault = true → step s = .next t → t.fault = false →
    ∃ w, s.cmds[s.cmdIx]? = some w ∧ decode w = .ok .clr ∧
      t = { State.reset with cmds := s.cmds, cmdIx := s.cmdIx + 1, nodes := s.nodes, leafv := s.leafv, inp := s.inp,
                             out := s.out, sout := s.sout }) ∧
  (∀ s : State, hardwareReset s = { State.reset with cmds := s.cmds, cmdIx := s.cmdIx, nodes := s.nodes,
                                                     leafv := s.leafv, inp := s.inp })

/-- R191, R196: a raise writes the three fault registers and ends the command; every fault a command records has its
code, was raised by a command of its row, under that row's condition (for `NullChild`: the bit just taken selects a
`NULL` link of the node under `CUR`), with that row's information value; with no fault recorded code and information are
0; an illegal word records `IllegalCmd` with its opcode. -/
def Obligations.FaultsFollowTheTable : Prop :=
  (∀ (c : Cause) (info : BitVec 16) (s : State) (k : State → Result),
    raise c info s = .raised { s with fault := true, fcode := causeCode c, finfo := info } ∧
    (raise c info s).andThen k = raise c info s) ∧
  (causeCode .illegalCmd = 0x01#8 ∧ causeCode .emptyBuild = 0x02#8 ∧ causeCode .noTree = 0x03#8 ∧
    causeCode .absentSymbol = 0x04#8 ∧ causeCode .freqOverflow = 0x05#8 ∧ causeCode .inUnderrun = 0x06#8 ∧
    causeCode .nullChild = 0x07#8 ∧ causeCode .badCursor = 0x08#8) ∧
  (∀ (i : Instr) (s t : State), Inv s → s.fault = false → exec i s = .next t → t.fault = true →
    ∃ c, t.fcode = causeCode c ∧ FaultRow i s t c) ∧
  (∀ (i : Instr) (s t : State), Inv s → exec i s = .next t → t.fault = false → t.fcode = 0x00#8 ∧ t.finfo = 0#16) ∧
  (∀ (w : CommandWord) (e : DecodeError) (s t : State), decode w = .error e → s.fault = false →
    runWord w s = .next t → t.fcode = 0x01#8 ∧ t.finfo = (opField w).setWidth 16)

/-- R194: a word is refused first; then an illegal word faults; then the command's own tests are made in the order of
`firstFault`, at most one fault is raised, and it is that of the first test that fails. -/
def Obligations.FirstFaultIsRaised : Prop :=
  (∀ (w : CommandWord) (s : State), s.fault = true → decode w ≠ .ok .clr → runWord w s = .next s) ∧
  (∀ (w : CommandWord) (e : DecodeError) (s : State), s.fault = false → decode w = .error e →
    ∃ t, runWord w s = .next t ∧ t.fault = true ∧ t.fcode = 0x01#8) ∧
  (∀ (i : Instr) (s : State), Inv s → s.fault = false →
    ∃ t, exec i s = .next t ∧ (firstFault i s = none → t.fault = false) ∧
      ∀ c, firstFault i s = some c → t.fault = true ∧ t.fcode = causeCode c)

/-- R197 (marked derived), the rows that say "nothing": a fault of any command but `DEC` and `DRUN`, and but the
`NullChild` of `STEP`, and the `EmptyBuild` of `DEC`, has changed nothing but the three fault registers. -/
def Obligations.FaultsBeforeTheFirstWrite : Prop :=
  ∀ (i : Instr) (s t : State), Inv s → s.fault = false → exec i s = .next t → t.fault = true →
    (i ≠ .dec ∨ t.fcode = 0x02#8) → i ≠ .drun → ¬(i = .step ∧ t.fcode = 0x07#8) → FaultFrame s t

/-- R197 (marked derived), the rows of `DEC` (for a table with a live symbol): the `BUILD` is done, the `STEP`s that
completed moved the cursor along the bits of `path` and consumed them, `NullChild` consumed the selecting bit as well,
and nothing else changed. -/
def Obligations.DecFaultLeavesTheWalk : Prop :=
  ∀ s t : State, Inv s → s.fault = false → s.live ≠ 0#9 → exec .dec s = .next t → t.fault = true →
    ∃ (u : State) (path : List Bool), exec .build s = .next u ∧ u.fault = false ∧ u.tv = true ∧
      t = { u with cur := t.cur, ubuf := t.ubuf, ucnt := t.ucnt, inp := t.inp, fault := true, fcode := t.fcode,
                   finfo := t.finfo } ∧
      walkDown u.nodes u.root path = some t.cur ∧
      ((t.fcode = 0x06#8 ∧ t.finfo = 0#16 ∧ inputBits s = path ∧ inputBits t = []) ∨
        (t.fcode = 0x07#8 ∧ t.finfo = t.cur.setWidth 16 ∧ inputBits s = path ++ true :: inputBits t))

/-- R197 (marked derived), the rows of `DRUN`: every completed turn has taken full effect, and the fault is that of the
turn in progress. -/
def Obligations.DrunFaultIsThatOfATurn : Prop :=
  ∀ s t : State, Inv s → s.fault = false → exec .drun s = .next t → t.fault = true →
    ∃ (k : Nat) (u : State), execAll (List.replicate k .dec) s = .next u ∧ u.fault = false ∧
      u.total.toNat + k = s.total.toNat ∧ u.sout.length = s.sout.length + k ∧ exec .dec u = .next t ∧
      (t.fcode = 0x06#8 ∨ t.fcode = 0x07#8)

/-! ### Reset, CLR and the status register (70_reset_and_hazards.md, 46_system.md, 10_state.md) -/

/-- R220: the values hardware reset gives. (The arena and `LEAFV` are unspecified and no value of them is stated; the
command list, its position and `IN` are the host's, log entries 1 and 2.) -/
def Obligations.ResetValues : Prop :=
  (∀ x, freqOf State.reset x = 0#64) ∧ State.reset.live = 0#9 ∧ State.reset.total = 0#72 ∧
  status State.reset = 0x0002#16 ∧ State.reset.finfo = 0#16 ∧ State.reset.root = 511#9 ∧ State.reset.cur = 511#9 ∧
  State.reset.nleaf = 0#9 ∧ State.reset.nint = 0#9 ∧ State.reset.code = 0#255 ∧ State.reset.clen = 0#8 ∧
  State.reset.sym = 0#8 ∧ State.reset.res = 0#64 ∧ State.reset.pbuf = 0#8 ∧ State.reset.free = 8#4 ∧
  State.reset.ubuf = 0#8 ∧ State.reset.ucnt = 0#4 ∧ State.reset.out = [] ∧ State.reset.sout = []

/-- R180, R222: `CLR` completes in every state, the fault state included; every item of R20 has its reset value, the
arena and `LEAFV` are not cleared, bytes pushed or not yet taken stay, and directly after reset it changes nothing.
Hardware reset has the same effect on the block's state, and empties `OUT` and `SOUT` as well; that it keeps the host's
list, its position, `IN`, the arena and `LEAFV` is the model's choice (log entry 9). -/
def Obligations.ClrResetsTheBlock : Prop :=
  (∀ s : State, ∃ t, exec .clr s = .next t ∧ status t = 0x0002#16 ∧
    t = { State.reset with cmds := s.cmds, cmdIx := s.cmdIx, nodes := s.nodes, leafv := s.leafv, inp := s.inp,
                           out := s.out, sout := s.sout } ∧
    hardwareReset s = { t with out := [], sout := [] }) ∧
  exec .clr State.reset = .next State.reset

/-- R26: the fields of `STATUS`, its reset value, and that `FAULT`, once 1, stays 1 until `CLR` or hardware reset (the
reset input is `hardwareReset`, no step). -/
def Obligations.StatusFields : Prop :=
  (∀ s : State, Inv s →
    (status s).getLsbD 0 = s.tv ∧
    ((status s).getLsbD 1 = true ↔ s.total.toNat = 0) ∧
    (status s).getLsbD 2 = s.fault ∧
    ((status s).getLsbD 3 = true ↔ s.free.toNat < 8) ∧
    ((status s).getLsbD 4 = true ↔ s.tv = true ∧ ∃ nd, nodeAt s.nodes s.cur = some nd ∧ nd.tag = .leaf) ∧
    (status s).extractLsb' 5 3 = 0#3 ∧ (status s).extractLsb' 8 8 = s.fcode ∧
    (s.fault = false → s.fcode = 0#8) ∧ (s.tv = true → TreeOk s)) ∧
  status State.reset = 0x0002#16 ∧
  (∀ s t : State, s.fault = true → step s = .next t →
    t.fault = true ∨ ∃ w, s.cmds[s.cmdIx]? = some w ∧ decode w = .ok .clr)

/-- R27: `TV` is set only by a `BUILD` that completes (alone, or inside a `DEC` or `DRUN` that faulted after it), and
every write of an entry of `F`, and `CLR`, leaves it 0 (unless a later turn of a `DRUN` that faulted built again). -/
def Obligations.TreeValidOnlyByBuild : Prop :=
  (∀ (i : Instr) (s t : State), Inv s → exec i s = .next t → s.tv = false → t.tv = true →
    i = .build ∨ ((i = .dec ∨ i = .drun) ∧ t.fault = true)) ∧
  (∀ (i : Instr) (s t : State), Inv s → exec i s = .next t → t.freq ≠ s.freq → t.tv = true →
    i = .drun ∧ t.fault = true) ∧
  (∀ (i : Instr) (s t : State), Inv s → exec i s = .next t → s.fault = false → t.fault = false →
    (i = .clr ∨ (∃ x v, i = .fld x v) ∨ (∃ x, i = .finc x) ∨ (∃ x, i = .fdec x) ∨ i = .emit ∨ (∃ x, i = .enc x) ∨
      i = .dec ∨ i = .drun) → t.tv = false) ∧
  (∀ (s t : State), Inv s → exec .build s = .next t → s.fault = false → t.fault = false → t.tv = true)

/-! ### Invariants and rules of the whole machine -/

/-- The invariant holds after reset (R220; R32, R44, R150, all marked derived). -/
def Obligations.ResetMeetsTheInvariant : Prop := Inv State.reset

/-- Every step keeps the invariant: R32 and R150 after every command, faulted or not, R44 while `TV = 1` (all three are
marked derived). -/
def Obligations.StepKeepsTheInvariant : Prop := ∀ s t : State, Inv s → step s = .next t → Inv t

/-- R32 (marked derived): the counters stay true whatever else the state holds, and `LIVE = 0` exactly when `TOTAL = 0`.
-/
def Obligations.StepKeepsTheCounters : Prop :=
  (∀ s t : State, CountsOk s → step s = .next t → CountsOk t) ∧
  (∀ s : State, CountsOk s → (s.live = 0#9 ↔ s.total = 0#72))

/-- R201 (marked derived): no command is stuck: in a state of the invariant every step answers a next state (completed,
faulted or refused), and in no state at all is a command rejected or a loop cut short by the model's bound (log entry
7). -/
def Obligations.NoCommandIsStuck : Prop :=
  (∀ s : State, Inv s → ∃ t, step s = .next t) ∧
  (∀ (i : Instr) (s : State), exec i s ≠ .fault .loopBound ∧ ∀ r, exec i s ≠ .refused r)

/-- R39: `IN` is taken from its front, only by `STEP`, `DEC`, `DRUN`; `OUT` and `SOUT` are append-only, `CLR` included;
both start empty. -/
def Obligations.StreamsAreAppendOnly : Prop :=
  (∀ s t : State, step s = .next t → t.inp <:+ s.inp ∧ s.out <+: t.out ∧ s.sout <+: t.sout) ∧
  (∀ (i : Instr) (s t : State), exec i s = .next t → t.inp ≠ s.inp → i = .step ∨ i = .dec ∨ i = .drun) ∧
  State.reset.out = [] ∧ State.reset.sout = []

/-- R20, the column "written by": what each command may change, in every state. Commands are named by opcode (R96). -/
def Obligations.OnlyTheListedCommandsWrite : Prop :=
  ∀ (i : Instr) (s t : State), exec i s = .next t →
    (t.freq ≠ s.freq ∨ t.live ≠ s.live ∨ t.total ≠ s.total →
      i.opcode ∈ [0x01#8, 0x02#8, 0x03#8, 0x04#8, 0x15#8, 0x20#8, 0x21#8, 0x22#8]) ∧
    (t.fault ≠ s.fault ∨ t.fcode ≠ s.fcode ∨ t.finfo ≠ s.finfo →
      i = .clr ∨ (s.fault = false ∧ t.fault = true)) ∧
    (t.nodes ≠ s.nodes ∨ t.leafv ≠ s.leafv → i.opcode ∈ [0x10#8, 0x20#8, 0x21#8, 0x22#8]) ∧
    (t.root ≠ s.root ∨ t.nleaf ≠ s.nleaf ∨ t.nint ≠ s.nint → i.opcode ∈ [0x01#8, 0x10#8, 0x20#8, 0x21#8, 0x22#8]) ∧
    (t.cur ≠ s.cur → i.opcode ∈ [0x01#8, 0x10#8, 0x14#8, 0x20#8, 0x21#8, 0x22#8]) ∧
    (t.code ≠ s.code ∨ t.clen ≠ s.clen → i.opcode ∈ [0x01#8, 0x11#8, 0x20#8]) ∧
    (t.sym ≠ s.sym → i.opcode ∈ [0x01#8, 0x15#8, 0x21#8, 0x22#8]) ∧
    (t.res ≠ s.res → i.opcode ∈ [0x01#8, 0x05#8]) ∧
    (t.pbuf ≠ s.pbuf ∨ t.free ≠ s.free → i.opcode ∈ [0x01#8, 0x12#8, 0x13#8, 0x20#8]) ∧
    (t.ubuf ≠ s.ubuf ∨ t.ucnt ≠ s.ucnt → i.opcode ∈ [0x01#8, 0x14#8, 0x21#8, 0x22#8]) ∧
    (t.out ≠ s.out → i.opcode ∈ [0x12#8, 0x13#8, 0x20#8]) ∧
    (t.sout ≠ s.sout → i.opcode ∈ [0x15#8, 0x21#8, 0x22#8])

/-- R44 (marked derived), all six items, while the tree is valid, the one child of the one-leaf parent (item 5) among
them; and the table is not empty then (R117, likewise). -/
def Obligations.TreeInvariants : Prop :=
  ∀ s : State, Inv s → s.tv = true →
    RootOk s ∧ (∀ x, LeafOk s x) ∧ InternalsOk s ∧
    (∃ nd, nodeAt s.nodes s.root = some nd ∧ nd.freq = s.total) ∧
    (2 ≤ s.nleaf.toNat → s.nint.toNat = s.nleaf.toNat - 1) ∧
    (s.nleaf = 1#9 → s.nint = 1#9 ∧
      ∃ nd, nodeAt s.nodes s.root = some nd ∧ nd.left ≠ Config.null ∧ nd.right = Config.null) ∧
    SlotWritten s s.cur ∧ (∃ path, walkDown s.nodes s.root path = some s.cur) ∧ emptyFlag s = false

/-! ### The frequency table (40_freq_table.md) -/

/-- R110, R111: `FLD` completes and stores exactly the count given; the counters stay exact and the tree is discarded,
even when the value is the one already there. -/
def Obligations.FldLoadsTheEntry : Prop :=
  ∀ (s : State) (x : Symbol) (v : Count), s.fault = false → CountsOk s →
    ∃ t, exec (.fld x v) s = .next t ∧ WritesCount s x v t ∧ CountsOk t

/-- R112: `FINC` adds one to the entry, and at `2^64 - 1` faults and does not wrap. -/
def Obligations.FincCountsOneUp : Prop :=
  ∀ (s : State) (x : Symbol), s.fault = false → CountsOk s →
    ((freqOf s x).toNat = 2 ^ 64 - 1 → exec (.finc x) s = .next (enterFault .freqOverflow (x.setWidth 16) s)) ∧
    ((freqOf s x).toNat ≠ 2 ^ 64 - 1 → ∃ (t : State) (v : Count), exec (.finc x) s = .next t ∧ WritesCount s x v t ∧
      v.toNat = (freqOf s x).toNat + 1 ∧ t.total.toNat = s.total.toNat + 1 ∧ emptyFlag t = false)

/-- R113: `FDEC` takes one off the entry, and at zero faults and does not wrap; `EMPTY` becomes 1 exactly with the last
occurrence of any symbol. -/
def Obligations.FdecCountsOneDown : Prop :=
  ∀ (s : State) (x : Symbol), s.fault = false → CountsOk s →
    (freqOf s x = 0#64 → exec (.fdec x) s = .next (enterFault .absentSymbol (x.setWidth 16) s)) ∧
    (freqOf s x ≠ 0#64 → ∃ (t : State) (v : Count), exec (.fdec x) s = .next t ∧ WritesCount s x v t ∧
      v.toNat + 1 = (freqOf s x).toNat ∧ t.total.toNat + 1 = s.total.toNat ∧
      (emptyFlag t = true ↔ ∀ y, freqOf t y = 0#64))

/-- R114: `FRD` puts the entry into `RES` and changes nothing else; the tree is kept. -/
def Obligations.FrdReadsTheEntry : Prop :=
  ∀ (s : State) (x : Symbol), s.fault = false → exec (.frd x) s = .next { s with res := freqOf s x }

/-- R112, R118: the pre-scan (that the order does not matter is marked derived). `FINC` for every byte of an input of
fewer than `2^64` occurrences each, from a cleared table, completes and gives the table of the input's counts, whatever
the order of the bytes. -/
def Obligations.PreScanCountsTheInput : Prop :=
  ∀ (bytes : List Byte) (s : State), (∀ b, bytes.count b < 2 ^ 64) → s.fault = false → CountsOk s →
    (∀ x, freqOf s x = 0#64) →
    ∃ t, execAll (bytes.map Instr.finc) s = .next t ∧ t.fault = false ∧ t.freq = countTable bytes ∧
      t.total.toNat = bytes.length ∧ CountsOk t

/-! ### The tree builder (41_tree_builder.md) -/

/-- R120 to R125, R134 (marked derived): `BUILD` of a table with a live symbol completes, and its arena represents
`tree(F)`, record by record, from `ROOT` down; the cursor stands at the root; `LEAFV` and `NLEAF` say which and how many
symbols are live; nothing else is written. -/
def Obligations.BuildMakesTheTree : Prop :=
  ∀ s : State, s.fault = false → CountsOk s → s.live ≠ 0#9 →
    ∃ t h, exec .build s = .next t ∧ BuildFrame s t ∧ treeOf s.freq = some h ∧
      Represents t.nodes t.root Config.null h ∧ t.cur = t.root ∧ t.tv = true ∧ atLeafFlag t = false ∧
      t.nleaf = s.live ∧ ∀ x, leafValid t x = true ↔ freqOf s x ≠ 0#64

/-- R133: `BUILD` of the empty table raises `EmptyBuild` before writing anything; `TV` is 0 and stays 0. -/
def Obligations.BuildOfTheEmptyTable : Prop :=
  ∀ s : State, Inv s → s.fault = false → s.live = 0#9 →
    exec .build s = .next (enterFault .emptyBuild 0#16 s) ∧ s.tv = false

/-- R126, R128 (both marked derived): how many internal nodes a build makes, which slots it writes, and that every link
it stores is one of these slots or `NULL`; a slot not written keeps its old contents. -/
def Obligations.BuildWritesOnlyItsSlots : Prop :=
  ∀ s : State, s.fault = false → CountsOk s → s.live ≠ 0#9 →
    ∃ t, exec .build s = .next t ∧ t.nint.toNat = max 1 (t.nleaf.toNat - 1) ∧ 1 ≤ t.nint.toNat ∧ t.nint.toNat ≤ 255 ∧
      t.root.toNat = 255 + t.nint.toNat ∧ SlotWritten t t.root ∧ t.cur = t.root ∧
      (∀ n, ¬SlotWritten t n → nodeAt t.nodes n = nodeAt s.nodes n) ∧
      ∀ n nd, SlotWritten t n → nodeAt t.nodes n = some nd →
        (nd.parent = Config.null ∨ SlotWritten t nd.parent) ∧ (nd.left = Config.null ∨ SlotWritten t nd.left) ∧
        (nd.right = Config.null ∨ SlotWritten t nd.right)

/-- R127 (marked derived): what a build makes is a function of the table alone: two cores with equal tables build the
same records in the same slots, the same `LEAFV`, `ROOT`, `NLEAF` and `NINT`, whatever else they hold. -/
def Obligations.BuildDependsOnTheTableAlone : Prop :=
  ∀ s s' : State, s.fault = false → s'.fault = false → CountsOk s → CountsOk s' → s.live ≠ 0#9 → s.freq = s'.freq →
    ∃ t t', exec .build s = .next t ∧ exec .build s' = .next t' ∧ t.leafv = t'.leafv ∧ t.root = t'.root ∧
      t.nleaf = t'.nleaf ∧ t.nint = t'.nint ∧ t.freq = s.freq ∧ t'.freq = s'.freq ∧
      ∀ n, SlotWritten t n → nodeAt t.nodes n = nodeAt t'.nodes n

/-- R120, corner case: `BUILD` when `TV` is already 1 rebuilds the identical tree and resets `CUR` to the root. -/
def Obligations.RebuildResetsTheCursor : Prop :=
  ∀ s : State, Inv s → s.fault = false → s.tv = true → exec .build s = .next { s with cur := s.root }

/-- R121: `Insert` places the node behind every entry of greater or equal frequency and moves no other; the sequence
stays in descending order. -/
def Obligations.InsertGoesBehindEquals : Prop :=
  ∀ (nodes : Vector Node 511) (n : NodeIx) (q : List NodeIx),
    q.Pairwise (fun a b => (nodeFreq nodes b).toNat ≤ (nodeFreq nodes a).toNat) →
    ∃ before after, q = before ++ after ∧ insertNode nodes n q = before ++ n :: after ∧
      (∀ m ∈ before, (nodeFreq nodes n).toNat ≤ (nodeFreq nodes m).toNat) ∧
      (∀ m ∈ after, (nodeFreq nodes m).toNat < (nodeFreq nodes n).toNat) ∧
      (insertNode nodes n q).Pairwise fun a b => (nodeFreq nodes b).toNat ≤ (nodeFreq nodes a).toNat

/-- R123, R129: after the leaf loop `Q` lists the leaves of the live symbols, each once, by descending count, and of two
symbols of equal count the lower one first. -/
def Obligations.LeavesStandInOrder : Prop :=
  ∀ s : State,
    (∀ n, n ∈ (addLeaves s).q ↔ ∃ x, freqOf s x ≠ 0#64 ∧ n = leafSlot x) ∧ (addLeaves s).q.Nodup ∧
    (addLeaves s).q.length = liveCount s.freq ∧
    (addLeaves s).q.Pairwise fun a b => ∀ x y, a = leafSlot x → b = leafSlot y →
      (freqOf s y).toNat < (freqOf s x).toNat ∨ (freqOf s y = freqOf s x ∧ x.toNat < y.toNat)

/-- R124: with one live symbol `BUILD` makes a parent in slot 256, the root, with the leaf as its left child, no right
child, and the leaf's count; the leaf links back to it. -/
def Obligations.OneLeafTree : Prop :=
  ∀ (s : State) (x : Symbol), s.fault = false → CountsOk s → s.live = 1#9 → freqOf s x ≠ 0#64 →
    ∃ t, exec .build s = .next t ∧ t.root = 256#9 ∧ t.nint = 1#9 ∧ t.nleaf = 1#9 ∧
      nodeAt t.nodes 256#9 = some
        { tag := .internal, sym := 0#8, freq := (freqOf s x).setWidth 72, parent := Config.null, left := leafSlot x,
          right := Config.null } ∧
      nodeAt t.nodes (leafSlot x) = some
        { tag := .leaf, sym := x, freq := (freqOf s x).setWidth 72, parent := 256#9, left := Config.null,
          right := Config.null }

/-- R125: a pass of the merge loop takes the last two entries of `Q`; the one before the tail becomes the left child,
the tail the right one, of a new internal node whose frequency is their sum, and the node is inserted into the rest; the
loop ends when one entry remains, and that is the root. -/
def Obligations.MergeTakesTheLastTwo : Prop :=
  (∀ (b : Builder) (k : Nat) (n : NodeIx) (s : State), b.q = [n] → mergeLoop k b = b ∧ rootOf s b = n) ∧
  ∀ (b : Builder) (k : Nat) (front : List NodeIx) (a z : NodeIx), b.q = front ++ [a, z] → a ≠ Config.null →
    z ≠ Config.null → a ≠ nextSlot b → z ≠ nextSlot b → nextSlot b ≠ Config.null → a ≠ z →
    ∃ b', mergeLoop (k + 1) b = mergeLoop k b' ∧ b'.nint = b.nint + 1#9 ∧
      b'.q = insertNode b'.nodes (nextSlot b) front ∧
      nodeAt b'.nodes (nextSlot b) = some
        { tag := .internal, sym := 0#8, freq := nodeFreq b.nodes a + nodeFreq b.nodes z, parent := Config.null,
          left := a, right := z } ∧
      (∃ na, nodeAt b.nodes a = some na ∧ nodeAt b'.nodes a = some { na with parent := nextSlot b }) ∧
      (∃ nz, nodeAt b.nodes z = some nz ∧ nodeAt b'.nodes z = some { nz with parent := nextSlot b }) ∧
      ∀ m, m ≠ a → m ≠ z → m ≠ nextSlot b → nodeAt b'.nodes m = nodeAt b.nodes m

/-! ### The code extractor (42_code_extractor.md) -/

/-- R140: `XCODE` of a live symbol completes and leaves in `CODE`, `CLEN` its code in the tree of the table, zero above;
nothing else changes. The code has between 1 and 255 bits, is as long as the leaf is deep and leads from `ROOT` to its
slot: the contract of R141, marked derived in the spec. Its faults, in order (R140): `NoTree`, then `AbsentSymbol`;
`CODE` and `CLEN` keep their old values. -/
def Obligations.XcodeExtractsTheCode : Prop :=
  ∀ (s : State) (x : Symbol), Inv s → s.fault = false →
    (s.tv = false → exec (.xcode x) s = .next (enterFault .noTree 0#16 s)) ∧
    (s.tv = true → leafValid s x = false → exec (.xcode x) s = .next (enterFault .absentSymbol (x.setWidth 16) s)) ∧
    (s.tv = true → leafValid s x = true →
      ∃ (t : State) (c : List Bool), exec (.xcode x) s = .next t ∧ t = { s with code := t.code, clen := t.clen } ∧
        IsCode s.freq x c ∧ codeBits t = c ∧ t.clen.toNat = c.length ∧ CodeOk t ∧ 1 ≤ c.length ∧ c.length ≤ 255 ∧
        ancestor s.nodes c.length (leafSlot x) = some s.root ∧ walkDown s.nodes s.root c = some (leafSlot x))

/-- R132, R141 (both marked derived): no live symbol's code is another's or a prefix of it. -/
def Obligations.CodesArePrefixFree : Prop :=
  ∀ (s t u : State) (x y : Symbol), Inv s → s.fault = false → s.tv = true → freqOf s x ≠ 0#64 → freqOf s y ≠ 0#64 →
    x ≠ y → exec (.xcode x) s = .next t → exec (.xcode y) s = .next u → ¬codeBits t <+: codeBits u

/-- R142: `XCODE` may be repeated: after any `XCODE` that completed, an `XCODE` gives the code it would have given
before; after any write of the table it faults with `NoTree`, and a write keeps `CODE` and `CLEN`. -/
def Obligations.XcodeRepeats : Prop :=
  (∀ (s t u : State) (x y : Symbol), s.fault = false → exec (.xcode y) s = .next t → t.fault = false →
    exec (.xcode x) s = .next u → u.fault = false → exec (.xcode x) t = .next u) ∧
  (∀ (i : Instr) (s t : State) (x : Symbol), Inv s → s.fault = false → exec i s = .next t → t.fault = false →
    (t.freq ≠ s.freq ∨ ∃ y v, i = .fld y v) → exec (.xcode x) t = .next (enterFault .noTree 0#16 t)) ∧
  (∀ (s t : State) (y : Symbol) (v : Count), exec (.fld y v) s = .next t ∨ exec (.finc y) s = .next t ∨
    exec (.fdec y) s = .next t → t.code = s.code ∧ t.clen = s.clen)

/-! ### The bit packer (43_bit_packer.md) -/

/-- R151: `PACK` completes and appends the code in `CODE`, `CLEN` to the bits packed, pushing only bytes that are full;
the byte being filled stays in `PBUF`, also when it is just full; `CLEN = 0` changes nothing; nothing else changes. -/
def Obligations.PackAppendsTheCode : Prop :=
  ∀ s : State, PackerOk s → s.fault = false →
    ∃ (t : State) (pushed : List Byte), exec .pack s = .next t ∧
      t = { s with pbuf := t.pbuf, free := t.free, out := t.out } ∧
      PackerOk t ∧ packedBits t = packedBits s ++ codeBits s ∧ t.out = s.out ++ pushed ∧
      (s.clen = 0#8 → t = s) ∧ (s.clen ≠ 0#8 → t.free.toNat < 8)

/-- R151 (the count of bytes is marked derived in the spec), R152: a `PACK` of a code pushes
`floor((8 - FREE + CLEN - 1) / 8)` bytes, so a byte that is just full waits for the next `PACK` or `FLUSH`. -/
def Obligations.PackPushesTheFilledBytes : Prop :=
  ∀ s : State, PackerOk s → s.fault = false → s.clen ≠ 0#8 →
    ∃ t, exec .pack s = .next t ∧
      t.out.length = s.out.length + (8 - s.free.toNat + s.clen.toNat - 1) / 8 ∧
      (s.clen.toNat = s.free.toNat → t.out = s.out ∧ t.free = 0#4)

/-- R153: `FLUSH` completes: with bits pending it pushes the byte, the packed bits in its high-order positions and zeros
below, and leaves none pending; with none pending it changes nothing. -/
def Obligations.FlushPushesThePartialByte : Prop :=
  ∀ s : State, PackerOk s → s.fault = false →
    ∃ t, exec .flush s = .next t ∧ t = { s with pbuf := t.pbuf, free := t.free, out := t.out } ∧
      (s.free.toNat < 8 → t.out = s.out ++ [s.pbuf] ∧ t.pbuf = 0#8 ∧ t.free = 8#4 ∧
        packedBits t = packedBits s ++ List.replicate s.free.toNat false) ∧
      (s.free.toNat = 8 → t = s) ∧ ppendFlag t = false

/-! ### The bit unpacker and the walk (44_bit_unpacker.md) -/

/-- R160, R161: `STEP` on an internal node with a bit to come completes: it takes the bit, from a fresh byte only when
none is left, and moves the cursor one edge down; where that child is missing it faults with the bit consumed. Its other
faults, in the order tested, leave the state otherwise unchanged. -/
def Obligations.StepFollowsOneBit : Prop :=
  (∀ (s : State) (nd : Node) (bit : Bool) (rest : List Bool), UnpackerOk s → s.fault = false → s.tv = true →
    nodeAt s.nodes s.cur = some nd → nd.tag = .internal → inputBits s = bit :: rest →
    ∃ u, u = { s with ubuf := u.ubuf, ucnt := u.ucnt, inp := u.inp } ∧ inputBits u = rest ∧
      (s.ucnt ≠ 0#4 → bit = s.ubuf.getLsbD 7 ∧ u.ubuf = s.ubuf <<< 1 ∧ u.ucnt.toNat + 1 = s.ucnt.toNat ∧
        u.inp = s.inp) ∧
      (s.ucnt = 0#4 → ∃ byte, s.inp = byte :: u.inp ∧ bit = byte.getLsbD 7 ∧ u.ubuf = byte <<< 1 ∧ u.ucnt = 7#4) ∧
      ((if bit then nd.right else nd.left) ≠ Config.null →
        exec .step s = .next { u with cur := if bit then nd.right else nd.left }) ∧
      ((if bit then nd.right else nd.left) = Config.null →
        exec .step s = .next (enterFault .nullChild (s.cur.setWidth 16) u))) ∧
  (∀ s : State, s.fault = false → s.tv = false → exec .step s = .next (enterFault .noTree 0#16 s)) ∧
  (∀ (s : State) (nd : Node), s.fault = false → s.tv = true → nodeAt s.nodes s.cur = some nd → nd.tag = .leaf →
    exec .step s = .next (enterFault .badCursor (s.cur.setWidth 16) s)) ∧
  (∀ (s : State) (nd : Node), s.fault = false → s.tv = true → nodeAt s.nodes s.cur = some nd → nd.tag = .internal →
    s.ucnt = 0#4 → s.inp = [] → exec .step s = .next (enterFault .inUnderrun 0#16 s)) ∧
  (∀ (s : State) (nd : Node), Inv s → s.tv = true → nodeAt s.nodes s.cur = some nd → nd.tag = .internal →
    nd.left ≠ Config.null ∧ (nd.right = Config.null → s.cur = s.root ∧ s.nleaf = 1#9))

/-- R162: `EMIT` on a leaf completes: its symbol goes to `SYM` and `SOUT` and is counted off, and the tree is discarded;
without a tree, and on an internal node, it faults; a second `EMIT` faults with `NoTree`. -/
def Obligations.EmitCountsTheSymbolOff : Prop :=
  ∀ s : State, Inv s → s.fault = false →
    (s.tv = false → exec .emit s = .next (enterFault .noTree 0#16 s)) ∧
    (∀ nd, s.tv = true → nodeAt s.nodes s.cur = some nd → nd.tag = .internal →
      exec .emit s = .next (enterFault .badCursor (s.cur.setWidth 16) s)) ∧
    (∀ nd, s.tv = true → nodeAt s.nodes s.cur = some nd → nd.tag = .leaf →
      ∃ (t : State) (v : Count), exec .emit s = .next t ∧ v.toNat + 1 = (freqOf s nd.sym).toNat ∧
        WritesCount { s with sym := nd.sym, sout := s.sout ++ [nd.sym] } nd.sym v t ∧
        t.total.toNat + 1 = s.total.toNat ∧ exec .emit t = .next (enterFault .noTree 0#16 t))

/-- R163 (marked derived): the walk law. From the root, with the code of a live symbol to come, exactly as many `STEP`s
as the code has bits complete without fault and consume it; the cursor is on the symbol's leaf, and no smaller number
reaches a leaf. -/
def Obligations.WalkFollowsTheCode : Prop :=
  ∀ (s : State) (x : Symbol) (c rest : List Bool), Inv s → s.fault = false → s.tv = true → s.cur = s.root →
    freqOf s x ≠ 0#64 → IsCode s.freq x c → inputBits s = c ++ rest →
    (∃ t, execAll (List.replicate c.length .step) s = .next t ∧ WalkFrame s t ∧ t.cur = leafSlot x ∧
      atLeafFlag t = true ∧ inputBits t = rest) ∧
    ∀ k, k < c.length →
      ∃ t, execAll (List.replicate k .step) s = .next t ∧ t.fault = false ∧ atLeafFlag t = false

/-! ### The driver (45_driver.md) -/

/-- R170: `ENC` of a symbol with an occurrence left completes: the tree is built, the symbol's code goes to `CODE`,
`CLEN` and to the packer, and one occurrence is counted off; with the empty table, then with an absent symbol, it faults
and changes nothing but the fault registers. -/
def Obligations.EncCodesTheSymbol : Prop :=
  ∀ (s : State) (x : Symbol), Inv s → s.fault = false →
    (s.live = 0#9 → exec (.enc x) s = .next (enterFault .emptyBuild 0#16 s)) ∧
    (s.live ≠ 0#9 → freqOf s x = 0#64 → exec (.enc x) s = .next (enterFault .absentSymbol (x.setWidth 16) s)) ∧
    (freqOf s x ≠ 0#64 → ∃ (t b : State) (c : List Bool), exec (.enc x) s = .next t ∧ EncodeFrame s t ∧
      exec .build s = .next b ∧ t.nodes = b.nodes ∧ t.leafv = b.leafv ∧ t.root = b.root ∧ t.cur = b.cur ∧
      t.nleaf = b.nleaf ∧ t.nint = b.nint ∧
      IsCode s.freq x c ∧ codeBits t = c ∧ t.clen.toNat = c.length ∧ CodeOk t ∧ PackerOk t ∧
      packedBits t = packedBits s ++ c ∧ s.out <+: t.out ∧
      (freqOf t x).toNat + 1 = (freqOf s x).toNat ∧ (∀ y, y ≠ x → freqOf t y = freqOf s y) ∧ CountsOk t ∧ t.tv = false)

/-- R171: `DEC` whose bits lead to a leaf of the table's tree completes: it has consumed just those bits, emitted the
leaf's symbol and counted it off; with the empty table it faults and changes nothing but the fault registers. -/
def Obligations.DecEmitsTheSymbol : Prop :=
  ∀ s : State, Inv s → s.fault = false →
    (s.live = 0#9 → exec .dec s = .next (enterFault .emptyBuild 0#16 s)) ∧
    (∀ (h : HTree) (x : Symbol) (rest : List Bool), treeOf s.freq = some h →
      treeDecode h (inputBits s) = some (x, rest) →
      ∃ t b, exec .dec s = .next t ∧ DecodeFrame s t ∧ exec .build s = .next b ∧ t.nodes = b.nodes ∧
        t.leafv = b.leafv ∧ t.root = b.root ∧ t.nleaf = b.nleaf ∧ t.nint = b.nint ∧ t.cur = leafSlot x ∧
        t.sym = x ∧ t.sout = s.sout ++ [x] ∧ inputBits t = rest ∧ t.inp <:+ s.inp ∧
        (freqOf t x).toNat + 1 = (freqOf s x).toNat ∧ (∀ y, y ≠ x → freqOf t y = freqOf s y) ∧ CountsOk t ∧
        t.tv = false)

/-- R171; R131, R132 (marked derived): with two or more live symbols and enough bits to come (one fewer than the symbols
suffice), `DEC` completes, whatever the bits are. -/
def Obligations.DecCompletesOnEnoughBits : Prop :=
  ∀ s : State, Inv s → s.fault = false → 2 ≤ s.live.toNat → s.live.toNat ≤ bitsLeft s + 1 →
    ∃ t, exec .dec s = .next t ∧ t.fault = false ∧ t.total.toNat + 1 = s.total.toNat ∧
      1 ≤ bitsLeft s - bitsLeft t ∧ bitsLeft s - bitsLeft t ≤ 255

/-- R124, R179: with one live symbol its code is the single bit 0; `DEC` emits it on a 0 bit and faults with `NullChild`
of slot 256 on a 1 bit. -/
def Obligations.OneSymbolIsOneZeroBit : Prop :=
  ∀ (s : State) (x : Symbol) (rest : List Bool), Inv s → s.fault = false → s.live = 1#9 → freqOf s x ≠ 0#64 →
    IsCode s.freq x [false] ∧
    (inputBits s = false :: rest → ∃ t, exec .dec s = .next t ∧ t.fault = false ∧ t.sout = s.sout ++ [x] ∧
      inputBits t = rest) ∧
    (inputBits s = true :: rest → ∃ t, exec .dec s = .next t ∧ t.fault = true ∧ t.fcode = 0x07#8 ∧
      t.finfo = 256#16 ∧ t.sout = s.sout ∧ t.freq = s.freq ∧ inputBits t = rest)

/-- R172: `DRUN` on the empty table completes and does nothing at all; when the bits hold a symbol for every count it
completes, having emitted exactly `TOTAL` symbols, the table is all zero and the tree is discarded. -/
def Obligations.DrunDecodesToTheEnd : Prop :=
  ∀ s : State, Inv s → s.fault = false →
    (s.total = 0#72 → exec .drun s = .next s) ∧
    (∀ (xs : List Symbol) (rest : List Bool), decodeSymbols s.total.toNat s.freq (inputBits s) = some (xs, rest) →
      ∃ t, exec .drun s = .next t ∧ DecodeFrame s t ∧ t.sout = s.sout ++ xs ∧ xs.length = s.total.toNat ∧
        inputBits t = rest ∧ t.inp <:+ s.inp ∧ emptyFlag t = true ∧ (∀ y, freqOf t y = 0#64) ∧ t.tv = false) ∧
    (decodeSymbols s.total.toNat s.freq (inputBits s) = none →
      ∃ t, exec .drun s = .next t ∧ t.fault = true ∧ (t.fcode = 0x06#8 ∨ t.fcode = 0x07#8))

/-- R174 (marked derived): `ENC` leaves exactly the state that `BUILD`, `XCODE`, `PACK`, `FDEC` leave. -/
def Obligations.EncIsFourCommands : Prop :=
  ∀ (s : State) (x : Symbol), Inv s → s.fault = false → freqOf s x ≠ 0#64 →
    ∃ t, exec (.enc x) s = .next t ∧ t.fault = false ∧ execAll [.build, .xcode x, .pack, .fdec x] s = .next t

/-- R174 (marked derived): a `DEC` that completes leaves exactly the state that `BUILD`, one `STEP` for each link of the
depth of the leaf reached, and `EMIT` leave; a `DRUN` that completes, that of `DEC` repeated `TOTAL` times. -/
def Obligations.DecAndDrunAreTheirCommands : Prop :=
  (∀ s t : State, Inv s → s.fault = false → exec .dec s = .next t → t.fault = false →
    ∃ d, 1 ≤ d ∧ d ≤ 255 ∧ ancestor t.nodes d t.cur = some t.root ∧ bitsLeft s = bitsLeft t + d ∧
      execAll (.build :: (List.replicate d .step ++ [.emit])) s = .next t) ∧
  (∀ s t : State, Inv s → s.fault = false → exec .drun s = .next t → t.fault = false →
    execAll (List.replicate s.total.toNat .dec) s = .next t)

/-- R177: each completed `ENC` and each completed `DEC` lowers `TOTAL` by exactly 1 and changes exactly one entry of
`F`; `DRUN` completes exactly with `TOTAL = 0`. -/
def Obligations.TotalShrinksByOne : Prop :=
  (∀ (s t : State) (x : Symbol), Inv s → s.fault = false → exec (.enc x) s = .next t → t.fault = false →
    t.total.toNat + 1 = s.total.toNat ∧ ∃ y, ∀ z, freqOf t z ≠ freqOf s z ↔ z = y) ∧
  (∀ s t : State, Inv s → s.fault = false → exec .dec s = .next t → t.fault = false →
    t.total.toNat + 1 = s.total.toNat ∧ ∃ y, ∀ z, freqOf t z ≠ freqOf s z ↔ z = y) ∧
  (∀ s t : State, Inv s → s.fault = false → exec .drun s = .next t → (t.fault = false ↔ t.total = 0#72))

/-- R173: the symmetry of the two sides. An encoder core and a decoder core with equal tables: when the decoder's input
begins with the code the encoder's `ENC` sends, both build the same tree, the decoder's `DEC` arrives at the encoder's
symbol, both count it off, and the tables are equal again. -/
def Obligations.BothSidesStayEqual : Prop :=
  ∀ (e d : State) (x : Symbol), Inv e → Inv d → e.fault = false → d.fault = false → e.freq = d.freq →
    freqOf e x ≠ 0#64 →
    ∃ e', exec (.enc x) e = .next e' ∧ e'.fault = false ∧
      ∀ rest, inputBits d = codeBits e' ++ rest →
        ∃ d', exec .dec d = .next d' ∧ d'.fault = false ∧ d'.sym = x ∧ d'.sout = d.sout ++ [x] ∧
          inputBits d' = rest ∧ d'.freq = e'.freq ∧ d'.root = e'.root ∧ d'.leafv = e'.leafv ∧ d'.nint = e'.nint ∧
          d'.nleaf = e'.nleaf ∧ ∀ n, SlotWritten { e with nint := e'.nint } n → nodeAt d'.nodes n = nodeAt e'.nodes n

/-- R170, R178; R154 (marked derived): the encode loop and the final `FLUSH`. Coding a list of symbols the table counts
completes; `OUT` has gained the codes one after another, padded with zeros to whole bytes, `ceil(|B| / 8)` of them. -/
def Obligations.EncodeLoopPacksTheCodes : Prop :=
  ∀ (s : State) (xs : List Symbol), Inv s → s.fault = false → s.free = 8#4 →
    (∀ x, xs.count x ≤ (freqOf s x).toNat) →
    ∃ (t : State) (bits : List Bool) (bytes : List Byte), execAll (xs.map Instr.enc ++ [.flush]) s = .next t ∧
      t.fault = false ∧ t.free = 8#4 ∧ encodeSymbols s.freq xs = some bits ∧ t.out = s.out ++ bytes ∧
      bytes.length = (bits.length + 7) / 8 ∧
      bytes.flatMap byteBits = bits ++ List.replicate (8 * bytes.length - bits.length) false ∧
      (∀ x, (freqOf t x).toNat + xs.count x = (freqOf s x).toNat)

/-- R176 (marked derived), R238: the round trip, from reset to the end of both runs. For every byte sequence whose
counts fit the table (fewer than `2^64` of each byte) the encoder's run has a complete result, and the decoder's run on
it, with the table of counts and any bytes behind, has the sequence as its complete result and leaves the bytes behind
unread. -/
def Obligations.RoundTrip : Prop :=
  ∀ bytes extra : List Byte, (∀ b, bytes.count b < 2 ^ 64) →
    ∃ e packed d, runAll (startRun (encoderCommands bytes) []) = .next e ∧ encoderResult e = some packed ∧
      encoderComplete e = true ∧
      runAll (startRun (decoderCommands (countTable bytes)) (packed ++ extra)) = .next d ∧
      decoderResult d = some bytes ∧ decoderComplete d = true ∧ d.total = 0#72 ∧ d.inp = extra

/-! ### The file around the block (20_memory.md section 7) -/

/-- R79 (marked derived): the field width is the smallest of 1, 2, 4, 8 bytes that holds every count. -/
def Obligations.HeaderWidthIsTheSmallest : Prop :=
  ∀ table : Vector Count 256,
    headerWidth table ∈ [1, 2, 4, 8] ∧ (∀ v ∈ table.toList, v.toNat < 256 ^ headerWidth table) ∧
    ∀ w ∈ [1, 2, 4, 8], (∀ v ∈ table.toList, v.toNat < 256 ^ w) → headerWidth table ≤ w

/-- R77, R78, R81: the host's reader gives back the counts and the packed stream of a file the host wrote, in either
byte order (the order is the open parameter of R80, log entry 10). -/
def Obligations.HeaderReadsBack : Prop :=
  ∀ (table : Vector Count 256) (packed : List Byte),
    readHeader (compressedFile table packed) = some (table.toList, packed) ∧
    (headerBytes table).length = 1 + 256 * headerWidth table
end

