-- ==== Sys2Proof/Laws/State.lean ====
section
/-!
SUPPORT. Each field of the state after each shared update, so that no later proof unfolds a record update.
-/

namespace Sys2Proof.Machine

@[simp] theorem enterFault_cmds (c : Cause) (info : BitVec 16) (s : State) : (enterFault c info s).cmds = s.cmds := rfl
@[simp] theorem enterFault_cmdIx (c : Cause) (info : BitVec 16) (s : State) : (enterFault c info s).cmdIx = s.cmdIx :=
    rfl
@[simp] theorem enterFault_freq (c : Cause) (info : BitVec 16) (s : State) : (enterFault c info s).freq = s.freq := rfl
@[simp] theorem enterFault_live (c : Cause) (info : BitVec 16) (s : State) : (enterFault c info s).live = s.live := rfl
@[simp] theorem enterFault_total (c : Cause) (info : BitVec 16) (s : State) : (enterFault c info s).total = s.total :=
    rfl
@[simp] theorem enterFault_tv (c : Cause) (info : BitVec 16) (s : State) : (enterFault c info s).tv = s.tv := rfl
@[simp] theorem enterFault_fault (c : Cause) (info : BitVec 16) (s : State) : (enterFault c info s).fault = true := rfl
@[simp] theorem enterFault_fcode (c : Cause) (info : BitVec 16)
    (s : State) : (enterFault c info s).fcode = causeCode c := rfl
@[simp] theorem enterFault_finfo (c : Cause) (info : BitVec 16) (s : State) : (enterFault c info s).finfo = info := rfl
@[simp] theorem enterFault_nodes (c : Cause) (info : BitVec 16) (s : State) : (enterFault c info s).nodes = s.nodes :=
    rfl
@[simp] theorem enterFault_leafv (c : Cause) (info : BitVec 16) (s : State) : (enterFault c info s).leafv = s.leafv :=
    rfl
@[simp] theorem enterFault_root (c : Cause) (info : BitVec 16) (s : State) : (enterFault c info s).root = s.root := rfl
@[simp] theorem enterFault_cur (c : Cause) (info : BitVec 16) (s : State) : (enterFault c info s).cur = s.cur := rfl
@[simp] theorem enterFault_nleaf (c : Cause) (info : BitVec 16) (s : State) : (enterFault c info s).nleaf = s.nleaf :=
    rfl
@[simp] theorem enterFault_nint (c : Cause) (info : BitVec 16) (s : State) : (enterFault c info s).nint = s.nint := rfl
@[simp] theorem enterFault_code (c : Cause) (info : BitVec 16) (s : State) : (enterFault c info s).code = s.code := rfl
@[simp] theorem enterFault_clen (c : Cause) (info : BitVec 16) (s : State) : (enterFault c info s).clen = s.clen := rfl
@[simp] theorem enterFault_sym (c : Cause) (info : BitVec 16) (s : State) : (enterFault c info s).sym = s.sym := rfl
@[simp] theorem enterFault_res (c : Cause) (info : BitVec 16) (s : State) : (enterFault c info s).res = s.res := rfl
@[simp] theorem enterFault_pbuf (c : Cause) (info : BitVec 16) (s : State) : (enterFault c info s).pbuf = s.pbuf := rfl
@[simp] theorem enterFault_free (c : Cause) (info : BitVec 16) (s : State) : (enterFault c info s).free = s.free := rfl
@[simp] theorem enterFault_ubuf (c : Cause) (info : BitVec 16) (s : State) : (enterFault c info s).ubuf = s.ubuf := rfl
@[simp] theorem enterFault_ucnt (c : Cause) (info : BitVec 16) (s : State) : (enterFault c info s).ucnt = s.ucnt := rfl
@[simp] theorem enterFault_inp (c : Cause) (info : BitVec 16) (s : State) : (enterFault c info s).inp = s.inp := rfl
@[simp] theorem enterFault_out (c : Cause) (info : BitVec 16) (s : State) : (enterFault c info s).out = s.out := rfl
@[simp] theorem enterFault_sout (c : Cause) (info : BitVec 16) (s : State) : (enterFault c info s).sout = s.sout := rfl

@[simp] theorem setF_cmds (s : State) (x : Symbol) (v : Count) : (setF s x v).cmds = s.cmds := rfl
@[simp] theorem setF_cmdIx (s : State) (x : Symbol) (v : Count) : (setF s x v).cmdIx = s.cmdIx := rfl
@[simp] theorem setF_freq (s : State) (x : Symbol) (v : Count) : (setF s x v).freq = s.freq.set x.toNat v x.isLt := rfl
@[simp] theorem setF_live (s : State) (x : Symbol)
    (v : Count) : (setF s x v).live = s.live - (if freqOf s x = 0#64 then 0#9 else 1#9) + (if v = 0#64 then 0#9 else 1#9) := rfl
@[simp] theorem setF_total (s : State) (x : Symbol)
    (v : Count) : (setF s x v).total = s.total - (freqOf s x).setWidth 72 + v.setWidth 72 := rfl
@[simp] theorem setF_tv (s : State) (x : Symbol) (v : Count) : (setF s x v).tv = false := rfl
@[simp] theorem setF_fault (s : State) (x : Symbol) (v : Count) : (setF s x v).fault = s.fault := rfl
@[simp] theorem setF_fcode (s : State) (x : Symbol) (v : Count) : (setF s x v).fcode = s.fcode := rfl
@[simp] theorem setF_finfo (s : State) (x : Symbol) (v : Count) : (setF s x v).finfo = s.finfo := rfl
@[simp] theorem setF_nodes (s : State) (x : Symbol) (v : Count) : (setF s x v).nodes = s.nodes := rfl
@[simp] theorem setF_leafv (s : State) (x : Symbol) (v : Count) : (setF s x v).leafv = s.leafv := rfl
@[simp] theorem setF_root (s : State) (x : Symbol) (v : Count) : (setF s x v).root = s.root := rfl
@[simp] theorem setF_cur (s : State) (x : Symbol) (v : Count) : (setF s x v).cur = s.cur := rfl
@[simp] theorem setF_nleaf (s : State) (x : Symbol) (v : Count) : (setF s x v).nleaf = s.nleaf := rfl
@[simp] theorem setF_nint (s : State) (x : Symbol) (v : Count) : (setF s x v).nint = s.nint := rfl
@[simp] theorem setF_code (s : State) (x : Symbol) (v : Count) : (setF s x v).code = s.code := rfl
@[simp] theorem setF_clen (s : State) (x : Symbol) (v : Count) : (setF s x v).clen = s.clen := rfl
@[simp] theorem setF_sym (s : State) (x : Symbol) (v : Count) : (setF s x v).sym = s.sym := rfl
@[simp] theorem setF_res (s : State) (x : Symbol) (v : Count) : (setF s x v).res = s.res := rfl
@[simp] theorem setF_pbuf (s : State) (x : Symbol) (v : Count) : (setF s x v).pbuf = s.pbuf := rfl
@[simp] theorem setF_free (s : State) (x : Symbol) (v : Count) : (setF s x v).free = s.free := rfl
@[simp] theorem setF_ubuf (s : State) (x : Symbol) (v : Count) : (setF s x v).ubuf = s.ubuf := rfl
@[simp] theorem setF_ucnt (s : State) (x : Symbol) (v : Count) : (setF s x v).ucnt = s.ucnt := rfl
@[simp] theorem setF_inp (s : State) (x : Symbol) (v : Count) : (setF s x v).inp = s.inp := rfl
@[simp] theorem setF_out (s : State) (x : Symbol) (v : Count) : (setF s x v).out = s.out := rfl
@[simp] theorem setF_sout (s : State) (x : Symbol) (v : Count) : (setF s x v).sout = s.sout := rfl

@[simp] theorem pushSymbol_cmds (b : Byte) (s : State) : (pushSymbol b s).cmds = s.cmds := rfl
@[simp] theorem pushSymbol_cmdIx (b : Byte) (s : State) : (pushSymbol b s).cmdIx = s.cmdIx := rfl
@[simp] theorem pushSymbol_freq (b : Byte) (s : State) : (pushSymbol b s).freq = s.freq := rfl
@[simp] theorem pushSymbol_live (b : Byte) (s : State) : (pushSymbol b s).live = s.live := rfl
@[simp] theorem pushSymbol_total (b : Byte) (s : State) : (pushSymbol b s).total = s.total := rfl
@[simp] theorem pushSymbol_tv (b : Byte) (s : State) : (pushSymbol b s).tv = s.tv := rfl
@[simp] theorem pushSymbol_fault (b : Byte) (s : State) : (pushSymbol b s).fault = s.fault := rfl
@[simp] theorem pushSymbol_fcode (b : Byte) (s : State) : (pushSymbol b s).fcode = s.fcode := rfl
@[simp] theorem pushSymbol_finfo (b : Byte) (s : State) : (pushSymbol b s).finfo = s.finfo := rfl
@[simp] theorem pushSymbol_nodes (b : Byte) (s : State) : (pushSymbol b s).nodes = s.nodes := rfl
@[simp] theorem pushSymbol_leafv (b : Byte) (s : State) : (pushSymbol b s).leafv = s.leafv := rfl
@[simp] theorem pushSymbol_root (b : Byte) (s : State) : (pushSymbol b s).root = s.root := rfl
@[simp] theorem pushSymbol_cur (b : Byte) (s : State) : (pushSymbol b s).cur = s.cur := rfl
@[simp] theorem pushSymbol_nleaf (b : Byte) (s : State) : (pushSymbol b s).nleaf = s.nleaf := rfl
@[simp] theorem pushSymbol_nint (b : Byte) (s : State) : (pushSymbol b s).nint = s.nint := rfl
@[simp] theorem pushSymbol_code (b : Byte) (s : State) : (pushSymbol b s).code = s.code := rfl
@[simp] theorem pushSymbol_clen (b : Byte) (s : State) : (pushSymbol b s).clen = s.clen := rfl
@[simp] theorem pushSymbol_sym (b : Byte) (s : State) : (pushSymbol b s).sym = s.sym := rfl
@[simp] theorem pushSymbol_res (b : Byte) (s : State) : (pushSymbol b s).res = s.res := rfl
@[simp] theorem pushSymbol_pbuf (b : Byte) (s : State) : (pushSymbol b s).pbuf = s.pbuf := rfl
@[simp] theorem pushSymbol_free (b : Byte) (s : State) : (pushSymbol b s).free = s.free := rfl
@[simp] theorem pushSymbol_ubuf (b : Byte) (s : State) : (pushSymbol b s).ubuf = s.ubuf := rfl
@[simp] theorem pushSymbol_ucnt (b : Byte) (s : State) : (pushSymbol b s).ucnt = s.ucnt := rfl
@[simp] theorem pushSymbol_inp (b : Byte) (s : State) : (pushSymbol b s).inp = s.inp := rfl
@[simp] theorem pushSymbol_out (b : Byte) (s : State) : (pushSymbol b s).out = s.out := rfl
@[simp] theorem pushSymbol_sout (b : Byte) (s : State) : (pushSymbol b s).sout = s.sout ++ [b] := rfl

@[simp] theorem advance_cmds (s : State) : (advance s).cmds = s.cmds := rfl
@[simp] theorem advance_cmdIx (s : State) : (advance s).cmdIx = s.cmdIx + 1 := rfl
@[simp] theorem advance_freq (s : State) : (advance s).freq = s.freq := rfl
@[simp] theorem advance_live (s : State) : (advance s).live = s.live := rfl
@[simp] theorem advance_total (s : State) : (advance s).total = s.total := rfl
@[simp] theorem advance_tv (s : State) : (advance s).tv = s.tv := rfl
@[simp] theorem advance_fault (s : State) : (advance s).fault = s.fault := rfl
@[simp] theorem advance_fcode (s : State) : (advance s).fcode = s.fcode := rfl
@[simp] theorem advance_finfo (s : State) : (advance s).finfo = s.finfo := rfl
@[simp] theorem advance_nodes (s : State) : (advance s).nodes = s.nodes := rfl
@[simp] theorem advance_leafv (s : State) : (advance s).leafv = s.leafv := rfl
@[simp] theorem advance_root (s : State) : (advance s).root = s.root := rfl
@[simp] theorem advance_cur (s : State) : (advance s).cur = s.cur := rfl
@[simp] theorem advance_nleaf (s : State) : (advance s).nleaf = s.nleaf := rfl
@[simp] theorem advance_nint (s : State) : (advance s).nint = s.nint := rfl
@[simp] theorem advance_code (s : State) : (advance s).code = s.code := rfl
@[simp] theorem advance_clen (s : State) : (advance s).clen = s.clen := rfl
@[simp] theorem advance_sym (s : State) : (advance s).sym = s.sym := rfl
@[simp] theorem advance_res (s : State) : (advance s).res = s.res := rfl
@[simp] theorem advance_pbuf (s : State) : (advance s).pbuf = s.pbuf := rfl
@[simp] theorem advance_free (s : State) : (advance s).free = s.free := rfl
@[simp] theorem advance_ubuf (s : State) : (advance s).ubuf = s.ubuf := rfl
@[simp] theorem advance_ucnt (s : State) : (advance s).ucnt = s.ucnt := rfl
@[simp] theorem advance_inp (s : State) : (advance s).inp = s.inp := rfl
@[simp] theorem advance_out (s : State) : (advance s).out = s.out := rfl
@[simp] theorem advance_sout (s : State) : (advance s).sout = s.sout := rfl

@[simp] theorem withPacker_cmds (s : State) (p : Packer) : (withPacker s p).cmds = s.cmds := rfl
@[simp] theorem withPacker_cmdIx (s : State) (p : Packer) : (withPacker s p).cmdIx = s.cmdIx := rfl
@[simp] theorem withPacker_freq (s : State) (p : Packer) : (withPacker s p).freq = s.freq := rfl
@[simp] theorem withPacker_live (s : State) (p : Packer) : (withPacker s p).live = s.live := rfl
@[simp] theorem withPacker_total (s : State) (p : Packer) : (withPacker s p).total = s.total := rfl
@[simp] theorem withPacker_tv (s : State) (p : Packer) : (withPacker s p).tv = s.tv := rfl
@[simp] theorem withPacker_fault (s : State) (p : Packer) : (withPacker s p).fault = s.fault := rfl
@[simp] theorem withPacker_fcode (s : State) (p : Packer) : (withPacker s p).fcode = s.fcode := rfl
@[simp] theorem withPacker_finfo (s : State) (p : Packer) : (withPacker s p).finfo = s.finfo := rfl
@[simp] theorem withPacker_nodes (s : State) (p : Packer) : (withPacker s p).nodes = s.nodes := rfl
@[simp] theorem withPacker_leafv (s : State) (p : Packer) : (withPacker s p).leafv = s.leafv := rfl
@[simp] theorem withPacker_root (s : State) (p : Packer) : (withPacker s p).root = s.root := rfl
@[simp] theorem withPacker_cur (s : State) (p : Packer) : (withPacker s p).cur = s.cur := rfl
@[simp] theorem withPacker_nleaf (s : State) (p : Packer) : (withPacker s p).nleaf = s.nleaf := rfl
@[simp] theorem withPacker_nint (s : State) (p : Packer) : (withPacker s p).nint = s.nint := rfl
@[simp] theorem withPacker_code (s : State) (p : Packer) : (withPacker s p).code = s.code := rfl
@[simp] theorem withPacker_clen (s : State) (p : Packer) : (withPacker s p).clen = s.clen := rfl
@[simp] theorem withPacker_sym (s : State) (p : Packer) : (withPacker s p).sym = s.sym := rfl
@[simp] theorem withPacker_res (s : State) (p : Packer) : (withPacker s p).res = s.res := rfl
@[simp] theorem withPacker_pbuf (s : State) (p : Packer) : (withPacker s p).pbuf = p.pbuf := rfl
@[simp] theorem withPacker_free (s : State) (p : Packer) : (withPacker s p).free = p.free := rfl
@[simp] theorem withPacker_ubuf (s : State) (p : Packer) : (withPacker s p).ubuf = s.ubuf := rfl
@[simp] theorem withPacker_ucnt (s : State) (p : Packer) : (withPacker s p).ucnt = s.ucnt := rfl
@[simp] theorem withPacker_inp (s : State) (p : Packer) : (withPacker s p).inp = s.inp := rfl
@[simp] theorem withPacker_out (s : State) (p : Packer) : (withPacker s p).out = p.out := rfl
@[simp] theorem withPacker_sout (s : State) (p : Packer) : (withPacker s p).sout = s.sout := rfl

@[simp] theorem builtState_cmds (s : State) : (builtState s).cmds = s.cmds := rfl
@[simp] theorem builtState_cmdIx (s : State) : (builtState s).cmdIx = s.cmdIx := rfl
@[simp] theorem builtState_freq (s : State) : (builtState s).freq = s.freq := rfl
@[simp] theorem builtState_live (s : State) : (builtState s).live = s.live := rfl
@[simp] theorem builtState_total (s : State) : (builtState s).total = s.total := rfl
@[simp] theorem builtState_tv (s : State) : (builtState s).tv = true := rfl
@[simp] theorem builtState_fault (s : State) : (builtState s).fault = s.fault := rfl
@[simp] theorem builtState_fcode (s : State) : (builtState s).fcode = s.fcode := rfl
@[simp] theorem builtState_finfo (s : State) : (builtState s).finfo = s.finfo := rfl
@[simp] theorem builtState_nodes (s : State) : (builtState s).nodes = (buildArena s).nodes := rfl
@[simp] theorem builtState_leafv (s : State) : (builtState s).leafv = (buildArena s).leafv := rfl
@[simp] theorem builtState_root (s : State) : (builtState s).root = rootOf s (buildArena s) := rfl
@[simp] theorem builtState_cur (s : State) : (builtState s).cur = rootOf s (buildArena s) := rfl
@[simp] theorem builtState_nleaf (s : State) : (builtState s).nleaf = BitVec.ofNat 9 (addLeaves s).q.length := rfl
@[simp] theorem builtState_nint (s : State) : (builtState s).nint = (buildArena s).nint := rfl
@[simp] theorem builtState_code (s : State) : (builtState s).code = s.code := rfl
@[simp] theorem builtState_clen (s : State) : (builtState s).clen = s.clen := rfl
@[simp] theorem builtState_sym (s : State) : (builtState s).sym = s.sym := rfl
@[simp] theorem builtState_res (s : State) : (builtState s).res = s.res := rfl
@[simp] theorem builtState_pbuf (s : State) : (builtState s).pbuf = s.pbuf := rfl
@[simp] theorem builtState_free (s : State) : (builtState s).free = s.free := rfl
@[simp] theorem builtState_ubuf (s : State) : (builtState s).ubuf = s.ubuf := rfl
@[simp] theorem builtState_ucnt (s : State) : (builtState s).ucnt = s.ucnt := rfl
@[simp] theorem builtState_inp (s : State) : (builtState s).inp = s.inp := rfl
@[simp] theorem builtState_out (s : State) : (builtState s).out = s.out := rfl
@[simp] theorem builtState_sout (s : State) : (builtState s).sout = s.sout := rfl

@[simp] theorem refill_cmds (b : Byte) (rest : List Byte) (s : State) : (refill b rest s).cmds = s.cmds := rfl
@[simp] theorem refill_cmdIx (b : Byte) (rest : List Byte) (s : State) : (refill b rest s).cmdIx = s.cmdIx := rfl
@[simp] theorem refill_freq (b : Byte) (rest : List Byte) (s : State) : (refill b rest s).freq = s.freq := rfl
@[simp] theorem refill_live (b : Byte) (rest : List Byte) (s : State) : (refill b rest s).live = s.live := rfl
@[simp] theorem refill_total (b : Byte) (rest : List Byte) (s : State) : (refill b rest s).total = s.total := rfl
@[simp] theorem refill_tv (b : Byte) (rest : List Byte) (s : State) : (refill b rest s).tv = s.tv := rfl
@[simp] theorem refill_fault (b : Byte) (rest : List Byte) (s : State) : (refill b rest s).fault = s.fault := rfl
@[simp] theorem refill_fcode (b : Byte) (rest : List Byte) (s : State) : (refill b rest s).fcode = s.fcode := rfl
@[simp] theorem refill_finfo (b : Byte) (rest : List Byte) (s : State) : (refill b rest s).finfo = s.finfo := rfl
@[simp] theorem refill_nodes (b : Byte) (rest : List Byte) (s : State) : (refill b rest s).nodes = s.nodes := rfl
@[simp] theorem refill_leafv (b : Byte) (rest : List Byte) (s : State) : (refill b rest s).leafv = s.leafv := rfl
@[simp] theorem refill_root (b : Byte) (rest : List Byte) (s : State) : (refill b rest s).root = s.root := rfl
@[simp] theorem refill_cur (b : Byte) (rest : List Byte) (s : State) : (refill b rest s).cur = s.cur := rfl
@[simp] theorem refill_nleaf (b : Byte) (rest : List Byte) (s : State) : (refill b rest s).nleaf = s.nleaf := rfl
@[simp] theorem refill_nint (b : Byte) (rest : List Byte) (s : State) : (refill b rest s).nint = s.nint := rfl
@[simp] theorem refill_code (b : Byte) (rest : List Byte) (s : State) : (refill b rest s).code = s.code := rfl
@[simp] theorem refill_clen (b : Byte) (rest : List Byte) (s : State) : (refill b rest s).clen = s.clen := rfl
@[simp] theorem refill_sym (b : Byte) (rest : List Byte) (s : State) : (refill b rest s).sym = s.sym := rfl
@[simp] theorem refill_res (b : Byte) (rest : List Byte) (s : State) : (refill b rest s).res = s.res := rfl
@[simp] theorem refill_pbuf (b : Byte) (rest : List Byte) (s : State) : (refill b rest s).pbuf = s.pbuf := rfl
@[simp] theorem refill_free (b : Byte) (rest : List Byte) (s : State) : (refill b rest s).free = s.free := rfl
@[simp] theorem refill_ubuf (b : Byte) (rest : List Byte) (s : State) : (refill b rest s).ubuf = b := rfl
@[simp] theorem refill_ucnt (b : Byte) (rest : List Byte) (s : State) : (refill b rest s).ucnt = 8#4 := rfl
@[simp] theorem refill_inp (b : Byte) (rest : List Byte) (s : State) : (refill b rest s).inp = rest := rfl
@[simp] theorem refill_out (b : Byte) (rest : List Byte) (s : State) : (refill b rest s).out = s.out := rfl
@[simp] theorem refill_sout (b : Byte) (rest : List Byte) (s : State) : (refill b rest s).sout = s.sout := rfl

@[simp] theorem takeBit_snd_cmds (s : State) : ((takeBit s).2).cmds = s.cmds := rfl
@[simp] theorem takeBit_snd_cmdIx (s : State) : ((takeBit s).2).cmdIx = s.cmdIx := rfl
@[simp] theorem takeBit_snd_freq (s : State) : ((takeBit s).2).freq = s.freq := rfl
@[simp] theorem takeBit_snd_live (s : State) : ((takeBit s).2).live = s.live := rfl
@[simp] theorem takeBit_snd_total (s : State) : ((takeBit s).2).total = s.total := rfl
@[simp] theorem takeBit_snd_tv (s : State) : ((takeBit s).2).tv = s.tv := rfl
@[simp] theorem takeBit_snd_fault (s : State) : ((takeBit s).2).fault = s.fault := rfl
@[simp] theorem takeBit_snd_fcode (s : State) : ((takeBit s).2).fcode = s.fcode := rfl
@[simp] theorem takeBit_snd_finfo (s : State) : ((takeBit s).2).finfo = s.finfo := rfl
@[simp] theorem takeBit_snd_nodes (s : State) : ((takeBit s).2).nodes = s.nodes := rfl
@[simp] theorem takeBit_snd_leafv (s : State) : ((takeBit s).2).leafv = s.leafv := rfl
@[simp] theorem takeBit_snd_root (s : State) : ((takeBit s).2).root = s.root := rfl
@[simp] theorem takeBit_snd_cur (s : State) : ((takeBit s).2).cur = s.cur := rfl
@[simp] theorem takeBit_snd_nleaf (s : State) : ((takeBit s).2).nleaf = s.nleaf := rfl
@[simp] theorem takeBit_snd_nint (s : State) : ((takeBit s).2).nint = s.nint := rfl
@[simp] theorem takeBit_snd_code (s : State) : ((takeBit s).2).code = s.code := rfl
@[simp] theorem takeBit_snd_clen (s : State) : ((takeBit s).2).clen = s.clen := rfl
@[simp] theorem takeBit_snd_sym (s : State) : ((takeBit s).2).sym = s.sym := rfl
@[simp] theorem takeBit_snd_res (s : State) : ((takeBit s).2).res = s.res := rfl
@[simp] theorem takeBit_snd_pbuf (s : State) : ((takeBit s).2).pbuf = s.pbuf := rfl
@[simp] theorem takeBit_snd_free (s : State) : ((takeBit s).2).free = s.free := rfl
@[simp] theorem takeBit_snd_ubuf (s : State) : ((takeBit s).2).ubuf = s.ubuf <<< 1 := rfl
@[simp] theorem takeBit_snd_ucnt (s : State) : ((takeBit s).2).ucnt = s.ucnt - 1#4 := rfl
@[simp] theorem takeBit_snd_inp (s : State) : ((takeBit s).2).inp = s.inp := rfl
@[simp] theorem takeBit_snd_out (s : State) : ((takeBit s).2).out = s.out := rfl
@[simp] theorem takeBit_snd_sout (s : State) : ((takeBit s).2).sout = s.sout := rfl

@[simp] theorem clearState_cmds (s : State) : (clearState s).cmds = s.cmds := rfl
@[simp] theorem clearState_cmdIx (s : State) : (clearState s).cmdIx = s.cmdIx := rfl
@[simp] theorem clearState_freq (s : State) : (clearState s).freq = Vector.replicate 256 0#64 := rfl
@[simp] theorem clearState_live (s : State) : (clearState s).live = 0#9 := rfl
@[simp] theorem clearState_total (s : State) : (clearState s).total = 0#72 := rfl
@[simp] theorem clearState_tv (s : State) : (clearState s).tv = false := rfl
@[simp] theorem clearState_fault (s : State) : (clearState s).fault = false := rfl
@[simp] theorem clearState_fcode (s : State) : (clearState s).fcode = 0#8 := rfl
@[simp] theorem clearState_finfo (s : State) : (clearState s).finfo = 0#16 := rfl
@[simp] theorem clearState_nodes (s : State) : (clearState s).nodes = s.nodes := rfl
@[simp] theorem clearState_leafv (s : State) : (clearState s).leafv = s.leafv := rfl
@[simp] theorem clearState_root (s : State) : (clearState s).root = Config.null := rfl
@[simp] theorem clearState_cur (s : State) : (clearState s).cur = Config.null := rfl
@[simp] theorem clearState_nleaf (s : State) : (clearState s).nleaf = 0#9 := rfl
@[simp] theorem clearState_nint (s : State) : (clearState s).nint = 0#9 := rfl
@[simp] theorem clearState_code (s : State) : (clearState s).code = 0#255 := rfl
@[simp] theorem clearState_clen (s : State) : (clearState s).clen = 0#8 := rfl
@[simp] theorem clearState_sym (s : State) : (clearState s).sym = 0#8 := rfl
@[simp] theorem clearState_res (s : State) : (clearState s).res = 0#64 := rfl
@[simp] theorem clearState_pbuf (s : State) : (clearState s).pbuf = 0#8 := rfl
@[simp] theorem clearState_free (s : State) : (clearState s).free = 8#4 := rfl
@[simp] theorem clearState_ubuf (s : State) : (clearState s).ubuf = 0#8 := rfl
@[simp] theorem clearState_ucnt (s : State) : (clearState s).ucnt = 0#4 := rfl
@[simp] theorem clearState_inp (s : State) : (clearState s).inp = s.inp := rfl
@[simp] theorem clearState_out (s : State) : (clearState s).out = s.out := rfl
@[simp] theorem clearState_sout (s : State) : (clearState s).sout = s.sout := rfl

end Sys2Proof.Machine
end

