-- ==== Sys2Proof/Laws/Arena.lean ====
section
/-!
SUPPORT. What a read of the arena gives after each of its two writes, and the frequency table's list of live symbols.
-/

namespace Sys2Proof.Machine

theorem nodeAt_eq_none_iff (nodes : Vector Node 511) (n : NodeIx) : nodeAt nodes n = none ↔ n = Config.null := by
  unfold nodeAt
  rw [Vector.getElem?_eq_none_iff]
  constructor
  · intro h; apply BitVec.eq_of_toNat_eq; have := n.isLt; simp; omega
  · rintro rfl; simp

theorem exists_nodeAt {nodes : Vector Node 511} {n : NodeIx} (h : n ≠ Config.null) : ∃ nd, nodeAt nodes n = some nd :=
    by
  cases hn : nodeAt nodes n with
  | none => exact absurd ((nodeAt_eq_none_iff nodes n).1 hn) h
  | some nd => exact ⟨nd, rfl⟩

/-- A read after a write of one slot. -/
theorem nodeAt_setNode (nodes : Vector Node 511) {n : NodeIx} (nd : Node) (m : NodeIx) (h : n ≠ Config.null) :
    nodeAt (setNode nodes n nd) m = if m = n then some nd else nodeAt nodes m := by
  have hn : n.toNat < 511 := by
    have h1 := n.isLt
    have h2 : n.toNat ≠ 511 := fun h' => h (BitVec.eq_of_toNat_eq (by simpa using h'))
    omega
  unfold nodeAt setNode
  rw [Vector.getElem?_setIfInBounds]
  by_cases hm : m = n
  · subst hm; simp [hn]
  · have : ¬ n.toNat = m.toNat := fun h' => hm (BitVec.eq_of_toNat_eq h').symm
    simp [hm, this]

/-- A read after the write of one parent link. -/
theorem nodeAt_setParent (nodes : Vector Node 511) (n p m : NodeIx) :
    nodeAt (setParent nodes n p) m =
      if m = n then (nodeAt nodes n).map fun nd => { nd with parent := p } else nodeAt nodes m := by
  unfold setParent
  cases hn : nodeAt nodes n with
  | none => by_cases hm : m = n <;> simp [hm, hn]
  | some nd =>
    have hne : n ≠ Config.null := fun h => by simp [(nodeAt_eq_none_iff nodes n).2 h] at hn
    simp only [nodeAt_setNode nodes _ m hne, Option.map_some]

@[simp] theorem leafSlot_toNat (x : Symbol) : (leafSlot x).toNat = x.toNat := by
  have := x.isLt
  simp [leafSlot]
  omega

theorem leafSlot_lt (x : Symbol) : (leafSlot x).toNat < 256 := by
  have := x.isLt
  rw [leafSlot_toNat]
  omega

theorem leafSlot_injective : Function.Injective leafSlot := fun x y h => by
  apply BitVec.eq_of_toNat_eq
  simpa using congrArg BitVec.toNat h

theorem leafSlot_ne_null (x : Symbol) : leafSlot x ≠ Config.null := fun h => by
  have h1 := leafSlot_lt x
  rw [h] at h1
  simp at h1

theorem allSymbols_length : allSymbols.length = 256 := by simp [allSymbols]

theorem allSymbols_getElem (i : Nat) (h : i < allSymbols.length) : allSymbols[i] = BitVec.ofNat 8 i := by
  simp [allSymbols]

theorem allSymbols_nodup : allSymbols.Nodup := by
  unfold allSymbols
  refine (List.nodup_map_iff_inj_on List.nodup_range).2 ?_
  intro a ha b hb h
  have h' := congrArg BitVec.toNat h
  simp only [List.mem_range] at ha hb
  simp only [BitVec.toNat_ofNat] at h'
  omega

theorem mem_allSymbols (x : Symbol) : x ∈ allSymbols := by
  simp only [allSymbols, List.mem_map, List.mem_range]
  exact ⟨x.toNat, x.isLt, by simp⟩

/-- The pairs of a symbol and its count. -/
theorem mem_zip_counts (freq : Vector Count 256) (x : Symbol) (v : Count) :
    (x, v) ∈ allSymbols.zip freq.toList ↔ v = freq[x.toNat]'x.isLt := by
  rw [List.mem_iff_getElem]
  constructor
  · rintro ⟨i, hi, h⟩
    rw [List.getElem_zip, Prod.mk.injEq] at h
    obtain ⟨rfl, rfl⟩ := h
    have hi' : i < 256 := by
      have := hi
      simp [allSymbols_length] at this
      exact this
    simp [allSymbols_getElem, Nat.mod_eq_of_lt hi']
  · rintro rfl
    have hx := x.isLt
    refine ⟨x.toNat, ?_, ?_⟩
    · simp [allSymbols_length, hx]
    · simp [List.getElem_zip, allSymbols_getElem]

theorem mem_liveEntries (freq : Vector Count 256) (x : Symbol) (v : Count) :
    (x, v) ∈ liveEntries freq ↔ v = freq[x.toNat]'x.isLt ∧ v ≠ 0#64 := by
  unfold liveEntries
  rw [List.mem_filter, mem_zip_counts]
  simp

/-- The live symbols in ascending order. -/
def liveSymbols (freq : Vector Count 256) : List Symbol := (liveEntries freq).map Prod.fst

theorem mem_liveSymbols (freq : Vector Count 256) (x : Symbol) :
    x ∈ liveSymbols freq ↔ freq[x.toNat]'x.isLt ≠ 0#64 := by
  unfold liveSymbols
  rw [List.mem_map]
  constructor
  · rintro ⟨⟨y, v⟩, h, rfl⟩
    obtain ⟨rfl, h2⟩ := (mem_liveEntries freq y v).1 h
    exact h2
  · intro h
    exact ⟨(x, _), (mem_liveEntries freq x _).2 ⟨rfl, h⟩, rfl⟩

theorem zip_fst (freq : Vector Count 256) : (allSymbols.zip freq.toList).map Prod.fst = allSymbols :=
  List.map_fst_zip (by simp [allSymbols_length])

theorem zip_snd (freq : Vector Count 256) : (allSymbols.zip freq.toList).map Prod.snd = freq.toList :=
  List.map_snd_zip (by simp [allSymbols_length])

theorem liveSymbols_nodup (freq : Vector Count 256) : (liveSymbols freq).Nodup := by
  refine List.Nodup.sublist ?_ allSymbols_nodup
  rw [← zip_fst freq]
  exact List.Sublist.map _ List.filter_sublist

theorem liveSymbols_length_le (freq : Vector Count 256) : (liveSymbols freq).length ≤ 256 := by
  rw [← allSymbols_length, ← zip_fst freq, liveSymbols, List.length_map, List.length_map]
  exact List.length_filter_le _ _

end Sys2Proof.Machine
end

