-- ==== Sys2Proof/Laws/Bits.lean ====
section
/-!
SUPPORT. The bits of a byte, of `CODE`, of the packer and of the unpacker, in the order they travel (spec 20_memory.md
R61, R62, R72): what a pass of `PACK` appends (R151) and what `GetBit` delivers (R160).
-/

namespace Sys2Proof.Machine

@[simp] theorem byteBits_length (b : Byte) : (byteBits b).length = 8 := by simp [byteBits]

theorem byteBits_take (b : Byte) {m : Nat} (h : m ≤ 8) :
    (byteBits b).take m = (List.range m).map fun i => b.getLsbD (7 - i) := by
  rw [byteBits, ← List.map_take, List.take_range, Nat.min_eq_left h]

theorem getLsbD_of_mod_eq_zero {w : Nat} {b : BitVec w} {f i : Nat} (h : b.toNat % 2 ^ f = 0) (hi : i < f) :
    b.getLsbD i = false := by
  have h1 : (b.toNat % 2 ^ f).testBit i = false := by rw [h]; simp
  rw [Nat.testBit_mod_two_pow] at h1
  simpa [hi, BitVec.getLsbD] using h1

theorem mod_two_pow_eq_zero_of_getLsbD {w : Nat} {b : BitVec w} {f : Nat} (h : ∀ i < f, b.getLsbD i = false) :
    b.toNat % 2 ^ f = 0 := by
  apply Nat.eq_of_testBit_eq
  intro i
  rw [Nat.testBit_mod_two_pow]
  by_cases hi : i < f
  · have := h i hi
    simp only [BitVec.getLsbD] at this
    simp [this]
  · simp [hi]

/-! ### CODE -/

theorem bitsToNat_lt : ∀ l : List Bool, bitsToNat l < 2 ^ l.length
  | [] => by simp [bitsToNat]
  | b :: l => by
    have h1 := bitsToNat_lt l
    have h2 := Bool.toNat_le b
    simp only [bitsToNat, List.length_cons, Nat.pow_succ]
    omega

theorem bitsToNat_testBit : ∀ (l : List Bool) (i : Nat), (bitsToNat l).testBit i = l.getD i false
  | [], i => by simp [bitsToNat]
  | b :: l, 0 => by
    simp [bitsToNat, Nat.testBit_zero]
    cases b <;> simp
  | b :: l, i + 1 => by
    rw [Nat.testBit_succ]
    have : bitsToNat (b :: l) / 2 = bitsToNat l := by
      have := Bool.toNat_le b
      simp only [bitsToNat]
      omega
    rw [this, bitsToNat_testBit l i]
    simp

theorem codeOfEdges_toNat {e : List Bool} (h : e.length ≤ 255) : (codeOfEdges e).toNat = bitsToNat e := by
  rw [codeOfEdges, BitVec.toNat_ofNat, Nat.mod_eq_of_lt]
  exact lt_of_lt_of_le (bitsToNat_lt e) (Nat.pow_le_pow_right (by decide) h)

/-- The bits of `CODE` from position `len - 1` down (R21, R62). -/
def codeBitsOf (code : CodeReg) (len : Nat) : List Bool := (List.range len).map fun i => code.getLsbD (len - 1 - i)

theorem codeBits_eq (s : State) : codeBits s = codeBitsOf s.code s.clen.toNat := rfl

/-- The reversal of R140: the code is sent in the opposite order of the walk. -/
theorem codeBitsOf_codeOfEdges {c : List Bool} (h : c.length ≤ 255) :
    codeBitsOf (codeOfEdges c.reverse) c.length = c := by
  apply List.ext_getElem
  · simp [codeBitsOf]
  · intro i h1 h2
    simp only [codeBitsOf, List.getElem_map, List.getElem_range, BitVec.getLsbD,
      codeOfEdges_toNat (e := c.reverse) (by simpa using h), bitsToNat_testBit]
    rw [List.getD_eq_getElem _ _ (by simp; omega), List.getElem_reverse]
    congr 1
    omega

theorem codeChunk_getLsbD (code : CodeReg) {hi k : Nat} (hk : k ≤ 8) (i : Nat) :
    (codeChunk code hi k).getLsbD i = (decide (i < k) && code.getLsbD (hi - k + i)) := by
  unfold codeChunk
  rw [BitVec.getLsbD_and, BitVec.getLsbD_ushiftRight, BitVec.getLsbD_ofNat, Nat.testBit_two_pow_sub_one]
  by_cases h : i < k
  · have : i < 255 := by omega
    simp [h, this]
  · simp [h]

/-! ### The packer -/

/-- The bits packed so far (R72). -/
def packerBits (p : Packer) : List Bool := p.out.flatMap byteBits ++ (byteBits p.pbuf).take (8 - p.free.toNat)

/-- R150. -/
def PackerFine (p : Packer) : Prop := p.free.toNat ≤ 8 ∧ p.pbuf.toNat % 2 ^ p.free.toNat = 0

theorem packedBits_eq (s : State) : packedBits s = packerBits (packerOf s) := rfl

theorem packerBits_pushByte (p : Packer) : packerBits (pushByte p) = p.out.flatMap byteBits ++ byteBits p.pbuf := by
  simp [packerBits, pushByte]

theorem packerFine_pushByte (p : Packer) : PackerFine (pushByte p) := by simp [PackerFine, pushByte]

/-- `FLUSH` pads the last byte with zeros (R66, R153). -/
theorem packerBits_flush {p : Packer} (h : PackerFine p) :
    packerBits (pushByte p) = packerBits p ++ List.replicate p.free.toNat false := by
  obtain ⟨h1, h2⟩ := h
  rw [packerBits_pushByte, packerBits, List.append_assoc]
  congr 1
  rw [byteBits_take _ (by omega)]
  apply List.ext_getElem
  · simp; omega
  · intro i hi _
    simp only [byteBits_length] at hi
    rw [List.getElem_append]
    simp only [byteBits, List.getElem_map, List.getElem_range, List.length_map, List.length_range]
    split
    · rfl
    · rw [List.getElem_replicate]
      exact getLsbD_of_mod_eq_zero h2 (by omega)

theorem pushIfFull_spec {p : Packer} (h : PackerFine p) :
    PackerFine (pushIfFull p) ∧ packerBits (pushIfFull p) = packerBits p ∧ 1 ≤ (pushIfFull p).free.toNat ∧
      (pushIfFull p).free.toNat ≤ 8 := by
  unfold pushIfFull
  split
  · rename_i hf
    refine ⟨packerFine_pushByte p, ?_, by simp [pushByte], by simp [pushByte]⟩
    rw [packerBits_pushByte, packerBits]
    simp [hf]
  · rename_i hf
    refine ⟨h, rfl, ?_, h.1⟩
    have : p.free.toNat ≠ 0 := fun h' => hf (BitVec.eq_of_toNat_eq (by simpa using h'))
    omega

/-- One pass: the `k` highest-order bits not yet packed are appended (R151). -/
theorem packChunk_spec {p : Packer} (h : PackerFine p) (code : CodeReg) {len k : Nat} (hk : k ≤ p.free.toNat)
    (hl : k ≤ len) :
    PackerFine (packChunk code len k p) ∧
      packerBits (packChunk code len k p) =
        packerBits p ++ (List.range k).map fun j => code.getLsbD (len - 1 - j) := by
  obtain ⟨h1, h2⟩ := h
  have hfree : (packChunk code len k p).free.toNat = p.free.toNat - k := by
    simp only [packChunk, BitVec.toNat_ofNat]
    omega
  have hbit : ∀ i < 8, (packChunk code len k p).pbuf.getLsbD i =
      (p.pbuf.getLsbD i || (decide (p.free.toNat - k ≤ i) && decide (i - (p.free.toNat - k) < k) &&
        code.getLsbD (len - k + (i - (p.free.toNat - k))))) := by
    intro i hi
    simp only [packChunk, BitVec.getLsbD_or, BitVec.getLsbD_setWidth, BitVec.getLsbD_shiftLeft,
      codeChunk_getLsbD code (show k ≤ 8 by omega)]
    by_cases h3 : p.free.toNat - k ≤ i
    · have : ¬ i < p.free.toNat - k := by omega
      have h255 : i < 255 := by omega
      simp [hi, this, h3, h255]
    · have : i < p.free.toNat - k := by omega
      simp [hi, this, h3]
  refine ⟨⟨by rw [hfree]; omega, ?_⟩, ?_⟩
  · rw [hfree]
    apply mod_two_pow_eq_zero_of_getLsbD
    intro i hi
    rw [hbit i (by omega), getLsbD_of_mod_eq_zero h2 (by omega)]
    have : ¬ p.free.toNat - k ≤ i := by omega
    simp [this]
  · unfold packerBits
    rw [show (packChunk code len k p).out = p.out from rfl, List.append_assoc, hfree]
    congr 1
    rw [byteBits_take _ (by omega), byteBits_take _ (by omega),
      show 8 - (p.free.toNat - k) = (8 - p.free.toNat) + k by omega, List.range_add, List.map_append, List.map_map]
    congr 1
    · apply List.map_congr_left
      intro i hi
      rw [List.mem_range] at hi
      rw [hbit _ (by omega)]
      have : ¬ (7 - i - (p.free.toNat - k) < k) := by omega
      simp [this]
    · apply List.map_congr_left
      intro j hj
      rw [List.mem_range] at hj
      simp only [Function.comp]
      rw [hbit _ (by omega), getLsbD_of_mod_eq_zero h2 (by omega)]
      have h3 : p.free.toNat - k ≤ 7 - (8 - p.free.toNat + j) := by omega
      have h4 : 7 - (8 - p.free.toNat + j) - (p.free.toNat - k) < k := by omega
      have h5 : len - k + (7 - (8 - p.free.toNat + j) - (p.free.toNat - k)) = len - 1 - j := by omega
      rw [h5]
      simp [h3, h4]

/-- The loop of `PACK` appends the `len` low bits of `CODE`, the highest first (R151). -/
theorem packLoop_spec (code : CodeReg) : ∀ (fuel len : Nat) (p : Packer), len ≤ fuel → PackerFine p →
    PackerFine (packLoop code fuel len p) ∧ packerBits (packLoop code fuel len p) = packerBits p ++ codeBitsOf code len
  | 0, len, p, hl, h => by
    obtain rfl : len = 0 := by omega
    exact ⟨h, by simp [packLoop, codeBitsOf]⟩
  | fuel + 1, len, p, hl, h => by
    unfold packLoop
    split
    · rename_i h0
      subst h0
      exact ⟨h, by simp [codeBitsOf]⟩
    · rename_i h0
      obtain ⟨h1, h2, h3, h4⟩ := pushIfFull_spec h
      obtain ⟨h5, h6⟩ := packChunk_spec h1 code (len := len) (k := min len (pushIfFull p).free.toNat)
        (Nat.min_le_right _ _) (Nat.min_le_left _ _)
      obtain ⟨h7, h8⟩ := packLoop_spec code fuel (len - min len (pushIfFull p).free.toNat) _ (by omega) h5
      refine ⟨h7, ?_⟩
      rw [h8, h6, h2, List.append_assoc]
      congr 1
      have hle := Nat.min_le_left len (pushIfFull p).free.toNat
      generalize min len (pushIfFull p).free.toNat = k at hle ⊢
      simp only [codeBitsOf]
      conv_rhs => rw [show len = k + (len - k) by omega, List.range_add, List.map_append, List.map_map]
      congr 1
      · apply List.map_congr_left
        intro i _
        congr 1
        omega
      · apply List.map_congr_left
        intro i _
        simp only [Function.comp]
        congr 1
        omega

/-! ### The unpacker -/

theorem inputBits_length (s : State) (h : s.ucnt.toNat ≤ 8) : (inputBits s).length = bitsLeft s := by
  simp only [inputBits, bitsLeft, List.length_append, List.length_take, byteBits_length, List.length_flatMap]
  simp
  omega

theorem inputBits_takeBit {s : State} (h0 : s.ucnt ≠ 0#4) (h8 : s.ucnt.toNat ≤ 8) :
    inputBits s = (takeBit s).1 :: inputBits (takeBit s).2 := by
  have hpos : s.ucnt.toNat ≠ 0 := fun h => h0 (BitVec.eq_of_toNat_eq (by simpa using h))
  have hcnt : (s.ucnt - 1#4).toNat = s.ucnt.toNat - 1 := by
    rw [BitVec.toNat_sub]; simp; omega
  unfold inputBits
  simp only [takeBit_snd_ubuf, takeBit_snd_ucnt, takeBit_snd_inp, hcnt]
  rw [← List.cons_append]
  congr 1
  rw [byteBits_take _ h8, byteBits_take _ (by omega)]
  obtain ⟨n, hn⟩ : ∃ n, s.ucnt.toNat = n + 1 := ⟨s.ucnt.toNat - 1, by omega⟩
  rw [hn, List.range_succ_eq_map, List.map_cons, List.map_map, Nat.add_sub_cancel]
  congr 1
  · apply List.map_congr_left
    intro i hi
    rw [List.mem_range] at hi
    simp only [Function.comp, BitVec.getLsbD_shiftLeft]
    have h1 : 7 - i < 8 := by omega
    have h2 : ¬ 7 - i < 1 := by omega
    simp only [h1, h2, decide_true, decide_false, Bool.not_false, Bool.true_and]
    congr 1

/-- `s'` differs from `s` only by what reading bits and moving the cursor change. -/
structure Walked (s s' : State) : Prop where
  eq  : WalkFrame s s'
  inp : ∃ taken, s.inp = taken ++ s'.inp

theorem Walked.refl (s : State) : Walked s s := ⟨rfl, [], rfl⟩

theorem Walked.trans {s s' s'' : State} (h : Walked s s') (h' : Walked s' s'') : Walked s s'' := by
  obtain ⟨a, ha⟩ := h.inp
  obtain ⟨b, hb⟩ := h'.inp
  refine ⟨?_, a ++ b, by rw [ha, hb, List.append_assoc]⟩
  unfold WalkFrame
  rw [h'.eq, h.eq]

/-- Moving the cursor afterwards. -/
theorem Walked.move {s s' : State} (h : Walked s s') (n : NodeIx) : Walked s { s' with cur := n } :=
  ⟨by unfold WalkFrame; rw [h.eq], h.inp⟩

theorem takeBit_walked (s : State) : Walked s (takeBit s).2 := ⟨rfl, [], rfl⟩

/-- `GetBit` delivers the next bit (R160). -/
theorem getBit_cons {s s' : State} {b : Bool} (h8 : s.ucnt.toNat ≤ 8) (h : getBit s = some (b, s')) :
    inputBits s = b :: inputBits s' ∧ s'.ucnt.toNat ≤ 7 ∧ s'.cur = s.cur ∧ Walked s s' := by
  unfold getBit at h
  split at h
  · rename_i h0
    split at h
    · cases h
    · rename_i b0 rest hi
      have := inputBits_takeBit (s := refill b0 rest s) (by simp) (by simp)
      simp only [Option.some.injEq] at h
      rw [h] at this
      obtain rfl : (takeBit (refill b0 rest s)).2 = s' := by rw [h]
      refine ⟨?_, by simp, rfl, rfl, [b0], hi⟩
      rw [← this]
      simp [inputBits, h0, hi, byteBits]
  · rename_i h0
    simp only [Option.some.injEq] at h
    have := inputBits_takeBit h0 h8
    rw [h] at this
    obtain rfl : (takeBit s).2 = s' := by rw [h]
    refine ⟨this, ?_, rfl, takeBit_walked s⟩
    have hpos : s.ucnt.toNat ≠ 0 := fun h => h0 (BitVec.eq_of_toNat_eq (by simpa using h))
    rw [takeBit_snd_ucnt, BitVec.toNat_sub]; simp; omega

/-- Every bit delivered leaves one fewer, in any state. -/
theorem getBit_bitsLeft {s s' : State} {b : Bool} (h : getBit s = some (b, s')) : bitsLeft s = bitsLeft s' + 1 := by
  unfold getBit at h
  split at h
  · rename_i h0
    split at h
    · cases h
    · rename_i b0 rest hi
      simp only [Option.some.injEq] at h
      obtain rfl : (takeBit (refill b0 rest s)).2 = s' := by rw [h]
      rw [bitsLeft, bitsLeft, hi, h0]
      simp
      omega
  · rename_i h0
    simp only [Option.some.injEq] at h
    have hpos : s.ucnt.toNat ≠ 0 := fun h => h0 (BitVec.eq_of_toNat_eq (by simpa using h))
    obtain rfl : (takeBit s).2 = s' := by rw [h]
    rw [bitsLeft, bitsLeft, takeBit_snd_ucnt, takeBit_snd_inp, BitVec.toNat_sub]
    simp
    omega

/-- `GetBit` has a bit exactly when one is left (R160). -/
theorem getBit_eq_none_iff {s : State} (h8 : s.ucnt.toNat ≤ 8) : getBit s = none ↔ inputBits s = [] := by
  constructor
  · intro h
    unfold getBit at h
    split at h
    · rename_i h0
      split at h
      · rename_i hi
        simp [inputBits, h0, hi]
      · cases h
    · cases h
  · intro h
    cases hg : getBit s with
    | none => rfl
    | some r =>
      have := (getBit_cons (b := r.1) (s' := r.2) h8 hg).1
      rw [h] at this
      cases this

end Sys2Proof.Machine
end

