-- ==== Sys2Proof/Laws/TreeBuilder.lean ====
section
/-!
SUPPORT. What `BUILD`'s arena is (spec 41_tree_builder.md R120 to R131). `STree` is the tree value of R134 with the slot
of every node; `Forest` is what holds of the builder between two passes: its sequence `Q` lists the roots of a forest
whose slots are exactly the slots written so far.
-/

namespace Sys2Proof.Machine

/-- The tree value of R134 with the slots of its internal nodes. -/
inductive STree where
  | leaf (x : Symbol) (f : Nat)
  | two (n : NodeIx) (l r : STree) (f : Nat)
  | one (n : NodeIx) (l : STree) (f : Nat)

def STree.slot : STree → NodeIx
  | .leaf x _ => leafSlot x
  | .two n _ _ _ => n
  | .one n _ _ => n

def STree.freq : STree → Nat
  | .leaf _ f => f
  | .two _ _ _ f => f
  | .one _ _ f => f

@[simp] theorem STree.slot_leaf (x : Symbol) (f : Nat) : (STree.leaf x f).slot = leafSlot x := rfl

@[simp] theorem STree.slot_two (n : NodeIx) (l r : STree) (f : Nat) : (STree.two n l r f).slot = n := rfl

@[simp] theorem STree.slot_one (n : NodeIx) (l : STree) (f : Nat) : (STree.one n l f).slot = n := rfl

@[simp] theorem STree.freq_leaf (x : Symbol) (f : Nat) : (STree.leaf x f).freq = f := rfl

@[simp] theorem STree.freq_two (n : NodeIx) (l r : STree) (f : Nat) : (STree.two n l r f).freq = f := rfl

@[simp] theorem STree.freq_one (n : NodeIx) (l : STree) (f : Nat) : (STree.one n l f).freq = f := rfl

/-- The value without the slots. -/
def STree.erase : STree → HTree
  | .leaf x f => .leaf x f
  | .two _ l r f => .two l.erase r.erase f
  | .one _ l f => .one l.erase f

/-- The slots of all nodes. -/
def STree.slots : STree → List NodeIx
  | .leaf x _ => [leafSlot x]
  | .two n l r _ => n :: (l.slots ++ r.slots)
  | .one n l _ => n :: l.slots

/-- Frequencies are sums and internal nodes stand in internal slots. -/
def STree.Good : STree → Prop
  | .leaf _ _ => True
  | .two n l r f => f = l.freq + r.freq ∧ 256 ≤ n.toNat ∧ l.Good ∧ r.Good
  | .one n l f => f = l.freq ∧ 256 ≤ n.toNat ∧ l.Good

/-- Every internal node has exactly two children (90_conflicts.md C1: every tree of two or more leaves). -/
def STree.Full : STree → Prop
  | .leaf _ _ => True
  | .two _ l r _ => l.Full ∧ r.Full
  | .one _ _ _ => False

/-- The arena holds the tree, its root with parent link `p`. -/
def STree.Reps (nodes : Vector Node 511) : NodeIx → STree → Prop
  | p, .leaf x f => nodeAt nodes (leafSlot x) = some (leafRecord x f p)
  | p, .two n l r f =>
    nodeAt nodes n = some (innerRecord f p l.slot r.slot) ∧ l.Reps nodes n ∧ r.Reps nodes n
  | p, .one n l f => nodeAt nodes n = some (innerRecord f p l.slot Config.null) ∧ l.Reps nodes n

@[simp] theorem STree.treeFreq_erase (t : STree) : treeFreq t.erase = t.freq := by cases t <;> rfl

theorem STree.slot_mem_slots (t : STree) : t.slot ∈ t.slots := by cases t <;> simp [slot, slots]

/-- The record of a tree's root. -/
def STree.rootRecord (p : NodeIx) : STree → Node
  | .leaf x f => leafRecord x f p
  | .two _ l r f => innerRecord f p l.slot r.slot
  | .one _ l f => innerRecord f p l.slot Config.null

theorem STree.Reps.root {nodes : Vector Node 511} {p : NodeIx} {t : STree} (h : t.Reps nodes p) :
    nodeAt nodes t.slot = some (t.rootRecord p) := by
  cases t with
  | leaf x f => exact h
  | two n l r f => exact h.1
  | one n l f => exact h.1

theorem STree.Reps.slot_ne_null {nodes : Vector Node 511} {p : NodeIx} {t : STree} (h : t.Reps nodes p) :
    t.slot ≠ Config.null := fun h' => by
  have := h.root
  rw [(nodeAt_eq_none_iff nodes _).2 h'] at this
  cases this

@[simp] theorem STree.rootRecord_freq (p : NodeIx) (t : STree) : (t.rootRecord p).freq = BitVec.ofNat 72 t.freq := by
  cases t <;> rfl

@[simp] theorem STree.rootRecord_parent (p : NodeIx) (t : STree) : (t.rootRecord p).parent = p := by
  cases t <;> rfl

/-- A tree stays where it is when no slot of it is written. -/
theorem STree.Reps.frame {nodes nodes' : Vector Node 511} : ∀ {t : STree} {p : NodeIx}, t.Reps nodes p →
    (∀ m ∈ t.slots, nodeAt nodes' m = nodeAt nodes m) → t.Reps nodes' p
  | .leaf x f, p, h, hk => by
    rw [Reps, hk _ (by simp [slots])]; exact h
  | .two n l r f, p, h, hk => by
    refine ⟨?_, h.2.1.frame fun m hm => hk m ?_, h.2.2.frame fun m hm => hk m ?_⟩
    · rw [hk n (by simp [slots])]; exact h.1
    · simp [slots, hm]
    · simp [slots, hm]
  | .one n l f, p, h, hk => by
    refine ⟨?_, h.2.frame fun m hm => hk m ?_⟩
    · rw [hk n (by simp [slots])]; exact h.1
    · simp [slots, hm]

/-- Writing the parent link of a tree's root, and no other slot of it. -/
theorem STree.Reps.reparent {nodes nodes' : Vector Node 511} {t : STree} {p p' : NodeIx} (h : t.Reps nodes p)
    (hnd : t.slots.Nodup) (hroot : nodeAt nodes' t.slot = (nodeAt nodes t.slot).map fun nd => { nd with parent := p' })
    (hk : ∀ m ∈ t.slots, m ≠ t.slot → nodeAt nodes' m = nodeAt nodes m) : t.Reps nodes' p' := by
  rw [h.root] at hroot
  cases t with
  | leaf x f => exact hroot
  | two n l r f =>
    simp only [slots, List.nodup_cons, List.mem_append, not_or] at hnd
    refine ⟨hroot, h.2.1.frame fun m hm => hk m (by simp [slots, hm]) ?_,
      h.2.2.frame fun m hm => hk m (by simp [slots, hm]) ?_⟩
    · rintro rfl; exact hnd.1.1 hm
    · rintro rfl; exact hnd.1.2 hm
  | one n l f =>
    simp only [slots, List.nodup_cons] at hnd
    refine ⟨hroot, h.2.frame fun m hm => hk m (by simp [slots, hm]) ?_⟩
    rintro rfl; exact hnd.1 hm

/-- `Insert` on trees. -/
def STree.insert (t : STree) : List STree → List STree
  | [] => [t]
  | u :: rest => if t.freq ≤ u.freq then u :: insert t rest else t :: u :: rest

theorem STree.insert_perm (t : STree) : ∀ ts : List STree, (insert t ts).Perm (t :: ts)
  | [] => List.Perm.refl _
  | u :: rest => by
    unfold insert
    split
    · exact ((insert_perm t rest).cons u).trans (List.Perm.swap t u rest)
    · exact List.Perm.refl _

theorem STree.insert_erase (t : STree) : ∀ ts : List STree,
    (insert t ts).map erase = insertTree t.erase (ts.map erase)
  | [] => rfl
  | u :: rest => by
    unfold insert
    simp only [List.map_cons, insertTree, treeFreq_erase]
    split
    · simp [insert_erase t rest]
    · simp

theorem nodeFreq_of_reps {nodes : Vector Node 511} {p : NodeIx} {t : STree} (h : t.Reps nodes p)
    (hf : t.freq < 2 ^ 72) : (nodeFreq nodes t.slot).toNat = t.freq := by
  unfold nodeFreq
  rw [h.root]
  simpa using hf

/-- `Insert` on indices is `Insert` on the trees they stand for. -/
theorem insertNode_slots {nodes : Vector Node 511} {t : STree} (ht : t.Reps nodes Config.null) (hf : t.freq < 2 ^ 72) :
    ∀ {ts : List STree}, (∀ u ∈ ts, u.Reps nodes Config.null) → (∀ u ∈ ts, u.freq < 2 ^ 72) →
      insertNode nodes t.slot (ts.map STree.slot) = (t.insert ts).map STree.slot
  | [], _, _ => rfl
  | u :: rest, hr, hb => by
    simp only [List.map_cons, insertNode, STree.insert, nodeFreq_of_reps ht hf,
      nodeFreq_of_reps (hr u (by simp)) (hb u (by simp))]
    split
    · rw [List.map_cons, insertNode_slots ht hf (fun v hv => hr v (by simp [hv])) fun v hv => hb v (by simp [hv])]
    · simp

/-- The internal slots of a build that has made `k` internal nodes (R122). -/
def innerSlots (k : Nat) : List NodeIx := (List.range k).map fun i => BitVec.ofNat 9 (256 + i)

theorem innerSlots_succ (k : Nat) : innerSlots (k + 1) = innerSlots k ++ [BitVec.ofNat 9 (256 + k)] := by
  simp [innerSlots, List.range_succ]

theorem mem_innerSlots {k : Nat} (hk : k ≤ 255) (n : NodeIx) :
    n ∈ innerSlots k ↔ 256 ≤ n.toNat ∧ n.toNat < 256 + k := by
  simp only [innerSlots, List.mem_map, List.mem_range]
  constructor
  · rintro ⟨i, hi, rfl⟩
    simp only [BitVec.toNat_ofNat]
    omega
  · rintro ⟨h1, h2⟩
    refine ⟨n.toNat - 256, by omega, BitVec.eq_of_toNat_eq ?_⟩
    simp only [BitVec.toNat_ofNat]
    omega

theorem innerSlots_nodup {k : Nat} (hk : k ≤ 255) : (innerSlots k).Nodup := by
  refine (List.nodup_map_iff_inj_on List.nodup_range).2 ?_
  intro a ha b hb h
  have h' := congrArg BitVec.toNat h
  simp only [List.mem_range] at ha hb
  simp only [BitVec.toNat_ofNat] at h'
  omega

/-- The slots a build with live symbols `live` and `k` internal nodes has written (R128). -/
def writtenSlots (live : List Symbol) (k : Nat) : List NodeIx := live.map leafSlot ++ innerSlots k

theorem mem_writtenSlots {k : Nat} (hk : k ≤ 255) (live : List Symbol) (n : NodeIx) :
    n ∈ writtenSlots live k ↔ (∃ x ∈ live, n = leafSlot x) ∨ (256 ≤ n.toNat ∧ n.toNat < 256 + k) := by
  rw [writtenSlots, List.mem_append, mem_innerSlots hk]
  simp [eq_comm]

theorem writtenSlots_nodup {k : Nat} (hk : k ≤ 255) {live : List Symbol} (h : live.Nodup) :
    (writtenSlots live k).Nodup := by
  rw [writtenSlots, List.nodup_append]
  refine ⟨h.map leafSlot_injective, innerSlots_nodup hk, ?_⟩
  intro a ha b hb
  obtain ⟨x, -, rfl⟩ := List.mem_map.1 ha
  rintro rfl
  have h1 := leafSlot_lt x
  have h2 := ((mem_innerSlots hk _).1 hb).1
  omega

theorem writtenSlots_succ (live : List Symbol) (k : Nat) :
    (writtenSlots live (k + 1)).Perm (BitVec.ofNat 9 (256 + k) :: writtenSlots live k) := by
  rw [writtenSlots, writtenSlots, innerSlots_succ, ← List.append_assoc]
  exact (List.perm_append_singleton _ _)

theorem leafNode_eq (x : Symbol) (v : Count) : leafNode x v = leafRecord x v.toNat Config.null := by
  have : v.setWidth 72 = BitVec.ofNat 72 v.toNat := BitVec.eq_of_toNat_eq (by simp)
  rw [leafNode, leafRecord, this]

/-- What holds of the builder between two passes. `base` is the arena the build began with. -/
structure Forest (base : Vector Node 511) (b : Builder) (live : List Symbol) (k : Nat) (ts : List STree) : Prop where
  q_eq    : b.q = ts.map STree.slot
  reps    : ∀ t ∈ ts, t.Reps b.nodes Config.null
  good    : ∀ t ∈ ts, t.Good
  full    : ∀ t ∈ ts, t.Full
  perm    : (ts.flatMap STree.slots).Perm (writtenSlots live k)
  nint_eq : b.nint = BitVec.ofNat 9 k
  keep    : ∀ m, m ∉ writtenSlots live k → nodeAt b.nodes m = nodeAt base m

theorem Forest.slots_nodup {base : Vector Node 511} {b : Builder} {live : List Symbol} {k : Nat} {ts : List STree}
    (h : Forest base b live k ts) (hk : k ≤ 255) (hl : live.Nodup) : (ts.flatMap STree.slots).Nodup :=
  h.perm.nodup_iff.2 (writtenSlots_nodup hk hl)

/-- One live symbol: a new leaf joins the forest (R123). -/
theorem Forest.with_leaf {base : Vector Node 511} {b : Builder} {live : List Symbol} {ts : List STree}
    (h : Forest base b live 0 ts) {x : Symbol} {v : Count} (hx : x ∉ live) (hb : ∀ u ∈ ts, u.freq < 2 ^ 72) :
    Forest base (addLeaf b (x, v)) (live ++ [x]) 0 ((STree.leaf x v.toNat).insert ts) := by
  have hv : (STree.leaf x v.toNat).freq < 2 ^ 72 := by
    have := v.isLt; simp only [STree.freq_leaf]; omega
  have hmem : ∀ m, m ∈ writtenSlots live 0 → m ≠ leafSlot x := by
    intro m hm
    rcases (mem_writtenSlots (by omega) live m).1 hm with ⟨y, hy, rfl⟩ | ⟨h1, h2⟩
    · intro he; exact hx (leafSlot_injective he ▸ hy)
    · omega
  have hnodes : ∀ m, nodeAt (addLeaf b (x, v)).nodes m =
      if m = leafSlot x then some (leafNode x v) else nodeAt b.nodes m := fun m =>
    nodeAt_setNode _ _ m (leafSlot_ne_null x)
  have hleaf : (STree.leaf x v.toNat).Reps (addLeaf b (x, v)).nodes Config.null := by
    rw [STree.Reps, hnodes, if_pos rfl, leafNode_eq]
  have hts : ∀ t ∈ ts, t.Reps (addLeaf b (x, v)).nodes Config.null := by
    intro t ht
    refine (h.reps t ht).frame fun m hm => ?_
    rw [hnodes, if_neg (hmem m (h.perm.subset (List.mem_flatMap.2 ⟨t, ht, hm⟩)))]
  refine ⟨?_, ?_, ?_, ?_, ?_, h.nint_eq, ?_⟩
  · rw [← insertNode_slots hleaf hv hts hb, ← h.q_eq]; rfl
  · intro t ht
    rcases List.mem_cons.1 ((STree.insert_perm _ _).subset ht) with rfl | ht
    · exact hleaf
    · exact hts t ht
  · intro t ht
    rcases List.mem_cons.1 ((STree.insert_perm _ _).subset ht) with rfl | ht
    · trivial
    · exact h.good t ht
  · intro t ht
    rcases List.mem_cons.1 ((STree.insert_perm _ _).subset ht) with rfl | ht
    · trivial
    · exact h.full t ht
  · refine ((STree.insert_perm _ _).flatMap_right _).trans ?_
    rw [List.flatMap_cons]
    simp only [STree.slots]
    refine ((h.perm.cons (leafSlot x)).trans ?_)
    simp only [writtenSlots, innerSlots, List.range_zero, List.map_nil, List.append_nil, List.map_append, List.map_cons]
    exact (List.perm_append_singleton _ _).symm
  · intro m hm
    rw [hnodes, if_neg, h.keep m]
    · intro h'; apply hm
      simp only [writtenSlots, List.map_append, List.mem_append] at h' ⊢
      tauto
    · rintro rfl; apply hm
      simp [writtenSlots]

/-- One pass of the merge loop: the two trees at the tail become one (R125). -/
theorem Forest.with_merge {base : Vector Node 511} {b : Builder} {live : List Symbol} {k : Nat} {front : List STree}
    {ta tz : STree} (h : Forest base b live k (front ++ [ta, tz])) (hk : k + 1 ≤ 255) (hl : live.Nodup)
    (hb : ∀ u ∈ front, u.freq < 2 ^ 72) (hs : ta.freq + tz.freq < 2 ^ 72) :
    Forest base (mergePass b (front.map STree.slot) ta.slot tz.slot) live (k + 1)
      ((STree.two (BitVec.ofNat 9 (256 + k)) ta tz (ta.freq + tz.freq)).insert front) := by
  have hra := h.reps ta (by simp)
  have hrz := h.reps tz (by simp)
  have hnd := h.slots_nodup (by omega) hl
  simp only [List.flatMap_append, List.flatMap_cons, List.flatMap_nil, List.append_nil] at hnd
  obtain ⟨hndf, hnd2, hdis⟩ := List.nodup_append.1 hnd
  obtain ⟨hnda, hndz, hdis2⟩ := List.nodup_append.1 hnd2
  have hsub : ∀ t ∈ front ++ [ta, tz], ∀ m ∈ t.slots, m ∈ writtenSlots live k := fun t ht m hm =>
    h.perm.subset (List.mem_flatMap.2 ⟨t, ht, hm⟩)
  obtain ⟨p, hp⟩ : ∃ p, p = BitVec.ofNat 9 (256 + k) := ⟨_, rfl⟩
  have hpn : p.toNat = 256 + k := by rw [hp, BitVec.toNat_ofNat]; omega
  have hpw : p ∉ writtenSlots live k := fun hm => by
    rcases (mem_writtenSlots (by omega) live p).1 hm with ⟨y, -, hy⟩ | ⟨-, h2⟩
    · have := leafSlot_lt y; rw [← hy] at this; omega
    · omega
  have hpnull : p ≠ Config.null := fun h' => by rw [h'] at hpn; simp at hpn; omega
  have hap : ta.slot ≠ p := fun h' => hpw (h' ▸ hsub ta (by simp) _ ta.slot_mem_slots)
  have hzp : tz.slot ≠ p := fun h' => hpw (h' ▸ hsub tz (by simp) _ tz.slot_mem_slots)
  have haz : ta.slot ≠ tz.slot := hdis2 _ ta.slot_mem_slots _ tz.slot_mem_slots
  have hfa := nodeFreq_of_reps hra (by omega)
  have hfz := nodeFreq_of_reps hrz (by omega)
  have hnext : nextSlot b = p := by
    apply BitVec.eq_of_toNat_eq
    rw [nextSlot, h.nint_eq, hpn, BitVec.toNat_add, BitVec.toNat_ofNat, BitVec.toNat_ofNat]; omega
  have hrec : innerNode (nodeFreq b.nodes ta.slot + nodeFreq b.nodes tz.slot) ta.slot tz.slot =
      innerRecord (ta.freq + tz.freq) Config.null ta.slot tz.slot := by
    have : nodeFreq b.nodes ta.slot + nodeFreq b.nodes tz.slot = BitVec.ofNat 72 (ta.freq + tz.freq) := by
      apply BitVec.eq_of_toNat_eq
      rw [BitVec.toNat_add, hfa, hfz, BitVec.toNat_ofNat]
    rw [innerNode, innerRecord, this]
  obtain ⟨nodes', hn'⟩ : ∃ nodes', nodes' = (mergePass b (front.map STree.slot) ta.slot tz.slot).nodes := ⟨_, rfl⟩
  have hread : ∀ m, nodeAt nodes' m =
      if m = tz.slot then (nodeAt b.nodes m).map fun nd => { nd with parent := p }
      else if m = ta.slot then (nodeAt b.nodes m).map fun nd => { nd with parent := p }
      else if m = p then some (innerRecord (ta.freq + tz.freq) Config.null ta.slot tz.slot) else nodeAt b.nodes m := by
    intro m
    simp only [hn', mergePass, hnext, hrec, nodeAt_setParent, nodeAt_setNode _ _ _ hpnull, if_neg hap, if_neg hzp,
      if_neg haz.symm]
    by_cases h1 : m = tz.slot
    · subst h1; simp
    · by_cases h2 : m = ta.slot
      · subst h2; simp [h1]
      · simp [h1, h2]
  have hfront : ∀ t ∈ front, t.Reps nodes' Config.null := by
    intro t ht
    refine (h.reps t (by simp [ht])).frame fun m hm => ?_
    have hmf : m ∈ front.flatMap STree.slots := List.mem_flatMap.2 ⟨t, ht, hm⟩
    have h1 : m ≠ tz.slot := hdis m hmf _ (List.mem_append_right _ tz.slot_mem_slots)
    have h2 : m ≠ ta.slot := hdis m hmf _ (List.mem_append_left _ ta.slot_mem_slots)
    have h3 : m ≠ p := fun h' => hpw (h' ▸ hsub t (by simp [ht]) m hm)
    rw [hread, if_neg h1, if_neg h2, if_neg h3]
  have hnew : (STree.two p ta tz (ta.freq + tz.freq)).Reps nodes' Config.null := by
    refine ⟨?_, hra.reparent hnda ?_ fun m hm hm' => ?_, hrz.reparent hndz ?_ fun m hm hm' => ?_⟩
    · rw [hread, if_neg hzp.symm, if_neg hap.symm, if_pos rfl]
    · rw [hread, if_neg haz, if_pos rfl]
    · have h1 : m ≠ tz.slot := hdis2 m hm _ tz.slot_mem_slots
      have h3 : m ≠ p := fun h' => hpw (h' ▸ hsub ta (by simp) m hm)
      rw [hread, if_neg h1, if_neg hm', if_neg h3]
    · rw [hread, if_pos rfl]
    · have h1 : m ≠ ta.slot := fun h' => hdis2 _ ta.slot_mem_slots m hm h'.symm
      have h3 : m ≠ p := fun h' => hpw (h' ▸ hsub tz (by simp) m hm)
      rw [hread, if_neg hm', if_neg h1, if_neg h3]
  rw [← hp]
  refine ⟨?_, ?_, ?_, ?_, ?_, ?_, ?_⟩
  · have := insertNode_slots hnew hs hfront hb
    rw [← this, hn']
    simp only [mergePass, hnext, STree.slot]
  · rw [← hn']
    intro t ht
    rcases List.mem_cons.1 ((STree.insert_perm _ _).subset ht) with rfl | ht
    · exact hnew
    · exact hfront t ht
  · intro t ht
    rcases List.mem_cons.1 ((STree.insert_perm _ _).subset ht) with rfl | ht
    · exact ⟨rfl, by omega, h.good ta (by simp), h.good tz (by simp)⟩
    · exact h.good t (by simp [ht])
  · intro t ht
    rcases List.mem_cons.1 ((STree.insert_perm _ _).subset ht) with rfl | ht
    · exact ⟨h.full ta (by simp), h.full tz (by simp)⟩
    · exact h.full t (by simp [ht])
  · refine ((STree.insert_perm _ _).flatMap_right _).trans ?_
    rw [List.flatMap_cons]
    simp only [STree.slots, List.cons_append]
    refine List.Perm.trans ?_ (hp ▸ (writtenSlots_succ live k).symm)
    refine List.Perm.cons p ?_
    refine List.Perm.trans List.perm_append_comm ?_
    have := h.perm
    simpa only [List.flatMap_append, List.flatMap_cons, List.flatMap_nil, List.append_nil] using this
  · simp only [mergePass, h.nint_eq]
    apply BitVec.eq_of_toNat_eq
    simp
  · intro m hm
    have hm' : m ∉ writtenSlots live k := fun h' => hm ((writtenSlots_succ live k).symm.subset (by simp [h']))
    have h1 : m ≠ tz.slot := fun h' => hm' (h' ▸ hsub tz (by simp) _ tz.slot_mem_slots)
    have h2 : m ≠ ta.slot := fun h' => hm' (h' ▸ hsub ta (by simp) _ ta.slot_mem_slots)
    have h3 : m ≠ p := fun h' => hm ((writtenSlots_succ live k).symm.subset (by simp [h', hp]))
    rw [← hn', hread, if_neg h1, if_neg h2, if_neg h3, h.keep m hm']

theorem STree.insert_freq_sum (t : STree) (ts : List STree) :
    ((t.insert ts).map STree.freq).sum = t.freq + (ts.map STree.freq).sum := by
  have := ((STree.insert_perm t ts).map STree.freq).sum_eq
  simpa using this

theorem STree.insert_length (t : STree) (ts : List STree) : (t.insert ts).length = ts.length + 1 :=
  (STree.insert_perm t ts).length_eq

theorem freq_le_sum {ts : List STree} {t : STree} (h : t ∈ ts) : t.freq ≤ (ts.map STree.freq).sum :=
  List.single_le_sum (by simp) _ (List.mem_map_of_mem h)

theorem exists_eq_append_last {ts : List STree} (h : 0 < ts.length) : ∃ front z, ts = front ++ [z] :=
  ⟨ts.dropLast, ts.getLast (List.ne_nil_of_length_pos h), (List.dropLast_append_getLast _).symm⟩

/-- `merge` on trees with slots: the k-th internal node made takes slot `256 + k` (R122, R134). -/
def STree.mergeAll : Nat → Nat → List STree → Option STree
  | 0, _, _ => none
  | n + 1, k, ts =>
    match ts.reverse with
    | [] => none
    | [x] => some x
    | z :: a :: front =>
      mergeAll n (k + 1) ((STree.two (BitVec.ofNat 9 (256 + k)) a z (a.freq + z.freq)).insert front.reverse)

/-- The merge loop (R125, R126): one tree is left, it is the one `mergeTrees` makes, and its root is the internal node
made last. -/
theorem mergeLoop_forest {base : Vector Node 511} {live : List Symbol} (hl : live.Nodup) (hlen : live.length ≤ 256) :
    ∀ (n : Nat) (b : Builder) (k : Nat) (ts : List STree), Forest base b live k ts → ts.length = n + 1 →
      k + ts.length = live.length → (ts.map STree.freq).sum < 2 ^ 72 →
      ∃ t, Forest base (mergeLoop (n + 1) b) live (k + n) [t] ∧ t.freq = (ts.map STree.freq).sum ∧
        mergeTrees (n + 1) (ts.map STree.erase) = some t.erase ∧ STree.mergeAll (n + 1) k ts = some t ∧
        ((n = 0 ∧ ts = [t]) ∨ ∃ l r f, t = .two (BitVec.ofNat 9 (255 + (k + n))) l r f)
  | 0, b, k, ts, h, h1, h2, h3 => by
    obtain ⟨t, rfl⟩ := List.length_eq_one_iff.1 h1
    refine ⟨t, ?_, by simp, by simp [mergeTrees], by simp [STree.mergeAll], Or.inl ⟨rfl, rfl⟩⟩
    have hq := h.q_eq
    simp only [mergeLoop, hq, List.map_cons, List.map_nil, List.reverse_cons, List.reverse_nil, List.nil_append]
    exact h
  | n + 1, b, k, ts, h, h1, h2, h3 => by
    obtain ⟨front, ta, tz, rfl⟩ : ∃ front ta tz, ts = front ++ [ta, tz] := by
      obtain ⟨ts', tz, rfl⟩ := exists_eq_append_last (ts := ts) (by omega)
      obtain ⟨front, ta, rfl⟩ := exists_eq_append_last (ts := ts') (by simp at h1; omega)
      exact ⟨front, ta, tz, by simp⟩
    simp only [List.map_append, List.sum_append, List.map_cons, List.map_nil, List.sum_cons, List.sum_nil] at h3
    have hbf : ∀ u ∈ front, u.freq < 2 ^ 72 := fun u hu => by
      have := freq_le_sum hu; omega
    simp only [List.length_append, List.length_cons, List.length_nil] at h1 h2
    have hm := h.with_merge (by omega) hl hbf (by omega)
    obtain ⟨t, hf, hfreq, htree, hall, hroot⟩ := mergeLoop_forest hl hlen n _ (k + 1) _ hm
      (by rw [STree.insert_length]; omega) (by rw [STree.insert_length]; omega)
      (by rw [STree.insert_freq_sum]; simp only [STree.freq_two]; omega)
    have hloop : mergeLoop (n + 1 + 1) b =
        mergeLoop (n + 1) (mergePass b (front.map STree.slot) ta.slot tz.slot) := by
      conv_lhs => unfold mergeLoop
      simp [h.q_eq]
    have htr : mergeTrees (n + 1 + 1) ((front ++ [ta, tz]).map STree.erase) = mergeTrees (n + 1)
        (((STree.two (BitVec.ofNat 9 (256 + k)) ta tz (ta.freq + tz.freq)).insert front).map STree.erase) := by
      conv_lhs => unfold mergeTrees
      simp [STree.insert_erase, STree.erase]
    have hal : STree.mergeAll (n + 1 + 1) k (front ++ [ta, tz]) = STree.mergeAll (n + 1) (k + 1)
        ((STree.two (BitVec.ofNat 9 (256 + k)) ta tz (ta.freq + tz.freq)).insert front) := by
      conv_lhs => unfold STree.mergeAll
      simp
    refine ⟨t, ?_, ?_, ?_, ?_, ?_⟩
    · rw [hloop, show k + (n + 1) = k + 1 + n by omega]; exact hf
    · rw [hfreq, STree.insert_freq_sum]
      simp only [STree.freq_two, List.map_append, List.sum_append, List.map_cons, List.map_nil, List.sum_cons,
        List.sum_nil]
      omega
    · rw [htr, htree]
    · rw [hal, hall]
    · right
      rcases hroot with ⟨rfl, hroot⟩ | ⟨l, r, f, ht⟩
      · have hfr : front = [] := by cases front <;> simp_all
        subst hfr
        simp only [STree.insert, List.cons.injEq, and_true] at hroot
        exact ⟨ta, tz, _, by rw [← hroot]; congr 2; omega⟩
      · exact ⟨l, r, f, by rw [ht]; congr 2; omega⟩

end Sys2Proof.Machine
end

