-- ==== Sys2Proof/Laws/Build.lean ====
section
/-!
SUPPORT. Everything a build of a table with a live symbol gives (spec 41_tree_builder.md R120 to R131), said once.
-/

namespace Sys2Proof.Machine

/-- Steps 1 and 2 on trees, for a list of entries (R123). -/
def leafForest (es : List (Symbol × Count)) (ts : List STree) : List STree :=
  es.foldl (fun q e => (STree.leaf e.1 e.2.toNat).insert q) ts

/-- `tree(F)` of R134 with its slots: what the arena of a build holds depends on the table alone (R127). -/
def slotTree (freq : Vector Count 256) : Option STree :=
  match leafForest (liveEntries freq) [] with
  | [x] => some (.one 256#9 x x.freq)
  | q => STree.mergeAll q.length 0 q

/-- Steps 1 and 2 over a list of entries (R123). -/
theorem foldl_addLeaf {base : Vector Node 511} : ∀ (es : List (Symbol × Count)) (b : Builder) (live : List Symbol)
    (ts : List STree), Forest base b live 0 ts → ts.length = live.length → (live ++ es.map Prod.fst).Nodup →
      (∀ u ∈ ts, u.freq < 2 ^ 72 ∧ ∃ x f, u = .leaf x f) →
      ∃ ts', ts' = leafForest es ts ∧ Forest base (es.foldl addLeaf b) (live ++ es.map Prod.fst) 0 ts' ∧
        ts'.length = (live ++ es.map Prod.fst).length ∧
        ts'.map STree.erase = es.foldl (fun q e => insertTree (.leaf e.1 e.2.toNat) q) (ts.map STree.erase) ∧
        (ts'.map STree.freq).sum = (ts.map STree.freq).sum + (es.map fun e => e.2.toNat).sum ∧
        ∀ u ∈ ts', ∃ x f, u = .leaf x f
  | [], b, live, ts, h, hlen, _, hts => ⟨ts, rfl, by simpa using h, by simpa using hlen, rfl, by simp,
    fun u hu => (hts u hu).2⟩
  | (x, v) :: es, b, live, ts, h, hlen, hnd, hts => by
    have hx : x ∉ live := by
      intro hx
      have := (List.nodup_append.1 hnd).2.2 x hx x (by simp)
      exact this rfl
    have h1 := h.with_leaf hx (v := v) fun u hu => (hts u hu).1
    obtain ⟨ts', h0, h2, h3, h4, h5, h6⟩ := foldl_addLeaf es _ _ _ h1 (by simp [STree.insert_length, hlen])
      (by simpa using hnd) (by
        intro u hu
        rcases List.mem_cons.1 ((STree.insert_perm _ _).subset hu) with rfl | hu
        · have := v.isLt
          exact ⟨by simp only [STree.freq_leaf]; omega, x, _, rfl⟩
        · exact hts u hu)
    refine ⟨ts', h0, by simpa using h2, by simpa using h3, ?_, ?_, h6⟩
    · rw [h4, STree.insert_erase]; rfl
    · rw [h5, STree.insert_freq_sum]; simp; omega

theorem addLeaf_leafv (b : Builder) (e : Symbol × Count) : (addLeaf b e).leafv = b.leafv := rfl

theorem foldl_addLeaf_leafv : ∀ (es : List (Symbol × Count)) (b : Builder), (es.foldl addLeaf b).leafv = b.leafv
  | [], _ => rfl
  | e :: es, b => by rw [List.foldl_cons, foldl_addLeaf_leafv es, addLeaf_leafv]

theorem mergeLoop_leafv : ∀ (k : Nat) (b : Builder), (mergeLoop k b).leafv = b.leafv
  | 0, _ => rfl
  | k + 1, b => by
    unfold mergeLoop
    split
    · rw [mergeLoop_leafv k]; rfl
    · rfl

/-- The bits of `LEAFV` after a build: 1 exactly for the live symbols (R35, R123). -/
theorem buildArena_leafv (s : State) : (buildArena s).leafv = s.freq.map fun v => decide (v ≠ 0#64) := by
  have h : (addLeaves s).leafv = s.freq.map fun v => decide (v ≠ 0#64) := by
    rw [addLeaves, foldl_addLeaf_leafv]
  unfold buildArena joinLeaves
  split
  · exact h
  · rw [mergeLoop_leafv]; exact h

theorem sum_filter_counts (es : List (Symbol × Count)) :
    ((es.filter fun e => decide (e.2 ≠ 0#64)).map fun e => e.2.toNat).sum = (es.map fun e => e.2.toNat).sum := by
  induction es with
  | nil => rfl
  | cons e es ih =>
    by_cases h : e.2 = 0#64
    · simp only [ne_eq, h, not_true_eq_false, decide_false, Bool.false_eq_true, not_false_eq_true,
        List.filter_cons_of_neg, List.map_cons, List.sum_cons, BitVec.toNat_ofNat, Nat.zero_mod, Nat.zero_add]
      exact ih
    · simp only [ne_eq, h, not_false_eq_true, decide_true, List.filter_cons_of_pos, List.map_cons, List.sum_cons]
      exact congrArg _ ih

theorem sum_liveEntries (freq : Vector Count 256) :
    ((liveEntries freq).map fun e => e.2.toNat).sum = sumOfCounts freq := by
  rw [liveEntries, sum_filter_counts, sumOfCounts, ← zip_snd freq, List.map_map, zip_snd]
  rfl

theorem length_filter_counts (es : List (Symbol × Count)) :
    (es.filter fun e => decide (e.2 ≠ 0#64)).length = (es.map Prod.snd).countP fun v => decide (v ≠ 0#64) := by
  rw [List.countP_map, ← List.countP_eq_length_filter]
  rfl

theorem length_liveSymbols (freq : Vector Count 256) : (liveSymbols freq).length = liveCount freq := by
  rw [liveSymbols, List.length_map, liveEntries, length_filter_counts, zip_snd, liveCount]

theorem liveCount_le (freq : Vector Count 256) : liveCount freq ≤ 256 := by
  rw [← length_liveSymbols]
  exact liveSymbols_length_le freq

theorem sum_toNat_le : ∀ l : List Count, (l.map BitVec.toNat).sum ≤ l.length * (2 ^ 64 - 1)
  | [] => by simp
  | v :: l => by
    have := sum_toNat_le l
    have := v.isLt
    simp only [List.map_cons, List.sum_cons, List.length_cons, Nat.add_mul]
    omega

/-- The largest sum the table can hold (R31). -/
theorem sumOfCounts_le (freq : Vector Count 256) : sumOfCounts freq ≤ 2 ^ 72 - 256 := by
  have := sum_toNat_le freq.toList
  simp only [Vector.length_toList] at this
  unfold sumOfCounts
  omega

/-- Everything a build of a table with a live symbol gives. `t` is the tree with its slots. -/
structure Built (s : State) (t : STree) : Prop where
  q_eq   : (buildArena s).q = [t.slot]
  reps   : t.Reps (buildArena s).nodes Config.null
  good   : t.Good
  /-- the slots written are the leaves of the live symbols and the internal slots made (R128) -/
  perm   : t.slots.Perm (writtenSlots (liveSymbols s.freq) (buildArena s).nint.toNat)
  keep   : ∀ m, m ∉ writtenSlots (liveSymbols s.freq) (buildArena s).nint.toNat →
    nodeAt (buildArena s).nodes m = nodeAt s.nodes m
  /-- R126 -/
  nint   : (buildArena s).nint.toNat = max 1 (liveCount s.freq - 1)
  /-- R122 -/
  slot   : t.slot.toNat = 255 + (buildArena s).nint.toNat
  /-- R44 item 4 -/
  freq   : t.freq = sumOfCounts s.freq
  /-- R134 -/
  tree   : treeOf s.freq = some t.erase
  /-- R127 -/
  pure   : slotTree s.freq = some t
  /-- R124, R125 -/
  shape  : (liveCount s.freq = 1 ∧ ∃ x f, t = .one 256#9 (.leaf x f) f) ∨
    (2 ≤ liveCount s.freq ∧ t.Full ∧ ∃ n l r f, t = .two n l r f)

theorem addLeaves_forest (s : State) : ∃ ts, ts = leafForest (liveEntries s.freq) [] ∧ Forest s.nodes (addLeaves s)
    (liveSymbols s.freq) 0 ts ∧
    ts.length = liveCount s.freq ∧ ts.map STree.erase = leafTrees s.freq ∧
    (ts.map STree.freq).sum = sumOfCounts s.freq ∧ ∀ u ∈ ts, ∃ x f, u = STree.leaf x f := by
  have h0 : Forest s.nodes
      { nodes := s.nodes, leafv := s.freq.map fun v => decide (v ≠ 0#64), q := [], nint := 0#9 } [] 0 [] :=
    ⟨rfl, by simp, by simp, by simp, by simp [writtenSlots, innerSlots], rfl, fun _ _ => rfl⟩
  obtain ⟨ts, hp, h1, h2, h3, h4, h5⟩ := foldl_addLeaf (liveEntries s.freq) _ [] [] h0 rfl
    (liveSymbols_nodup s.freq) (by simp)
  refine ⟨ts, hp, h1, ?_, h3, ?_, h5⟩
  · rw [h2, ← length_liveSymbols]; rfl
  · rw [h4, ← sum_liveEntries]; simp

/-- `BUILD`'s arena, for every table with a live symbol. -/
theorem buildArena_built (s : State) (h : liveCount s.freq ≠ 0) : ∃ t, Built s t := by
  obtain ⟨ts, hpure, hf, hlen, htree, hsum, hleaf⟩ := addLeaves_forest s
  have hl := liveSymbols_nodup s.freq
  have h256 := liveSymbols_length_le s.freq
  have hlive := length_liveSymbols s.freq
  have hS := sumOfCounts_le s.freq
  by_cases h1 : liveCount s.freq = 1
  · obtain ⟨u, rfl⟩ := List.length_eq_one_iff.1 (hlen.trans h1)
    obtain ⟨x, f, rfl⟩ := hleaf u (by simp)
    have hr : (STree.leaf x f).Reps (addLeaves s).nodes Config.null := hf.reps _ (by simp)
    have hq : (addLeaves s).q = [leafSlot x] := hf.q_eq
    have hb : buildArena s = oneLeafParent (addLeaves s) (leafSlot x) := by
      unfold buildArena joinLeaves
      simp [hq]
    have hfsum : f = sumOfCounts s.freq := by simpa using hsum
    have hfreq : nodeFreq (addLeaves s).nodes (leafSlot x) = BitVec.ofNat 72 f := by
      apply BitVec.eq_of_toNat_eq
      have := nodeFreq_of_reps hr (by rw [STree.freq_leaf]; omega)
      simp only [STree.slot, STree.freq_leaf] at this
      rw [this, BitVec.toNat_ofNat, Nat.mod_eq_of_lt (by omega)]
    have hxw : leafSlot x ∈ writtenSlots (liveSymbols s.freq) 0 := hf.perm.subset (by simp [STree.slots])
    have hx256 : leafSlot x ≠ 256#9 := fun h' => by
      have := leafSlot_lt x; rw [h'] at this; simp at this
    have hread : ∀ m, nodeAt (buildArena s).nodes m =
        if m = leafSlot x then (nodeAt (addLeaves s).nodes m).map fun nd => { nd with parent := 256#9 }
        else if m = 256#9 then some (innerRecord f Config.null (leafSlot x) Config.null)
        else nodeAt (addLeaves s).nodes m := by
      intro m
      rw [hb]
      simp only [oneLeafParent, hfreq, nodeAt_setParent, nodeAt_setNode _ _ _ (show 256#9 ≠ Config.null by decide),
        if_neg hx256]
      by_cases h2 : m = leafSlot x
      · subst h2; simp
      · simp only [if_neg h2]; rfl
    have hnint : (buildArena s).nint = 1#9 := by rw [hb]; rfl
    refine ⟨.one 256#9 (.leaf x f) f, ?_, ⟨?_, ?_⟩, ?_, ?_, ?_, ?_, ?_, hfsum, ?_, ?_, Or.inl ⟨h1, x, f, rfl⟩⟩
    · rw [hb]; rfl
    · rw [hread, if_neg hx256.symm, if_pos rfl]; rfl
    · have : nodeAt (addLeaves s).nodes (leafSlot x) = some (leafRecord x f Config.null) := hr
      rw [STree.Reps, hread, if_pos rfl, this]; rfl
    · exact ⟨rfl, by simp, trivial⟩
    · rw [hnint]
      refine List.Perm.trans ?_ (writtenSlots_succ (liveSymbols s.freq) 0).symm
      simp only [STree.slots]
      have := hf.perm
      simp only [List.flatMap_cons, List.flatMap_nil, List.append_nil, STree.slots] at this
      exact this.cons _
    · intro m hm
      rw [hnint] at hm
      have hm' : m ∉ writtenSlots (liveSymbols s.freq) 0 := fun h' =>
        hm ((writtenSlots_succ _ 0).symm.subset (List.mem_cons_of_mem _ h'))
      have h2 : m ≠ leafSlot x := fun h' => hm' (h' ▸ hxw)
      have h3 : m ≠ 256#9 := fun h' => hm ((writtenSlots_succ _ 0).symm.subset (by simp [h']))
      rw [hread, if_neg h2, if_neg h3, hf.keep m hm']
    · rw [hnint, h1]; rfl
    · rw [hnint]; rfl
    · unfold treeOf
      rw [← htree]
      rfl
    · unfold slotTree
      rw [← hpure]
      rfl
  · obtain ⟨n, hn⟩ : ∃ n, liveCount s.freq = n + 2 := ⟨liveCount s.freq - 2, by omega⟩
    obtain ⟨t, hft, hfr, htr, hall, hroot⟩ := mergeLoop_forest hl h256 (n + 1) (addLeaves s) 0 ts hf (by omega)
      (by omega) (by omega)
    have hqlen : (addLeaves s).q.length = n + 2 := by rw [hf.q_eq, List.length_map]; omega
    have hb : buildArena s = mergeLoop (n + 1 + 1) (addLeaves s) := by
      unfold buildArena joinLeaves
      split
      · rename_i hq; rw [hq] at hqlen; simp at hqlen
      · rw [hqlen]
    have hnint : (buildArena s).nint.toNat = n + 1 := by
      rw [hb, hft.nint_eq, BitVec.toNat_ofNat]; omega
    have hts : ts ≠ [t] := fun h' => by rw [h'] at hlen; simp at hlen; omega
    obtain ⟨l, r, f, ht⟩ : ∃ l r f, t = .two (BitVec.ofNat 9 (255 + (0 + (n + 1)))) l r f := by
      rcases hroot with ⟨h', -⟩ | h'
      · omega
      · exact h'
    refine ⟨t, ?_, ?_, hft.good t (by simp), ?_, ?_, ?_, ?_, by rw [hfr, hsum], ?_, ?_,
      Or.inr ⟨by omega, hft.full t (by simp), ?_⟩⟩
    · rw [hb]; exact hft.q_eq
    · rw [hb]; exact hft.reps t (by simp)
    · rw [hnint]
      have := hft.perm
      simpa using this
    · rw [hnint, hb]
      have := hft.keep
      simpa using this
    · rw [hnint, hn]; omega
    · rw [hnint, ht, STree.slot, BitVec.toNat_ofNat]; omega
    · unfold treeOf
      have hlt : (leafTrees s.freq).length = n + 2 := by rw [← htree, List.length_map]; omega
      split
      · rename_i hq; rw [hq] at hlt; simp at hlt
      · rw [hlt, ← htree]; exact htr
    · have hlt : (leafForest (liveEntries s.freq) []).length = n + 2 := by rw [← hpure]; omega
      unfold slotTree
      split
      · rename_i hq; rw [hq] at hlt; simp at hlt
      · rw [hlt, ← hpure]; exact hall
    · exact ⟨_, l, r, f, ht⟩

end Sys2Proof.Machine
end

