-- ==== Sys2Proof/Laws/Counts.lean ====
section
/-!
SUPPORT. The frequency table and its two counters (spec 40_freq_table.md R110, R115; 10_state.md R32): what `SetF` does
to the sum of the counts and to the number of live symbols, and that it keeps both counters right.
-/

namespace Sys2Proof.Machine

theorem freqOf_setF (s : State) (x y : Symbol) (v : Count) :
    freqOf (setF s x v) y = if y = x then v else freqOf s y := by
  unfold freqOf
  rw [setF_freq]
  rw [Vector.getElem_set]
  by_cases h : y = x
  · subst h; simp
  · have : ¬ x.toNat = y.toNat := fun h' => h (BitVec.eq_of_toNat_eq h').symm
    simp [h, this]

/-- A sum of numbers after one of them is replaced. -/
theorem sum_map_set {α : Type} (f : α → Nat) : ∀ (l : List α) (i : Nat) (h : i < l.length) (v : α),
    ((l.set i v).map f).sum + f l[i] = (l.map f).sum + f v
  | a :: l, 0, _, v => by simp; omega
  | a :: l, i + 1, h, v => by
    have := sum_map_set f l i (by simpa using h) v
    simp only [List.set_cons_succ, List.map_cons, List.sum_cons, List.getElem_cons_succ]
    omega

theorem countP_eq_sum {α : Type} (p : α → Bool) (l : List α) : l.countP p = (l.map fun a => (p a).toNat).sum := by
  induction l with
  | nil => rfl
  | cons a l ih => rw [List.countP_cons, ih, List.map_cons, List.sum_cons]; cases p a <;> simp [Nat.add_comm]

theorem sumOfCounts_set (freq : Vector Count 256) (x : Symbol) (v : Count) :
    sumOfCounts (freq.set x.toNat v x.isLt) + (freq[x.toNat]'x.isLt).toNat = sumOfCounts freq + v.toNat := by
  have := sum_map_set BitVec.toNat freq.toList x.toNat (by simpa using x.isLt) v
  rw [← Vector.toList_set (h := x.isLt)] at this
  simpa [sumOfCounts] using this

theorem liveCount_set (freq : Vector Count 256) (x : Symbol) (v : Count) :
    liveCount (freq.set x.toNat v x.isLt) + (decide (freq[x.toNat]'x.isLt ≠ 0#64)).toNat =
      liveCount freq + (decide (v ≠ 0#64)).toNat := by
  have := sum_map_set (fun v : Count => (decide (v ≠ 0#64)).toNat) freq.toList x.toNat (by simpa using x.isLt) v
  unfold liveCount
  rw [countP_eq_sum, countP_eq_sum]
  rw [← Vector.toList_set (h := x.isLt)] at this
  simpa using this

theorem freqOf_le_sumOfCounts (s : State) (x : Symbol) : (freqOf s x).toNat ≤ sumOfCounts s.freq := by
  have h := sumOfCounts_set s.freq x 0#64
  have : (freqOf s x) = s.freq[x.toNat]'x.isLt := rfl
  rw [this]
  simp only [BitVec.toNat_ofNat, Nat.zero_mod, Nat.add_zero] at h
  omega

theorem liveCount_pos_of_freqOf {s : State} {x : Symbol} (h : freqOf s x ≠ 0#64) : liveCount s.freq ≠ 0 := by
  have h1 := liveCount_set s.freq x 0#64
  have h2 : s.freq[x.toNat]'x.isLt ≠ 0#64 := h
  simp only [ne_eq, h2, not_false_eq_true, decide_true, not_true_eq_false, decide_false, Bool.toNat_true,
    Bool.toNat_false] at h1
  omega

theorem sum_toNat_eq_zero : ∀ l : List Count, (l.map BitVec.toNat).sum = 0 ↔ l.countP (fun v => decide (v ≠ 0#64)) = 0
  | [] => by simp
  | v :: l => by
    have h := sum_toNat_eq_zero l
    simp only [List.map_cons, List.sum_cons, List.countP_cons]
    by_cases hv : v = 0#64
    · subst hv; simpa using h
    · have : v.toNat ≠ 0 := fun h' => hv (BitVec.eq_of_toNat_eq (by simpa using h'))
      simp [hv, this]

/-- The table is all zero exactly when its sum is, and exactly when no symbol is live (R28, R115). -/
theorem sumOfCounts_eq_zero_iff (freq : Vector Count 256) : sumOfCounts freq = 0 ↔ liveCount freq = 0 :=
  sum_toNat_eq_zero freq.toList

theorem exists_live {s : State} (h : liveCount s.freq ≠ 0) : ∃ x, freqOf s x ≠ 0#64 := by
  rw [← length_liveSymbols] at h
  obtain ⟨x, hx⟩ := List.exists_mem_of_length_pos (Nat.pos_of_ne_zero h)
  exact ⟨x, (mem_liveSymbols s.freq x).1 hx⟩

/-- With no live symbol the table is all zero. -/
theorem freq_eq_replicate {freq : Vector Count 256} (h : liveCount freq = 0) : freq = Vector.replicate 256 0#64 := by
  rw [liveCount, List.countP_eq_zero] at h
  apply Vector.ext
  intro i hi
  have h1 := h freq[i] (by rw [Vector.mem_toList_iff]; exact Vector.getElem_mem hi)
  simpa using h1

/-- `SetF` keeps both counters right (R32, R110). -/
theorem setF_countsOk {s : State} (h : CountsOk s) (x : Symbol) (v : Count) : CountsOk (setF s x v) := by
  obtain ⟨h1, h2⟩ := h
  have hs := sumOfCounts_set s.freq x v
  have hl := liveCount_set s.freq x v
  have ha : sumOfCounts (setF s x v).freq ≤ _ := sumOfCounts_le _
  have hb : liveCount (setF s x v).freq ≤ 256 := liveCount_le _
  have hf := freqOf_le_sumOfCounts s x
  have hv := v.isLt
  have hw := (freqOf s x).isLt
  have ht := s.total.isLt
  have hlt := s.live.isLt
  change _ + (freqOf s x).toNat = _ at hs
  change _ + (decide (freqOf s x ≠ 0#64)).toNat = _ at hl
  rw [setF_freq] at ha hb
  constructor
  · rw [setF_total, setF_freq, BitVec.toNat_add, BitVec.toNat_sub, BitVec.toNat_setWidth, BitVec.toNat_setWidth]
    omega
  · rw [setF_live, setF_freq, BitVec.toNat_add, BitVec.toNat_sub]
    by_cases ho : freqOf s x = 0#64 <;> by_cases hn : v = 0#64
    · rw [ho, hn] at hl
      simp [ho, hn] at hl ⊢
      omega
    · simp [ho, hn] at hl ⊢
      omega
    · simp [ho, hn] at hl ⊢
      omega
    · simp [ho, hn] at hl ⊢
      omega

/-- What `SetF` does, on numbers (R110). -/
theorem setF_writes {s : State} (hk : CountsOk s) (x : Symbol) (v : Count) : WritesCount s x v (setF s x v) := by
  have hk' := setF_countsOk hk x v
  have hs := sumOfCounts_set s.freq x v
  have hl := liveCount_set s.freq x v
  change _ + (freqOf s x).toNat = _ at hs
  change _ + (decide (freqOf s x ≠ 0#64)).toNat = _ at hl
  refine ⟨rfl, fun y => freqOf_setF s x y v, ?_, ?_⟩
  · rw [hk'.1, hk.1, setF_freq]; omega
  · rw [hk'.2, hk.2, setF_freq]
    by_cases h1 : freqOf s x = 0#64 <;> by_cases h2 : v = 0#64 <;>
      simp only [ne_eq, h1, h2, not_true_eq_false, not_false_eq_true, decide_false, decide_true, Bool.toNat_false,
        Bool.toNat_true, if_true, if_false] at hl ⊢ <;> omega

/-- `LIVE` is zero exactly when no symbol is live (R32). -/
theorem live_eq_zero_iff {s : State} (h : CountsOk s) : s.live = 0#9 ↔ liveCount s.freq = 0 := by
  rw [← h.2]
  constructor
  · intro h'; rw [h']; rfl
  · intro h'; exact BitVec.eq_of_toNat_eq (by simpa using h')

/-- `TOTAL` is zero exactly when no symbol is live (R28, R32). -/
theorem total_eq_zero_iff {s : State} (h : CountsOk s) : s.total = 0#72 ↔ liveCount s.freq = 0 := by
  rw [← sumOfCounts_eq_zero_iff, ← h.1]
  constructor
  · intro h'; rw [h']; rfl
  · intro h'; exact BitVec.eq_of_toNat_eq (by simpa using h')

end Sys2Proof.Machine
end

