-- ==== Sys2Proof/Laws/TreeWalk.lean ====
section
/-!
SUPPORT. Walks in a tree the arena holds: up from a leaf (R140), down by bits (R161), and the code of a symbol as a
value (R134): its length, that it leads to its leaf, and that no code is a prefix of another (R131, R132).
-/

namespace Sys2Proof.Machine

/-- The number of internal nodes. -/
def STree.inner : STree → Nat
  | .leaf _ _ => 0
  | .two _ l r _ => l.inner + r.inner + 1
  | .one _ l _ => l.inner + 1

/-- The code of a symbol in a tree with slots. -/
def STree.code (t : STree) (x : Symbol) : Option (List Bool) := treeCode t.erase x

theorem STree.code_leaf (y : Symbol) (f : Nat) (x : Symbol) (c : List Bool) :
    (STree.leaf y f).code x = some c ↔ y = x ∧ c = [] := by
  simp only [code, erase, treeCode]
  split <;> simp_all [eq_comm]

theorem STree.code_two (n : NodeIx) (l r : STree) (f : Nat) (x : Symbol) (c : List Bool) :
    (STree.two n l r f).code x = some c ↔
      (∃ d, l.code x = some d ∧ c = false :: d) ∨ (l.code x = none ∧ ∃ d, r.code x = some d ∧ c = true :: d) := by
  simp only [code, erase, treeCode]
  cases treeCode l.erase x <;> simp [eq_comm]

theorem STree.code_one (n : NodeIx) (l : STree) (f : Nat) (x : Symbol) (c : List Bool) :
    (STree.one n l f).code x = some c ↔ ∃ d, l.code x = some d ∧ c = false :: d := by
  simp only [code, erase, treeCode]
  cases treeCode l.erase x <;> simp [eq_comm]

/-- Two arenas that hold the same tree agree on its slots. -/
theorem STree.Reps.agree {nodes nodes' : Vector Node 511} : ∀ {t : STree} {p : NodeIx}, t.Reps nodes p →
    t.Reps nodes' p → ∀ m ∈ t.slots, nodeAt nodes m = nodeAt nodes' m
  | .leaf x f, p, h, h', m, hm => by
    rw [slots, List.mem_singleton] at hm
    rw [hm, show nodeAt nodes _ = _ from h, show nodeAt nodes' _ = _ from h']
  | .two n l r f, p, h, h', m, hm => by
    rcases List.mem_cons.1 hm with rfl | hm
    · rw [h.1, h'.1]
    · rcases List.mem_append.1 hm with hm | hm
      · exact h.2.1.agree h'.2.1 m hm
      · exact h.2.2.agree h'.2.2 m hm
  | .one n l f, p, h, h', m, hm => by
    rcases List.mem_cons.1 hm with rfl | hm
    · rw [h.1, h'.1]
    · exact h.2.agree h'.2 m hm

theorem STree.code_length_le : ∀ {t : STree} {x : Symbol} {c : List Bool}, t.code x = some c → c.length ≤ t.inner
  | .leaf y f, x, c, h => by
    obtain ⟨-, rfl⟩ := (code_leaf y f x c).1 h
    simp
  | .two n l r f, x, c, h => by
    rcases (code_two n l r f x c).1 h with ⟨d, hd, rfl⟩ | ⟨-, d, hd, rfl⟩ <;>
    · have := code_length_le hd
      simp only [List.length_cons, inner]
      omega
  | .one n l f, x, c, h => by
    obtain ⟨d, hd, rfl⟩ := (code_one n l f x c).1 h
    have := code_length_le hd
    simp only [List.length_cons, inner]
    omega

theorem STree.exists_code : ∀ {t : STree} {x : Symbol}, t.Good → leafSlot x ∈ t.slots → ∃ c, t.code x = some c
  | .leaf y f, x, _, h => by
    rw [slots, List.mem_singleton] at h
    exact ⟨[], (code_leaf y f x []).2 ⟨leafSlot_injective h.symm, rfl⟩⟩
  | .two n l r f, x, hg, h => by
    have hx := leafSlot_lt x
    rcases List.mem_cons.1 h with h | h
    · rw [h] at hx; exact absurd hg.2.1 (by omega)
    · cases hl : l.code x with
      | some d => exact ⟨false :: d, (code_two n l r f x _).2 (Or.inl ⟨d, hl, rfl⟩)⟩
      | none =>
        rcases List.mem_append.1 h with h | h
        · obtain ⟨c, hc⟩ := exists_code hg.2.2.1 h
          rw [hl] at hc; cases hc
        · obtain ⟨c, hc⟩ := exists_code hg.2.2.2 h
          exact ⟨true :: c, (code_two n l r f x _).2 (Or.inr ⟨hl, c, hc, rfl⟩)⟩
  | .one n l f, x, hg, h => by
    have hx := leafSlot_lt x
    rcases List.mem_cons.1 h with h | h
    · rw [h] at hx; exact absurd hg.2.1 (by omega)
    · obtain ⟨c, hc⟩ := exists_code hg.2.2 h
      exact ⟨false :: c, (code_one n l f x _).2 ⟨c, hc, rfl⟩⟩

theorem STree.mem_slots_of_code : ∀ {t : STree} {x : Symbol} {c : List Bool}, t.code x = some c → leafSlot x ∈ t.slots
  | .leaf y f, x, c, h => by
    obtain ⟨rfl, -⟩ := (code_leaf y f x c).1 h
    simp [slots]
  | .two n l r f, x, c, h => by
    rcases (code_two n l r f x c).1 h with ⟨d, hd, rfl⟩ | ⟨-, d, hd, rfl⟩
    · simp [slots, mem_slots_of_code hd]
    · simp [slots, mem_slots_of_code hd]
  | .one n l f, x, c, h => by
    obtain ⟨d, hd, rfl⟩ := (code_one n l f x c).1 h
    simp [slots, mem_slots_of_code hd]

/-- The leaf a code stands for. -/
theorem STree.Reps.leaf_of_code {nodes : Vector Node 511} : ∀ {t : STree} {p : NodeIx} {x : Symbol} {c : List Bool},
    t.Reps nodes p → t.code x = some c → ∃ f q, nodeAt nodes (leafSlot x) = some (leafRecord x f q)
  | .leaf y f, p, x, c, hr, h => by
    obtain ⟨rfl, -⟩ := (code_leaf y f x c).1 h
    exact ⟨f, p, hr⟩
  | .two n l r f, p, x, c, hr, h => by
    rcases (code_two n l r f x c).1 h with ⟨d, hd, -⟩ | ⟨-, d, hd, -⟩
    · exact hr.2.1.leaf_of_code hd
    · exact hr.2.2.leaf_of_code hd
  | .one n l f, p, x, c, hr, h => by
    obtain ⟨d, hd, -⟩ := (code_one n l f x c).1 h
    exact hr.2.leaf_of_code hd

theorem edgesUp_succ {nodes : Vector Node 511} {n : NodeIx} {nd : Node} (h : nodeAt nodes n = some nd)
    {k : Nat} {p : Node} (hp : nodeAt nodes nd.parent = some p) :
    edgesUp nodes (k + 1) n = (edgesUp nodes k nd.parent).map (decide (p.left ≠ n) :: ·) := by
  have hne : nd.parent ≠ Config.null := fun h' => by rw [(nodeAt_eq_none_iff nodes _).2 h'] at hp; cases hp
  conv_lhs => unfold edgesUp
  simp only [h, if_neg hne, hp]
  cases edgesUp nodes k nd.parent <;> rfl

/-- The walk up from a leaf records its code in reverse and goes on from the tree's root (R140). -/
theorem edgesUp_code {nodes : Vector Node 511} : ∀ {t : STree} {p : NodeIx} {x : Symbol} {c : List Bool},
    t.Reps nodes p → t.slots.Nodup → t.code x = some c → ∀ k,
    edgesUp nodes (c.length + k) (leafSlot x) = (edgesUp nodes k t.slot).map (c.reverse ++ ·)
  | .leaf y f, p, x, c, hr, hnd, h, k => by
    obtain ⟨rfl, rfl⟩ := (STree.code_leaf y f x c).1 h
    simp
  | .two n l r f, p, x, c, hr, hnd, h, k => by
    simp only [STree.slots, List.nodup_cons] at hnd
    obtain ⟨hl, hrr, hdis⟩ := List.nodup_append.1 hnd.2
    rcases (STree.code_two n l r f x c).1 h with ⟨d, hd, rfl⟩ | ⟨-, d, hd, rfl⟩
    · have h1 := edgesUp_code hr.2.1 hl hd (k + 1)
      have h2 := edgesUp_succ hr.2.1.root (k := k) (p := innerRecord f p l.slot r.slot) (by simpa using hr.1)
      rw [show (false :: d).length + k = d.length + (k + 1) by simp; omega, h1, h2]
      simp only [innerRecord, STree.rootRecord_parent, STree.slot_two, Option.map_map]
      congr 1; funext e; simp
    · have h1 := edgesUp_code hr.2.2 hrr hd (k + 1)
      have h2 := edgesUp_succ hr.2.2.root (k := k) (p := innerRecord f p l.slot r.slot) (by simpa using hr.1)
      have h3 : l.slot ≠ r.slot := hdis _ l.slot_mem_slots _ r.slot_mem_slots
      rw [show (true :: d).length + k = d.length + (k + 1) by simp; omega, h1, h2]
      simp only [innerRecord, STree.rootRecord_parent, STree.slot_two, Option.map_map]
      congr 1; funext e; simp [h3]
  | .one n l f, p, x, c, hr, hnd, h, k => by
    simp only [STree.slots, List.nodup_cons] at hnd
    obtain ⟨d, hd, rfl⟩ := (STree.code_one n l f x c).1 h
    have h1 := edgesUp_code hr.2 hnd.2 hd (k + 1)
    have h2 := edgesUp_succ hr.2.root (k := k) (p := innerRecord f p l.slot Config.null) (by simpa using hr.1)
    rw [show (false :: d).length + k = d.length + (k + 1) by simp; omega, h1, h2]
    simp only [innerRecord, STree.rootRecord_parent, STree.slot_one, Option.map_map]
    congr 1; funext e; simp

theorem ancestor_succ {nodes : Vector Node 511} {n : NodeIx} {nd : Node} (h : nodeAt nodes n = some nd)
    (hp : nd.parent ≠ Config.null) (k : Nat) : ancestor nodes (k + 1) n = ancestor nodes k nd.parent := by
  simp [ancestor, h, hp]

/-- The code's length is the leaf's depth (R131, R141). -/
theorem ancestor_code {nodes : Vector Node 511} : ∀ {t : STree} {p : NodeIx} {x : Symbol} {c : List Bool},
    t.Reps nodes p → t.code x = some c → ∀ k,
    ancestor nodes (c.length + k) (leafSlot x) = ancestor nodes k t.slot
  | .leaf y f, p, x, c, hr, h, k => by
    obtain ⟨rfl, rfl⟩ := (STree.code_leaf y f x c).1 h
    simp
  | .two n l r f, p, x, c, hr, h, k => by
    have hn : n ≠ Config.null := hr.slot_ne_null
    rcases (STree.code_two n l r f x c).1 h with ⟨d, hd, rfl⟩ | ⟨-, d, hd, rfl⟩
    · rw [show (false :: d).length + k = d.length + (k + 1) by simp; omega, ancestor_code hr.2.1 hd,
        ancestor_succ hr.2.1.root (by simpa using hn)]
      simp
    · rw [show (true :: d).length + k = d.length + (k + 1) by simp; omega, ancestor_code hr.2.2 hd,
        ancestor_succ hr.2.2.root (by simpa using hn)]
      simp
  | .one n l f, p, x, c, hr, h, k => by
    have hn : n ≠ Config.null := hr.slot_ne_null
    obtain ⟨d, hd, rfl⟩ := (STree.code_one n l f x c).1 h
    rw [show (false :: d).length + k = d.length + (k + 1) by simp; omega, ancestor_code hr.2 hd,
      ancestor_succ hr.2.root (by simpa using hn)]
    simp

/-- The bits of a code lead from the tree's root to the symbol's leaf (R141). -/
theorem walkDown_code {nodes : Vector Node 511} : ∀ {t : STree} {p : NodeIx} {x : Symbol} {c : List Bool},
    t.Reps nodes p → t.code x = some c → ∀ bits,
    walkDown nodes t.slot (c ++ bits) = walkDown nodes (leafSlot x) bits
  | .leaf y f, p, x, c, hr, h, bits => by
    obtain ⟨rfl, rfl⟩ := (STree.code_leaf y f x c).1 h
    simp
  | .two n l r f, p, x, c, hr, h, bits => by
    rcases (STree.code_two n l r f x c).1 h with ⟨d, hd, rfl⟩ | ⟨-, d, hd, rfl⟩
    · rw [← walkDown_code hr.2.1 hd bits]
      simp [walkDown, hr.1, innerRecord, hr.2.1.slot_ne_null]
    · rw [← walkDown_code hr.2.2 hd bits]
      simp [walkDown, hr.1, innerRecord, hr.2.2.slot_ne_null]
  | .one n l f, p, x, c, hr, h, bits => by
    obtain ⟨d, hd, rfl⟩ := (STree.code_one n l f x c).1 h
    rw [← walkDown_code hr.2 hd bits]
    simp [walkDown, hr.1, innerRecord, hr.2.slot_ne_null]

/-- The symbol a bit string leads to in a tree with slots. -/
def STree.decode (t : STree) (bits : List Bool) : Option (Symbol × List Bool) := treeDecode t.erase bits

/-- A code leads to its symbol, whatever follows it (R132, R163). -/
theorem STree.decode_code : ∀ {t : STree} {x : Symbol} {c : List Bool}, t.code x = some c → ∀ rest,
    t.decode (c ++ rest) = some (x, rest)
  | .leaf y f, x, c, h, rest => by
    obtain ⟨rfl, rfl⟩ := (code_leaf y f x c).1 h
    rfl
  | .two n l r f, x, c, h, rest => by
    rcases (code_two n l r f x c).1 h with ⟨d, hd, rfl⟩ | ⟨-, d, hd, rfl⟩
    · exact decode_code hd rest
    · exact decode_code hd rest
  | .one n l f, x, c, h, rest => by
    obtain ⟨d, hd, rfl⟩ := (code_one n l f x c).1 h
    exact decode_code hd rest

/-- No code is a prefix of another symbol's code (R132). -/
theorem STree.code_prefix_free {t : STree} {x y : Symbol} {c d : List Bool} (hx : t.code x = some c)
    (hy : t.code y = some d) (h : c <+: d) : x = y := by
  obtain ⟨e, rfl⟩ := h
  have h1 := decode_code hx e
  have h2 := decode_code hy []
  rw [List.append_nil] at h2
  rw [h2] at h1
  simp only [Option.some.injEq, Prod.mk.injEq] at h1
  exact h1.1.symm

theorem STree.mem_slots_of_decode : ∀ {t : STree} {bits rest : List Bool} {x : Symbol},
    t.decode bits = some (x, rest) → leafSlot x ∈ t.slots
  | .leaf y f, bits, rest, x, h => by
    simp only [decode, erase, treeDecode, Option.some.injEq, Prod.mk.injEq] at h
    simp [slots, h.1]
  | .two n l r f, [], rest, x, h => by simp [decode, erase, treeDecode] at h
  | .two n l r f, false :: bits, rest, x, h => by
    simp [slots, mem_slots_of_decode (t := l) (bits := bits) h]
  | .two n l r f, true :: bits, rest, x, h => by
    simp [slots, mem_slots_of_decode (t := r) (bits := bits) h]
  | .one n l f, [], rest, x, h => by simp [decode, erase, treeDecode] at h
  | .one n l f, false :: bits, rest, x, h => by
    simp [slots, mem_slots_of_decode (t := l) (bits := bits) h]
  | .one n l f, true :: bits, rest, x, h => by simp [decode, erase, treeDecode] at h

/-- In a tree of two or more leaves every bit string long enough leads to a leaf (R132). -/
theorem STree.full_decode : ∀ {t : STree} {bits : List Bool}, t.Full → t.inner ≤ bits.length →
    ∃ x rest, t.decode bits = some (x, rest) ∧ bits.length ≤ rest.length + t.inner
  | .leaf y f, bits, _, _ => ⟨y, bits, rfl, by simp⟩
  | .two n l r f, [], _, h => by simp [inner] at h
  | .two n l r f, false :: bits, hf, h => by
    simp only [inner, List.length_cons] at h
    obtain ⟨x, rest, h1, h2⟩ := full_decode (t := l) (bits := bits) hf.1 (by omega)
    exact ⟨x, rest, h1, by simp only [List.length_cons, inner]; omega⟩
  | .two n l r f, true :: bits, hf, h => by
    simp only [inner, List.length_cons] at h
    obtain ⟨x, rest, h1, h2⟩ := full_decode (t := r) (bits := bits) hf.2 (by omega)
    exact ⟨x, rest, h1, by simp only [List.length_cons, inner]; omega⟩
  | .one n l f, bits, hf, _ => hf.elim

theorem STree.length_slots : ∀ {t : STree}, t.Full → t.slots.length = 2 * t.inner + 1
  | .leaf _ _, _ => rfl
  | .two n l r f, h => by
    simp only [slots, List.length_cons, List.length_append, inner, length_slots h.1, length_slots h.2]
    omega
  | .one _ _ _, h => h.elim

/-- The tree as R134's value is represented by the arena. -/
theorem STree.Reps.represents {nodes : Vector Node 511} : ∀ {t : STree} {p : NodeIx}, t.Reps nodes p → t.Good →
    Represents nodes t.slot p t.erase
  | .leaf _ _, _, h, _ => ⟨rfl, h⟩
  | .two _ _ _ _, _, h, hg => ⟨_, _, h.1, hg.2.1, h.2.1.slot_ne_null, h.2.2.slot_ne_null,
      h.2.1.represents hg.2.2.1, h.2.2.represents hg.2.2.2⟩
  | .one _ _ _, _, h, hg => ⟨_, h.1, hg.2.1, h.2.slot_ne_null, h.2.represents hg.2.2⟩

end Sys2Proof.Machine
end

