-- ==== Sys2Proof/Laws/Tree.lean ====
section
/-!
SUPPORT. The tree while it is valid (spec 10_state.md R27,
  R44). `HasTree s t` says that the arena and its registers hold
the tree `t` of the current table; a completed `BUILD` gives it, and with a cursor in the tree it is `TreeOk`.
-/

namespace Sys2Proof.Machine

/-- The arena, `LEAFV`, `ROOT`, `NLEAF`, `NINT` hold the tree `t` of the current table. -/
structure HasTree (s : State) (t : STree) : Prop where
  live  : liveCount s.freq ≠ 0
  pure  : slotTree s.freq = some t
  tree  : treeOf s.freq = some t.erase
  reps  : t.Reps s.nodes Config.null
  good  : t.Good
  perm  : t.slots.Perm (writtenSlots (liveSymbols s.freq) s.nint.toNat)
  nint  : s.nint.toNat = max 1 (liveCount s.freq - 1)
  slot  : t.slot.toNat = 255 + s.nint.toNat
  freq  : t.freq = sumOfCounts s.freq
  shape : (liveCount s.freq = 1 ∧ ∃ x f, t = .one 256#9 (.leaf x f) f) ∨
    (2 ≤ liveCount s.freq ∧ t.Full ∧ ∃ n l r f, t = .two n l r f)
  root  : s.root = t.slot
  leafv : s.leafv = s.freq.map fun v => decide (v ≠ 0#64)
  nleaf : s.nleaf.toNat = liveCount s.freq

/-- Nothing else of the state matters to it. -/
theorem HasTree.congr {s s' : State} {t : STree} (h : HasTree s t) (hf : s'.freq = s.freq) (hn : s'.nodes = s.nodes)
    (hi : s'.nint = s.nint) (hr : s'.root = s.root) (hl : s'.leafv = s.leafv) (hk : s'.nleaf = s.nleaf) :
    HasTree s' t := by
  obtain ⟨h1, h2, h3, h4, h5, h6, h7, h8, h9, h10, h11, h12, h13⟩ := h
  constructor <;> (try rw [hf]) <;> (try rw [hn]) <;> (try rw [hi]) <;> (try rw [hr]) <;> (try rw [hl]) <;>
    (try rw [hk]) <;> assumption

theorem HasTree.nint_le {s : State} {t : STree} (h : HasTree s t) : s.nint.toNat ≤ 255 := by
  have := h.nint
  have := liveCount_le s.freq
  omega

theorem mem_written_iff {s : State} (h : s.nint.toNat ≤ 255) (n : NodeIx) :
    n ∈ writtenSlots (liveSymbols s.freq) s.nint.toNat ↔ SlotWritten s n := by
  rw [mem_writtenSlots h, SlotWritten]
  simp only [mem_liveSymbols]
  rfl

theorem HasTree.mem_slots {s : State} {t : STree} (h : HasTree s t) (n : NodeIx) : n ∈ t.slots ↔ SlotWritten s n := by
  rw [h.perm.mem_iff, mem_written_iff h.nint_le]

theorem HasTree.slots_nodup {s : State} {t : STree} (h : HasTree s t) : t.slots.Nodup :=
  h.perm.nodup_iff.2 (writtenSlots_nodup h.nint_le (liveSymbols_nodup s.freq))

theorem HasTree.leaf_mem {s : State} {t : STree} (h : HasTree s t) (x : Symbol) :
    leafSlot x ∈ t.slots ↔ freqOf s x ≠ 0#64 := by
  rw [h.mem_slots]
  constructor
  · rintro (⟨y, hy, hxy⟩ | ⟨h1, -⟩)
    · rw [leafSlot_injective hxy]; exact hy
    · have := leafSlot_lt x; omega
  · intro hx; exact Or.inl ⟨x, hx, rfl⟩

/-- `LEAFV` says which symbols are live (R27, R44 item 2). -/
theorem HasTree.leafValid {s : State} {t : STree} (h : HasTree s t) (x : Symbol) :
    leafValid s x = true ↔ freqOf s x ≠ 0#64 := by
  unfold Sys2Proof.Machine.leafValid freqOf
  simp [h.leafv]

theorem HasTree.root_ne_null {s : State} {t : STree} (h : HasTree s t) : s.root ≠ Config.null := by
  rw [h.root]; exact h.reps.slot_ne_null

/-- The root is an internal node (R44 item 1). -/
theorem HasTree.root_internal {s : State} {t : STree} (h : HasTree s t) : ∃ nd, nodeAt s.nodes s.root = some nd ∧
    nd.tag = .internal ∧ nd.parent = Config.null := by
  rw [h.root]
  refine ⟨_, h.reps.root, ?_, by simp⟩
  rcases h.shape with ⟨-, x, f, rfl⟩ | ⟨-, -, n, l, r, f, rfl⟩ <;> rfl

/-- Two trees of one table are one tree (R127). -/
theorem HasTree.unique {s s' : State} {t t' : STree} (h : HasTree s t) (h' : HasTree s' t') (hf : s.freq = s'.freq) :
    t = t' := by
  have h1 := h.pure
  rw [hf, h'.pure] at h1
  exact (Option.some.inj h1).symm

/-- What `TV = 1` says, read as a tree. -/
theorem TreeOk.hasTree {s : State} (h : TreeOk s) : ∃ t, HasTree s t := by
  obtain ⟨t, hb⟩ := buildArena_built s h.some_live
  have hle : s.nint.toNat ≤ 255 := by
    rw [h.nint_eq, hb.nint]; have := liveCount_le s.freq; omega
  refine ⟨t, h.some_live, hb.pure, hb.tree, hb.reps.frame fun m hm => ?_, hb.good, ?_, ?_, ?_, hb.freq, hb.shape, ?_,
    ?_,
    h.nleaf_eq⟩
  · refine h.arena_eq m ((mem_written_iff hle m).1 ?_)
    rw [h.nint_eq]
    exact hb.perm.subset hm
  · rw [h.nint_eq]; exact hb.perm
  · rw [h.nint_eq]; exact hb.nint
  · rw [h.nint_eq]; exact hb.slot
  · rw [h.root_eq, rootOf, hb.q_eq]; rfl
  · rw [h.leafv_eq, buildArena_leafv]

theorem HasTree.treeOk {s : State} {t : STree} (h : HasTree s t)
    (hc : ∃ path, walkDown s.nodes s.root path = some s.cur) : TreeOk s := by
  obtain ⟨t', hb⟩ := buildArena_built s h.live
  obtain rfl : t = t' := by
    have h1 := h.pure
    rw [hb.pure] at h1
    exact (Option.some.inj h1).symm
  refine ⟨h.live, fun n hn => ?_, ?_, h.nleaf, ?_, ?_, hc⟩
  · exact h.reps.agree hb.reps n ((h.mem_slots n).2 hn)
  · rw [h.leafv, buildArena_leafv]
  · apply BitVec.eq_of_toNat_eq; rw [h.nint, hb.nint]
  · rw [h.root, rootOf, hb.q_eq]; rfl

/-- Everything a completed `BUILD` gives. -/
theorem builtState_hasTree {s : State} (h : liveCount s.freq ≠ 0) :
    ∃ t, HasTree (builtState s) t ∧ (builtState s).cur = t.slot := by
  obtain ⟨t, hb⟩ := buildArena_built s h
  have hroot : rootOf s (buildArena s) = t.slot := by rw [rootOf, hb.q_eq]; rfl
  refine ⟨t, ⟨h, hb.pure, hb.tree, hb.reps, hb.good, hb.perm, hb.nint, hb.slot, hb.freq, hb.shape, hroot, ?_, ?_⟩,
    hroot⟩
  · exact buildArena_leafv s
  · obtain ⟨ts, -, hf, hlen, -⟩ := addLeaves_forest s
    have : (builtState s).nleaf = BitVec.ofNat 9 (addLeaves s).q.length := rfl
    have hq : (addLeaves s).q.length = liveCount s.freq := by rw [hf.q_eq, List.length_map, hlen]
    have hle := liveCount_le s.freq
    rw [this, hq, BitVec.toNat_ofNat]
    exact Nat.mod_eq_of_lt (by omega)

/-- `BUILD` completes exactly when a symbol is live (R120). -/
theorem buildBody_done {s : State} (hc : CountsOk s) (h : liveCount s.freq ≠ 0) : buildBody s = .done (builtState s) :=
    by
  unfold buildBody
  rw [if_neg fun h' => h ((live_eq_zero_iff hc).1 h')]

/-- The tree has at most 255 internal nodes (R126). -/
theorem HasTree.inner_eq {s : State} {t : STree} (h : HasTree s t) : t.inner = s.nint.toNat := by
  have h1 := h.perm.length_eq
  rw [writtenSlots, List.length_append, List.length_map, innerSlots, List.length_map, List.length_range,
    length_liveSymbols] at h1
  have h2 := h.nint
  rcases h.shape with ⟨h3, x, f, rfl⟩ | ⟨h3, h4, -⟩
  · simp only [STree.inner]; omega
  · have := STree.length_slots h4; omega

/-! ### The code of a live symbol (R131, R140, R141) -/

theorem HasTree.exists_code {s : State} {t : STree} (h : HasTree s t) {x : Symbol} (hx : freqOf s x ≠ 0#64) :
    ∃ c, t.code x = some c ∧ treeCode t.erase x = some c ∧ 1 ≤ c.length ∧ c.length ≤ 255 := by
  obtain ⟨c, hc⟩ := STree.exists_code h.good ((h.leaf_mem x).2 hx)
  refine ⟨c, hc, hc, ?_, ?_⟩
  · rcases h.shape with ⟨-, y, f, rfl⟩ | ⟨-, -, n, l, r, f, rfl⟩
    · obtain ⟨d, -, rfl⟩ := (STree.code_one _ _ _ _ _).1 hc; simp
    · rcases (STree.code_two _ _ _ _ _ _).1 hc with ⟨d, -, rfl⟩ | ⟨-, d, -, rfl⟩ <;> simp
  · have h1 := STree.code_length_le hc
    rw [h.inner_eq] at h1
    have := h.nint_le
    omega

end Sys2Proof.Machine
end

