-- ==== Sys2Proof/Laws/Walk.lean ====
section
/-!
SUPPORT. What `XCODE`, `STEP`, `EMIT`, and the loop of `DEC` do while the tree is valid (spec 42_code_extractor.md R140,
R141; 44_bit_unpacker.md R161 to R163; 45_driver.md R170 to R172), in terms of the tree and of the bits to come.
-/

namespace Sys2Proof.Machine

/-! ### XCODE -/

theorem HasTree.edgesUp_eq {s : State} {t : STree} (h : HasTree s t) {x : Symbol} {c : List Bool}
    (hc : t.code x = some c) (hl : c.length ≤ 255) : edgesUp s.nodes Config.CODE_W (leafSlot x) = some c.reverse := by
  have h1 := edgesUp_code h.reps h.slots_nodup hc (255 - c.length)
  rw [show c.length + (255 - c.length) = Config.CODE_W by simp only [Config.CODE_W]; omega] at h1
  rw [h1]
  have : edgesUp s.nodes (255 - c.length) t.slot = some [] := by
    unfold edgesUp
    simp [h.reps.root]
  rw [this]; simp

/-- The state a completed `XCODE` leaves, when the code is `c` (R140). -/
def coded (c : List Bool) (s : State) : State :=
  { s with code := codeOfEdges c.reverse, clen := BitVec.ofNat 8 c.length }

theorem codeBits_coded {c : List Bool} (h : c.length ≤ 255) (s : State) : codeBits (coded c s) = c := by
  rw [codeBits_eq]
  have : (coded c s).clen.toNat = c.length := by simp only [coded, BitVec.toNat_ofNat]; omega
  rw [this]
  exact codeBitsOf_codeOfEdges h

theorem codeOk_coded {c : List Bool} (h : c.length ≤ 255) (s : State) : CodeOk (coded c s) := by
  have : (coded c s).clen.toNat = c.length := by simp only [coded, BitVec.toNat_ofNat]; omega
  unfold CodeOk
  rw [this]
  show (codeOfEdges c.reverse).toNat < _
  rw [codeOfEdges_toNat (by simpa using h)]
  simpa using bitsToNat_lt c.reverse

/-- `XCODE` of a live symbol extracts its code (R140, R141). -/
theorem xcodeBody_done {s : State} {t : STree} (h : HasTree s t) (htv : s.tv = true) {x : Symbol} {c : List Bool}
    (hx : freqOf s x ≠ 0#64) (hc : t.code x = some c) (hl : c.length ≤ 255) : xcodeBody x s = .done (coded c s) := by
  unfold xcodeBody
  rw [if_neg (by simp [htv]), if_neg (by simp [(h.leafValid x).2 hx]), h.edgesUp_eq hc hl]
  simp [coded]

/-! ### STEP -/

/-- `STEP` on an internal node (R161). -/
theorem stepBody_internal {s : State} {nd : Node} (htv : s.tv = true) (hn : nodeAt s.nodes s.cur = some nd)
    (ht : nd.tag = .internal) :
    stepBody s = match getBit s with
      | none => raise .inUnderrun 0#16 s
      | some (bit, s') => followEdge nd bit s' := by
  unfold stepBody
  rw [if_neg (by simp [htv])]
  cases getBit s <;> simp only [hn, ht]

/-- The two ends of `STEP` on an internal node (R161). -/
theorem followEdge_cases (nd : Node) (b : Bool) (s : State) :
    followEdge nd b s = .raised (enterFault .nullChild (s.cur.setWidth 16) s) ∨
      ∃ n, n = (if b then nd.right else nd.left) ∧ n ≠ Config.null ∧ followEdge nd b s = .done { s with cur := n } := by
  obtain ⟨n, hn⟩ : ∃ n, n = (if b then nd.right else nd.left) := ⟨_, rfl⟩
  by_cases h : n = Config.null
  · left; unfold followEdge; simp only [← hn, if_pos h, raise]
  · right; refine ⟨n, hn, h, ?_⟩; unfold followEdge; simp only [← hn, if_neg h]

/-- A completed `STEP` took one bit, in any state. -/
theorem stepBody_bitsLeft {s s' : State} (h : stepBody s = .done s') : bitsLeft s = bitsLeft s' + 1 := by
  unfold stepBody at h
  split at h
  · cases h
  · split at h
    · cases h
    · split at h
      · cases h
      · split at h
        · cases h
        · rename_i b s1 hg
          have h1 := getBit_bitsLeft hg
          rcases followEdge_cases _ b s1 with h2 | ⟨n, -, -, h2⟩ <;> rw [h2] at h <;> cases h
          exact h1

theorem getBit_frame {s s' : State} {b : Bool} (h : getBit s = some (b, s')) : WalkFrame s s' := by
  unfold getBit at h
  split at h
  · split at h
    · cases h
    · simp only [Option.some.injEq] at h
      rw [← (Prod.mk.inj h).2]; rfl
  · simp only [Option.some.injEq] at h
    rw [← (Prod.mk.inj h).2]; rfl

/-- All that a completed `STEP` writes, in any state. -/
theorem stepBody_frame {s s' : State} (h : stepBody s = .done s') : WalkFrame s s' := by
  unfold stepBody at h
  split at h
  · cases h
  · split at h
    · cases h
    · split at h
      · cases h
      · split at h
        · cases h
        · rename_i b s1 hg
          have h1 := getBit_frame hg
          rcases followEdge_cases _ b s1 with h2 | ⟨n, -, -, h2⟩ <;> rw [h2] at h <;> cases h
          unfold WalkFrame at h1 ⊢
          rw [h1]

theorem stepBody_ne_loopBound (s : State) : stepBody s ≠ .stuck .loopBound := by
  unfold stepBody
  repeat' split
  all_goals try (intro h; cases h)
  rename_i b s1 _
  intro h
  rcases followEdge_cases _ b s1 with h2 | ⟨n, -, -, h2⟩ <;> rw [h2] at h <;> cases h

/-- The loop bound of `DEC` is never reached (log entry 7). -/
theorem walkLoop_ne_loopBound : ∀ (k : Nat) (s : State), bitsLeft s < k → walkLoop k s ≠ .stuck .loopBound
  | 0, s, h => by omega
  | k + 1, s, h => by
    unfold walkLoop
    split
    · intro h'; cases h'
    · split
      · intro h'; cases h'
      · simp only
        cases hs : stepBody s with
        | done s' =>
          have := stepBody_bitsLeft hs
          exact walkLoop_ne_loopBound k s' (by omega)
        | raised s' => intro h'; cases h'
        | stuck f =>
          intro h'
          simp only [Result.andThen, Result.stuck.injEq] at h'
          exact stepBody_ne_loopBound s (h' ▸ hs)

theorem Result.andThen_eq_done {r : Result} {k : State → Result} {s : State} (h : r.andThen k = .done s) :
    ∃ s', r = .done s' ∧ k s' = .done s := by
  cases r with
  | done s' => exact ⟨s', rfl, h⟩
  | raised s' => cases h
  | stuck f => cases h

theorem walkLoop_frame : ∀ (k : Nat) {s s' : State}, walkLoop k s = .done s' → WalkFrame s s'
  | k, s, s', h => by
    unfold walkLoop at h
    split at h
    · cases h
    · split at h
      · cases h; rfl
      · match k, h with
        | 0, h => cases h
        | k + 1, h =>
          obtain ⟨s1, h1, h2⟩ := Result.andThen_eq_done h
          have h3 := stepBody_frame h1
          have h4 := walkLoop_frame k h2
          unfold WalkFrame at h3 h4 ⊢
          rw [h4, h3]

theorem walkLoop_bitsLeft : ∀ (k : Nat) {s s' : State}, walkLoop k s = .done s' → bitsLeft s' ≤ bitsLeft s ∧
    ((∃ nd, nodeAt s.nodes s.cur = some nd ∧ nd.tag = .internal) → bitsLeft s' < bitsLeft s)
  | k, s, s', h => by
    unfold walkLoop at h
    split at h
    · cases h
    · rename_i nd hn
      split at h
      · rename_i ht
        cases h
        refine ⟨le_refl _, ?_⟩
        rintro ⟨nd', hn', ht'⟩
        rw [hn] at hn'
        cases hn'
        rw [ht] at ht'
        cases ht'
      · match k, h with
        | 0, h => cases h
        | k + 1, h =>
          simp only at h
          cases hs : stepBody s with
          | done s1 =>
            rw [hs] at h
            have h1 := stepBody_bitsLeft hs
            have h2 := (walkLoop_bitsLeft k (s := s1) (s' := s') h).1
            exact ⟨by omega, fun _ => by omega⟩
          | raised s1 => rw [hs] at h; cases h
          | stuck f => rw [hs] at h; cases h

/-! ### The walk of DEC in a tree -/

theorem walkDown_append (nodes : Vector Node 511) : ∀ (p : List Bool) (n : NodeIx) (q : List Bool),
    walkDown nodes n (p ++ q) = (walkDown nodes n p).bind fun m => walkDown nodes m q
  | [], n, q => rfl
  | b :: p, n, q => by
    simp only [List.cons_append, walkDown]
    cases nodeAt nodes n with
    | none => rfl
    | some nd =>
      simp only
      by_cases h : (if b = true then nd.right else nd.left) = Config.null
      · simp [h]
      · simp only [if_neg h]; exact walkDown_append nodes p _ q

/-- How the walk of `DEC` ends when it does not reach a leaf: the input ended, or a 1 bit was taken in a one-leaf tree
(R161, R171). `s'` is the state in which the fault was raised. -/
inductive WalkFault (s s' : State) : Result → Prop where
  | underrun (path : List Bool) (hw : Walked s s') (hp : walkDown s.nodes s.cur path = some s'.cur)
      (hb : inputBits s = path) (h0 : inputBits s' = []) (hu : s'.ucnt.toNat ≤ 8)
      (hn : ∃ nd, nodeAt s.nodes s'.cur = some nd ∧ nd.tag = .internal) :
      WalkFault s s' (.raised (enterFault .inUnderrun 0#16 s'))
  | nullChild (path : List Bool) (hw : Walked s s') (hp : walkDown s.nodes s.cur path = some s'.cur)
      (hb : inputBits s = path ++ true :: inputBits s')
      (h0 : ∃ nd, nodeAt s.nodes s'.cur = some nd ∧ nd.tag = .internal ∧ nd.right = Config.null)
      (hu : s'.ucnt.toNat ≤ 8) :
      WalkFault s s' (.raised (enterFault .nullChild (s'.cur.setWidth 16) s'))

theorem WalkFault.after {s s1 s' : State} {r : Result} {b : Bool} (hw : Walked s s1)
    (hs : walkDown s.nodes s.cur [b] = some s1.cur) (hb : inputBits s = b :: inputBits s1) (h : WalkFault s1 s' r) :
    WalkFault s s' r := by
  have hn : s1.nodes = s.nodes := by rw [hw.eq]
  cases h with
  | underrun path h1 h2 h3 h4 h5 h6 =>
    refine .underrun (b :: path) (hw.trans h1) ?_ (by rw [hb, h3]) h4 h5 (by rw [← hn]; exact h6)
    rw [show b :: path = [b] ++ path from rfl, walkDown_append, hs]
    rw [hn] at h2
    exact h2
  | nullChild path h1 h2 h3 h4 h5 =>
    refine .nullChild (b :: path) (hw.trans h1) ?_ (by rw [hb, h3]; rfl) (by rw [← hn]; exact h4) h5
    rw [show b :: path = [b] ++ path from rfl, walkDown_append, hs]
    rw [hn] at h2
    exact h2

/-- One edge down in a tree: the child, or the missing child of the one-leaf parent. -/
theorem stepBody_tree {s : State} {nd : Node} (htv : s.tv = true) (h8 : s.ucnt.toNat ≤ 8)
    (hn : nodeAt s.nodes s.cur = some nd) (ht : nd.tag = .internal) :
    (inputBits s = [] ∧ stepBody s = .raised (enterFault .inUnderrun 0#16 s)) ∨
      ∃ b s', inputBits s = b :: inputBits s' ∧ s'.ucnt.toNat ≤ 7 ∧ s'.cur = s.cur ∧ Walked s s' ∧
        ((if b then nd.right else nd.left) = Config.null →
          stepBody s = .raised (enterFault .nullChild (s.cur.setWidth 16) s')) ∧
        ((if b then nd.right else nd.left) ≠ Config.null →
          stepBody s = .done { s' with cur := if b then nd.right else nd.left }) := by
  rw [stepBody_internal htv hn ht]
  cases hg : getBit s with
  | none =>
    exact Or.inl ⟨(getBit_eq_none_iff h8).1 hg, rfl⟩
  | some r =>
    obtain ⟨b, s'⟩ := r
    obtain ⟨h1, h2, h3, h4⟩ := getBit_cons h8 hg
    refine Or.inr ⟨b, s', h1, h2, h3, h4, fun hc => ?_, fun hc => ?_⟩
    · simp only [followEdge, if_pos hc, raise, h3]
    · simp only [followEdge, if_neg hc]

/-- Loop (b) of `DEC` from the root of a subtree: it follows the bits to the leaf they lead to, or it faults where they
end (R163, R171). -/
theorem walkLoop_tree : ∀ (u : STree) (p : NodeIx) (k : Nat) (s : State), u.Reps s.nodes p → s.cur = u.slot →
    s.tv = true → s.ucnt.toNat ≤ 8 → bitsLeft s < k →
    match u.decode (inputBits s) with
    | some (x, rest) => ∃ s', walkLoop k s = .done s' ∧ Walked s s' ∧ s'.cur = leafSlot x ∧ inputBits s' = rest ∧
        s'.ucnt.toNat ≤ 8 ∧ (s'.inp = s.inp ∧ s' = s ∨ s'.ucnt.toNat ≤ 7)
    | none => ∃ s', WalkFault s s' (walkLoop k s)
  | .leaf x f, p, k, s, hr, hc, htv, h8, hk => by
    have hn : nodeAt s.nodes s.cur = some (leafRecord x f p) := by rw [hc]; exact hr
    have hw : walkLoop k s = .done s := by unfold walkLoop; simp [hn, leafRecord]
    exact ⟨s, hw, Walked.refl s, hc, rfl, h8, Or.inl ⟨rfl, rfl⟩⟩
  | .two n l r f, p, k, s, hr, hc, htv, h8, hk => by
    have hn : nodeAt s.nodes s.cur = some (innerRecord f p l.slot r.slot) := by rw [hc]; exact hr.1
    obtain ⟨k', rfl⟩ : ∃ k', k = k' + 1 := ⟨k - 1, by omega⟩
    have hw : walkLoop (k' + 1) s = (stepBody s).andThen (walkLoop k') := by
      conv_lhs => unfold walkLoop
      simp [hn, innerRecord]
    rcases stepBody_tree htv h8 hn rfl with ⟨h1, h2⟩ | ⟨b, s1, h1, h2, h3, h4, -, h6⟩
    · rw [h1, hw, h2]
      exact ⟨s, .underrun [] (Walked.refl s) rfl h1 h1 h8 ⟨_, hn, rfl⟩⟩
    · have hb := stepBody_bitsLeft (h6 (by cases b <;> simp [innerRecord, hr.2.1.slot_ne_null, hr.2.2.slot_ne_null]))
      have hs := h6 (by cases b <;> simp [innerRecord, hr.2.1.slot_ne_null, hr.2.2.slot_ne_null])
      have hn1 : s1.nodes = s.nodes := by rw [h4.eq]
      have htv1 : s1.tv = true := by rw [h4.eq]; exact htv
      rw [h1, hw, hs]
      have hedge : walkDown s.nodes s.cur [b] = some (if b then r.slot else l.slot) := by
        cases b <;> simp [walkDown, hn, innerRecord, hr.2.1.slot_ne_null, hr.2.2.slot_ne_null]
      cases b with
      | false =>
        have ih := walkLoop_tree l n k' { s1 with cur :=
          l.slot } (by rw [show State.nodes _ = _ from hn1]; exact hr.2.1)
          rfl htv1 (by show s1.ucnt.toNat ≤ 8; omega) (by
            have : bitsLeft s = bitsLeft { s1 with cur := l.slot } + 1 := hb
            omega)
        have hd : (STree.two n l r f).decode (false :: inputBits s1) = l.decode (inputBits s1) := rfl
        rw [hd]
        have he : inputBits { s1 with cur := l.slot } = inputBits s1 := rfl
        rw [he] at ih
        cases hdec : l.decode (inputBits s1) with
        | none =>
          rw [hdec] at ih
          obtain ⟨s', hf⟩ := ih
          exact ⟨s', hf.after (h4.move l.slot) hedge h1⟩
        | some q =>
          rw [hdec] at ih
          obtain ⟨s', i1, i2, i3, i4, i5, i6⟩ := ih
          refine ⟨s', i1, (h4.move l.slot).trans i2, i3, i4, i5, Or.inr ?_⟩
          rcases i6 with ⟨-, i6⟩ | i6
          · rw [i6]; exact h2
          · exact i6
      | true =>
        have ih := walkLoop_tree r n k' { s1 with cur :=
          r.slot } (by rw [show State.nodes _ = _ from hn1]; exact hr.2.2)
          rfl htv1 (by show s1.ucnt.toNat ≤ 8; omega) (by
            have : bitsLeft s = bitsLeft { s1 with cur := r.slot } + 1 := hb
            omega)
        have hd : (STree.two n l r f).decode (true :: inputBits s1) = r.decode (inputBits s1) := rfl
        rw [hd]
        have he : inputBits { s1 with cur := r.slot } = inputBits s1 := rfl
        rw [he] at ih
        cases hdec : r.decode (inputBits s1) with
        | none =>
          rw [hdec] at ih
          obtain ⟨s', hf⟩ := ih
          exact ⟨s', hf.after (h4.move r.slot) hedge h1⟩
        | some q =>
          rw [hdec] at ih
          obtain ⟨s', i1, i2, i3, i4, i5, i6⟩ := ih
          refine ⟨s', i1, (h4.move r.slot).trans i2, i3, i4, i5, Or.inr ?_⟩
          rcases i6 with ⟨-, i6⟩ | i6
          · rw [i6]; exact h2
          · exact i6
  | .one n l f, p, k, s, hr, hc, htv, h8, hk => by
    have hn : nodeAt s.nodes s.cur = some (innerRecord f p l.slot Config.null) := by rw [hc]; exact hr.1
    obtain ⟨k', rfl⟩ : ∃ k', k = k' + 1 := ⟨k - 1, by omega⟩
    have hw : walkLoop (k' + 1) s = (stepBody s).andThen (walkLoop k') := by
      conv_lhs => unfold walkLoop
      simp [hn, innerRecord]
    rcases stepBody_tree htv h8 hn rfl with ⟨h1, h2⟩ | ⟨b, s1, h1, h2, h3, h4, h5, h6⟩
    · rw [h1, hw, h2]
      exact ⟨s, .underrun [] (Walked.refl s) rfl h1 h1 h8 ⟨_, hn, rfl⟩⟩
    · cases b with
      | true =>
        rw [h1, hw, h5 rfl, ← h3]
        exact ⟨s1, .nullChild [] h4 (by rw [h3]; rfl) h1 ⟨_, by rw [h3]; exact hn, rfl, rfl⟩ (by omega)⟩
      | false =>
        have hs := h6 (by simp [innerRecord, hr.2.slot_ne_null])
        have hb := stepBody_bitsLeft hs
        have hn1 : s1.nodes = s.nodes := by rw [h4.eq]
        have htv1 : s1.tv = true := by rw [h4.eq]; exact htv
        have hedge : walkDown s.nodes s.cur [false] = some l.slot := by
          simp [walkDown, hn, innerRecord, hr.2.slot_ne_null]
        rw [h1, hw, hs]
        have ih := walkLoop_tree l n k' { s1 with cur := l.slot } (by rw [show State.nodes _ = _ from hn1]; exact hr.2)
          rfl htv1 (by show s1.ucnt.toNat ≤ 8; omega) (by
            have : bitsLeft s = bitsLeft { s1 with cur := l.slot } + 1 := hb
            omega)
        have hd : (STree.one n l f).decode (false :: inputBits s1) = l.decode (inputBits s1) := rfl
        rw [hd]
        have he : inputBits { s1 with cur := l.slot } = inputBits s1 := rfl
        rw [he] at ih
        cases hdec : l.decode (inputBits s1) with
        | none =>
          rw [hdec] at ih
          obtain ⟨s', hf⟩ := ih
          exact ⟨s', hf.after (h4.move l.slot) hedge h1⟩
        | some q =>
          rw [hdec] at ih
          obtain ⟨s', i1, i2, i3, i4, i5, i6⟩ := ih
          refine ⟨s', i1, (h4.move l.slot).trans i2, i3, i4, i5, Or.inr ?_⟩
          rcases i6 with ⟨-, i6⟩ | i6
          · rw [i6]; exact h2
          · exact i6

end Sys2Proof.Machine
end

