-- ==== Sys2Proof/Laws/Driver.lean ====
section
/-!
SUPPORT. What `PACK`, `FLUSH`, `EMIT`, `ENC`, `DEC`, `DRUN` do, once for each (spec 43_bit_packer.md R151, R153;
44_bit_unpacker.md R162; 45_driver.md R170 to R172), in terms of the tree value and of the bits packed and to come.
-/

namespace Sys2Proof.Machine

/-! ### PACK and FLUSH -/

/-- The state `PACK` leaves. -/
def packed (s : State) : State := withPacker s (packLoop s.code s.clen.toNat s.clen.toNat (packerOf s))

theorem packBody_eq (s : State) : packBody s = .done (packed s) := rfl

/-- `PACK` appends the code (R151, R154) and keeps the packer's form (R150). -/
theorem packed_spec {s : State} (h : PackerOk s) :
    PackerOk (packed s) ∧ packedBits (packed s) = packedBits s ++ codeBits s := by
  obtain ⟨h1, h2⟩ := packLoop_spec s.code s.clen.toNat s.clen.toNat (packerOf s) (le_refl _) h
  exact ⟨h1, by rw [codeBits_eq, packedBits_eq s, ← h2]; rfl⟩

theorem packLoop_out (code : CodeReg) : ∀ (fuel len : Nat) (p : Packer), ∃ ys,
    (packLoop code fuel len p).out = p.out ++ ys
  | 0, _, p => ⟨[], by simp [packLoop]⟩
  | fuel + 1, len, p => by
    unfold packLoop
    split
    · exact ⟨[], by simp⟩
    · obtain ⟨ys, h⟩ := packLoop_out code fuel (len - min len (pushIfFull p).free.toNat)
        (packChunk code len (min len (pushIfFull p).free.toNat) (pushIfFull p))
      simp only [h]
      unfold pushIfFull
      split
      · exact ⟨p.pbuf :: ys, by simp [packChunk, pushByte]⟩
      · exact ⟨ys, by simp [packChunk]⟩

/-- The state `FLUSH` leaves. -/
def flushed (s : State) : State := if s.free.toNat < 8 then withPacker s (pushByte (packerOf s)) else s

theorem flushBody_eq (s : State) : flushBody s = .done (flushed s) := by
  unfold flushBody flushed
  split <;> rfl

/-- `FLUSH` pads the open byte with zeros and leaves none open (R66, R153). -/
theorem flushed_spec {s : State} (h : PackerOk s) : PackerOk (flushed s) ∧ (flushed s).free = 8#4 ∧
    packedBits (flushed s) = packedBits s ++ List.replicate (s.free.toNat % 8) false := by
  unfold flushed
  split
  · rename_i h8
    refine ⟨packerFine_pushByte (packerOf s), rfl, ?_⟩
    rw [Nat.mod_eq_of_lt h8]
    exact packerBits_flush h
  · rename_i h8
    have : s.free.toNat = 8 := by have := h.1; omega
    refine ⟨h, BitVec.eq_of_toNat_eq this, ?_⟩
    rw [this]; simp

/-! ### EMIT -/

/-- The state a completed `EMIT` of the leaf of `x` leaves (R162). -/
def emitted (x : Symbol) (s : State) : State :=
  setF (pushSymbol x { s with sym := x }) x (freqOf s x - 1#64)

theorem emitBody_leaf {s : State} {nd : Node} (htv : s.tv = true) (hn : nodeAt s.nodes s.cur = some nd)
    (ht : nd.tag = .leaf) (hx : freqOf s nd.sym ≠ 0#64) : emitBody s = .done (emitted nd.sym s) := by
  unfold emitBody
  rw [if_neg (by simp [htv])]
  simp only [hn, ht]
  unfold fdecBody
  rw [if_neg (by exact hx)]
  rfl

/-- The leaf of a symbol stands in the tree only while the symbol is live (R162's remark). -/
theorem HasTree.leaf_record {s : State} {t : STree} (h : HasTree s t) {x : Symbol} (hx : freqOf s x ≠ 0#64) :
    ∃ f p, nodeAt s.nodes (leafSlot x) = some (leafRecord x f p) := by
  obtain ⟨c, hc, -⟩ := h.exists_code hx
  exact h.reps.leaf_of_code hc

/-! ### ENC -/

/-- The state a completed `ENC` leaves, when the code is `c` (R170). -/
def encoded (x : Symbol) (c : List Bool) (s : State) : State :=
  setF (packed (coded c (builtState s))) x (freqOf s x - 1#64)

/-- A completed `ENC` (R170): its four parts run and none of them faults. -/
theorem encBody_done {s : State} (hk : CountsOk s) {x : Symbol} (hx : freqOf s x ≠ 0#64) :
    ∃ h c, treeOf s.freq = some h ∧ treeCode h x = some c ∧ 1 ≤ c.length ∧ c.length ≤ 255 ∧
      encBody x s = .done (encoded x c s) := by
  have hl := liveCount_pos_of_freqOf hx
  obtain ⟨t, ht, -⟩ := builtState_hasTree hl
  obtain ⟨c, hc, hc', h1, h255⟩ := ht.exists_code (x := x) hx
  refine ⟨t.erase, c, ht.tree, hc', h1, h255, ?_⟩
  unfold encBody
  rw [if_neg fun h' => hl ((live_eq_zero_iff hk).1 h'), if_neg hx, buildBody_done hk hl]
  simp only [Result.andThen]
  rw [xcodeBody_done ht rfl (x := x) hx hc h255]
  simp only [packBody_eq, fdecBody]
  rw [if_neg (by exact hx)]
  rfl

/-! ### DEC -/

/-- A `DEC` of a table with a live symbol (R171): it follows the bits to the leaf they lead to in the table's tree, and
emits its symbol; or its walk faults. -/
theorem decBody_spec {s : State} (hk : CountsOk s) (hl : liveCount s.freq ≠ 0) (h8 : UnpackerOk s) :
    ∃ h, treeOf s.freq = some h ∧
      match treeDecode h (inputBits s) with
      | some (x, rest) => ∃ s', Walked (builtState s) s' ∧ s'.cur = leafSlot x ∧ inputBits s' = rest ∧
          s'.ucnt.toNat ≤ 7 ∧ freqOf s x ≠ 0#64 ∧ decBody s = .done (emitted x s')
      | none => ∃ s', WalkFault (builtState s) s' (decBody s) := by
  obtain ⟨t, ht, hcur⟩ := builtState_hasTree hl
  refine ⟨t.erase, ht.tree, ?_⟩
  have hw := walkLoop_tree t Config.null (bitsLeft (builtState s) + 1) (builtState s) ht.reps hcur rfl h8 (by omega)
  have hi : inputBits (builtState s) = inputBits s := rfl
  rw [hi] at hw
  have hd : decBody s = (walkLoop (bitsLeft (builtState s) + 1) (builtState s)).andThen emitBody := by
    unfold decBody
    rw [buildBody_done hk hl]
    rfl
  have hdec : t.decode (inputBits s) = treeDecode t.erase (inputBits s) := rfl
  rw [hdec] at hw
  cases htd : treeDecode t.erase (inputBits s) with
  | none =>
    rw [htd] at hw
    obtain ⟨s', hf⟩ := hw
    refine ⟨s', ?_⟩
    rw [hd]
    revert hf
    generalize walkLoop (bitsLeft (builtState s) + 1) (builtState s) = r
    intro hf
    have hr : r.andThen emitBody = r := by cases hf <;> rfl
    rw [hr]
    exact hf
  | some q =>
    rw [htd] at hw
    obtain ⟨x, rest⟩ := q
    obtain ⟨s', h1, h2, h3, h4, h5, h6⟩ := hw
    have hx : freqOf s x ≠ 0#64 := (ht.leaf_mem x).1 (STree.mem_slots_of_decode (t := t) htd)
    obtain ⟨f, p, hrec⟩ := ht.leaf_record (x := x) hx
    have hn : nodeAt s'.nodes s'.cur = some (leafRecord x f p) := by
      rw [h3, show s'.nodes = (builtState s).nodes by rw [h2.eq], hrec]
    refine ⟨s', h2, h3, h4, ?_, hx, ?_⟩
    · rcases h6 with ⟨-, h6⟩ | h6
      · exfalso
        obtain ⟨nd, hn1, hn2, -⟩ := ht.root_internal
        rw [ht.root, ← hcur] at hn1
        rw [h6] at hn
        rw [hn] at hn1
        cases hn1
        cases hn2
      · exact h6
    · rw [hd, h1]
      simp only [Result.andThen]
      rw [emitBody_leaf (by rw [h2.eq]; rfl) hn rfl]
      · rfl
      · rw [show (leafRecord x f p).sym = x from rfl]
        rw [show freqOf s' x = freqOf s x by rw [h2.eq]; rfl]
        exact hx

theorem emitBody_bitsLeft {s s' : State} (h : emitBody s = .done s') :
    bitsLeft s' = bitsLeft s ∧ ∃ x, freqOf s x ≠ 0#64 := by
  unfold emitBody at h
  split at h
  · cases h
  · split at h
    · cases h
    · rename_i nd _
      split at h
      · cases h
      · unfold fdecBody at h
        split at h
        · cases h
        · rename_i hx
          cases h
          exact ⟨rfl, nd.sym, hx⟩

/-- A completed `DEC` took a bit, in any state. -/
theorem decBody_bitsLeft {s s' : State} (h : decBody s = .done s') : bitsLeft s' < bitsLeft s := by
  obtain ⟨s2, h1, h2⟩ := Result.andThen_eq_done h
  obtain ⟨s1, h3, h4⟩ := Result.andThen_eq_done h1
  obtain rfl : builtState s = s1 := by
    unfold buildBody at h3
    split at h3
    · cases h3
    · cases h3; rfl
  obtain ⟨h5, x, hx⟩ := emitBody_bitsLeft h2
  have hf : s2.freq = (builtState s).freq := by rw [walkLoop_frame _ h4]
  have hl : liveCount s.freq ≠ 0 := by
    have h6 := liveCount_pos_of_freqOf hx
    rw [hf] at h6
    exact h6
  obtain ⟨t, ht, hcur⟩ := builtState_hasTree hl
  obtain ⟨nd, hn, htag, -⟩ := ht.root_internal
  have h7 := (walkLoop_bitsLeft _ h4).2 ⟨nd, hn, htag⟩
  have h8 : bitsLeft (builtState s) = bitsLeft s := rfl
  omega

/-! ### DRUN -/

theorem emitBody_ne_loopBound (s : State) : emitBody s ≠ .stuck .loopBound := by
  unfold emitBody
  repeat' split
  all_goals try (intro h; cases h)
  unfold fdecBody
  split <;> · intro h; cases h

theorem decBody_ne_loopBound (s : State) : decBody s ≠ .stuck .loopBound := by
  unfold decBody buildBody
  split
  · intro h; cases h
  · have h1 := walkLoop_ne_loopBound (bitsLeft (builtState s) + 1) (builtState s) (by omega)
    simp only [Result.andThen]
    cases hw : walkLoop (bitsLeft (builtState s) + 1) (builtState s) with
    | done s1 => exact emitBody_ne_loopBound s1
    | raised s1 => intro h; cases h
    | stuck f => rw [hw] at h1; exact h1

/-- The loop bound of `DRUN` is never reached (log entry 7). -/
theorem drunLoop_ne_loopBound : ∀ (k : Nat) (s : State), bitsLeft s < k → drunLoop k s ≠ .stuck .loopBound
  | 0, s, h => by omega
  | k + 1, s, h => by
    unfold drunLoop
    split
    · intro h'; cases h'
    · simp only
      cases hd : decBody s with
      | done s1 =>
        have := decBody_bitsLeft hd
        exact drunLoop_ne_loopBound k s1 (by omega)
      | raised s1 => intro h'; cases h'
      | stuck f => rw [← hd, show (decBody s).andThen (drunLoop k) = decBody s by rw [hd]; rfl]; exact decBody_ne_loopBound s

/-- The loop of `DRUN` on the table and the bits to come (R172): when they hold a symbol for each of the `n` counts, it
completes and has emitted them; otherwise it ends in a fault. -/
theorem drunLoop_spec : ∀ (n k : Nat) (s : State), CountsOk s → UnpackerOk s → sumOfCounts s.freq = n → bitsLeft s < k →
    match decodeSymbols n s.freq (inputBits s) with
    | some (xs, rest) => ∃ s', drunLoop k s = .done s' ∧ DecodeFrame s s' ∧ s'.sout = s.sout ++ xs ∧ s'.total = 0#72 ∧
        s'.freq = Vector.replicate 256 0#64 ∧ CountsOk s' ∧ inputBits s' = rest ∧
        (∃ taken, s.inp = taken ++ s'.inp) ∧ (s.ucnt.toNat ≤ 7 → s'.ucnt.toNat ≤ 7) ∧ (n ≠ 0 → s'.tv = false)
    | none => ∃ s', drunLoop k s = .raised s'
  | 0, k, s, hk, h8, hn, hb => by
    have hl := (sumOfCounts_eq_zero_iff s.freq).1 hn
    have ht := (total_eq_zero_iff hk).2 hl
    refine ⟨s, ?_, rfl, by simp, ht, freq_eq_replicate hl, hk, rfl, ⟨[], rfl⟩, id, by simp⟩
    unfold drunLoop
    rw [if_pos ht]
  | n + 1, k, s, hk, h8, hn, hb => by
    have hl : liveCount s.freq ≠ 0 := fun h' => by
      have := (sumOfCounts_eq_zero_iff s.freq).2 h'; omega
    have ht : s.total ≠ 0#72 := fun h' => hl ((total_eq_zero_iff hk).1 h')
    obtain ⟨k', rfl⟩ : ∃ k', k = k' + 1 := ⟨k - 1, by omega⟩
    have hd : drunLoop (k' + 1) s = (decBody s).andThen (drunLoop k') := by
      conv_lhs => unfold drunLoop
      rw [if_neg ht]
    obtain ⟨h, htree, hspec⟩ := decBody_spec hk hl h8
    rw [hd]
    simp only [decodeSymbols, htree]
    cases htd : treeDecode h (inputBits s) with
    | none =>
      rw [htd] at hspec
      obtain ⟨s', hf⟩ := hspec
      generalize decBody s = r at hf
      cases hf <;> exact ⟨_, rfl⟩
    | some q =>
      obtain ⟨x, rest⟩ := q
      rw [htd] at hspec
      obtain ⟨s1, hw, hcur, hin, h7, hx, hdone⟩ := hspec
      have hbits := decBody_bitsLeft hdone
      have hfr : WalkFrame (builtState s) s1 := hw.eq
      have hfreq1 : s1.freq = s.freq := by rw [hfr]; rfl
      have hfx : freqOf s1 x = freqOf s x := by unfold freqOf; rw [hfreq1]
      have hk1 : CountsOk { s1 with sym := x, sout := s1.sout ++ [x] } := by
        rw [hfr]; exact hk
      have hk2 : CountsOk (emitted x s1) := setF_countsOk hk1 x _
      have hfreq2 : (emitted x s1).freq = countDown s.freq x := by
        unfold emitted countDown
        rw [setF_freq, hfx]
        simp only [pushSymbol, hfreq1]
        rfl
      have hsum : sumOfCounts (emitted x s1).freq = n := by
        rw [hfreq2]
        have h1 := sumOfCounts_set s.freq x (s.freq[x.toNat]'x.isLt - 1#64)
        have h2 : (s.freq[x.toNat]'x.isLt).toNat ≠ 0 := fun h' => hx (BitVec.eq_of_toNat_eq (by exact h'))
        rw [BitVec.toNat_sub] at h1
        unfold countDown
        have := (s.freq[x.toNat]'x.isLt).isLt
        simp only [BitVec.toNat_ofNat] at h1
        omega
      have hin2 : inputBits (emitted x s1) = rest := hin
      have ih := drunLoop_spec n k' (emitted x s1) hk2 (show s1.ucnt.toNat ≤ 8 by omega) hsum (by omega)
      rw [hfreq2, hin2] at ih
      rw [hdone]
      simp only [Result.andThen]
      cases hds : decodeSymbols n (countDown s.freq x) rest with
      | none =>
        rw [hds] at ih
        exact ih
      | some q =>
        obtain ⟨xs, rest'⟩ := q
        rw [hds] at ih
        obtain ⟨s', i1, i2, i3, i4, i5, i6, i7, i8, i9, i10⟩ := ih
        refine ⟨s', i1, ?_, ?_, i4, i5, i6, i7, ?_, fun _ => i9 h7, fun _ => ?_⟩
        · have he : DecodeFrame s (emitted x s1) := by unfold DecodeFrame emitted; rw [hfr]; rfl
          unfold DecodeFrame at i2 he ⊢
          rw [i2, he]
        · have he : (emitted x s1).sout = s.sout ++ [x] := by
            rw [show (emitted x s1).sout = s1.sout ++ [x] from rfl, hfr]; rfl
          rw [i3, he]; simp
        · obtain ⟨a, ha⟩ := hw.inp
          obtain ⟨b, hb'⟩ := i8
          exact ⟨a ++ b, by rw [List.append_assoc, ← hb']; exact ha⟩
        · by_cases h0 : n = 0
          · subst h0
            have : drunLoop k' (emitted x s1) = .done (emitted x s1) := by
              unfold drunLoop
              rw [if_pos ((total_eq_zero_iff hk2).2 ((sumOfCounts_eq_zero_iff _).1 hsum))]
            rw [this] at i1
            cases i1
            rfl
          · exact i10 h0

end Sys2Proof.Machine
end

