-- ==== Sys2Proof/Laws/Invariant.lean ====
section
/-!
SUPPORT. Each shared operation keeps `Inv` (spec 10_state.md R32, R44; 43_bit_packer.md R150), the invariant holds at
reset, and how an outcome reads as the end of a command's body.
-/

namespace Sys2Proof.Machine

/-- With `TV = 0` nothing is asked of the tree. -/
theorem Inv.of_no_tree {s : State} (h1 : CountsOk s) (h2 : PackerOk s) (h3 : UnpackerOk s) (h4 : CodeOk s)
    (h5 : FaultOk s) (h6 : s.tv = false) : Inv s :=
  ⟨h1, h2, h3, h4, h5, fun h => by rw [h6] at h; cases h⟩

theorem counts_replicate : CountsOk State.reset := by
  have h1 : liveCount State.reset.freq = 0 := by
    unfold liveCount State.reset
    rw [List.countP_eq_zero]
    intro a ha
    rw [Vector.mem_toList_iff, Vector.mem_replicate] at ha
    simp [ha.2]
  exact ⟨by rw [(sumOfCounts_eq_zero_iff _).2 h1]; rfl, by rw [h1]; rfl⟩

theorem clearState_inv (s : State) : Inv (clearState s) :=
  Inv.of_no_tree counts_replicate ⟨by simp, by simp⟩ (by simp [UnpackerOk]) (by simp [CodeOk]) (by simp [FaultOk]) rfl

theorem causeCode_range (c : Cause) : 1 ≤ (causeCode c).toNat ∧ (causeCode c).toNat ≤ 8 := by cases c <;> decide

/-- Only the channels and the position, or the fault registers, differ. -/
theorem TreeOk.congr {s s' : State} (h : TreeOk s) (hf : s'.freq = s.freq) (hn : s'.nodes = s.nodes)
    (hi : s'.nint = s.nint) (hr : s'.root = s.root) (hl : s'.leafv = s.leafv) (hk : s'.nleaf = s.nleaf)
    (hc : ∃ path, walkDown s.nodes s.root path = some s'.cur) : TreeOk s' := by
  obtain ⟨t, ht⟩ := h.hasTree
  refine (ht.congr hf hn hi hr hl hk).treeOk ?_
  rw [hn, hr]; exact hc

theorem Inv.enterFault {s : State} (h : Inv s) (c : Cause) (info : BitVec 16) : Inv (enterFault c info s) :=
  ⟨h.counts, h.packer, h.unpacker, h.code, by simpa [FaultOk] using causeCode_range c,
    fun htv => (h.tree htv).congr rfl rfl rfl rfl rfl rfl (h.tree htv).cur_ok⟩

theorem Inv.advance {s : State} (h : Inv s) : Inv (advance s) :=
  ⟨h.counts, h.packer, h.unpacker, h.code, h.fault,
    fun htv => (h.tree htv).congr rfl rfl rfl rfl rfl rfl (h.tree htv).cur_ok⟩

theorem Inv.setF {s : State} (h : Inv s) (x : Symbol) (v : Count) : Inv (setF s x v) :=
  Inv.of_no_tree (setF_countsOk h.counts x v) h.packer h.unpacker h.code h.fault rfl

theorem Inv.result {s : State} (h : Inv s) (v : Count) : Inv { s with res := v } :=
  ⟨h.counts, h.packer, h.unpacker, h.code, h.fault,
    fun htv => (h.tree htv).congr rfl rfl rfl rfl rfl rfl (h.tree htv).cur_ok⟩

theorem Inv.emitted {s : State} (h : Inv s) (x : Symbol) : Inv (emitted x s) :=
  Inv.of_no_tree (setF_countsOk (s := pushSymbol x { s with sym :=
    x }) h.counts x _) h.packer h.unpacker h.code h.fault rfl

/-- A completed `BUILD` makes the tree valid. -/
theorem Inv.built {s : State} (h : Inv s) (hl : liveCount s.freq ≠ 0) : Inv (builtState s) := by
  obtain ⟨t, ht, hcur⟩ := builtState_hasTree hl
  exact ⟨h.counts, h.packer, h.unpacker, h.code, h.fault, fun _ => ht.treeOk ⟨[], rfl⟩⟩

theorem Inv.coded {s : State} (h : Inv s) {c : List Bool} (hc : c.length ≤ 255) : Inv (coded c s) :=
  ⟨h.counts, h.packer, h.unpacker, codeOk_coded hc s, h.fault,
    fun htv => (h.tree htv).congr rfl rfl rfl rfl rfl rfl (h.tree htv).cur_ok⟩

theorem Inv.packed {s : State} (h : Inv s) : Inv (packed s) :=
  ⟨h.counts, (packed_spec h.packer).1, h.unpacker, h.code, h.fault,
    fun htv => (h.tree htv).congr rfl rfl rfl rfl rfl rfl (h.tree htv).cur_ok⟩

theorem flushed_eq (s : State) : ∃ p, flushed s = withPacker s p := by
  unfold flushed
  split
  · exact ⟨_, rfl⟩
  · exact ⟨packerOf s, rfl⟩

theorem Inv.flushed {s : State} (h : Inv s) : Inv (flushed s) := by
  have h1 := (flushed_spec h.packer).1
  obtain ⟨p, hp⟩ := flushed_eq s
  rw [hp] at h1 ⊢
  exact ⟨h.counts, h1, h.unpacker, h.code, h.fault,
    fun htv => (h.tree htv).congr rfl rfl rfl rfl rfl rfl (h.tree htv).cur_ok⟩

/-- Reading bits and moving the cursor inside the tree. -/
theorem Inv.walked {s s' : State} (h : Inv s) (hw : WalkFrame s s') (h8 : s'.ucnt.toNat ≤ 8)
    (hc : s.tv = true → ∃ path, walkDown s.nodes s.root path = some s'.cur) : Inv s' := by
  have htv : s'.tv = s.tv := by rw [hw]
  have hk : CountsOk s' := by rw [hw]; exact h.counts
  have hp : PackerOk s' := by rw [hw]; exact h.packer
  have hcode : CodeOk s' := by rw [hw]; exact h.code
  have hf : FaultOk s' := by rw [hw]; exact h.fault
  refine ⟨hk, hp, h8, hcode, hf, fun ht => ?_⟩
  rw [htv] at ht
  exact (h.tree ht).congr (by rw [hw]) (by rw [hw]) (by rw [hw]) (by rw [hw]) (by rw [hw]) (by rw [hw]) (hc ht)

/-- The cursor never stands on `NULL` while the tree is valid (R44 item 6): the model's stop `noSuchSlot` is not reached. -/
theorem walkDown_ne_null {nodes : Vector Node 511} : ∀ (path : List Bool) {n m : NodeIx}, n ≠ Config.null →
    walkDown nodes n path = some m → m ≠ Config.null
  | [], n, m, hn, h => by cases h; exact hn
  | b :: path, n, m, hn, h => by
    unfold walkDown at h
    split at h
    · cases h
    · rename_i nd _
      obtain ⟨c, hc⟩ : ∃ c, c = (if b then nd.right else nd.left) := ⟨_, rfl⟩
      simp only [← hc] at h
      by_cases h0 : c = Config.null
      · rw [if_pos h0] at h; cases h
      · rw [if_neg h0] at h
        exact walkDown_ne_null path h0 h

theorem Inv.cursor {s : State} (h : Inv s) (htv : s.tv = true) : ∃ nd, nodeAt s.nodes s.cur = some nd := by
  obtain ⟨t, ht⟩ := (h.tree htv).hasTree
  obtain ⟨path, hp⟩ := (h.tree htv).cur_ok
  exact exists_nodeAt (walkDown_ne_null path ht.root_ne_null hp)

/-- The node the cursor stands on is a node of the tree. -/
theorem STree.reps_of_walkDown {nodes : Vector Node 511} : ∀ (path : List Bool) {t : STree} {p m : NodeIx},
    t.Reps nodes p → walkDown nodes t.slot path = some m →
    ∃ (u : STree) (q : NodeIx), u.slot = m ∧ u.Reps nodes q ∧ (∀ n ∈ u.slots, n ∈ t.slots)
  | [], t, p, m, hr, h => by cases h; exact ⟨t, p, rfl, hr, fun n hn => hn⟩
  | b :: path, .leaf x f, p, m, hr, h => by
    have hn : nodeAt nodes (leafSlot x) = some (leafRecord x f p) := hr
    simp [walkDown, hn, leafRecord] at h
  | b :: path, .two n l r f, p, m, hr, h => by
    have hn := hr.1
    cases b with
    | false =>
      simp only [slot_two, walkDown, hn, innerRecord, Bool.false_eq_true, if_false, if_neg hr.2.1.slot_ne_null] at h
      obtain ⟨u, q, h1, h2, h3⟩ := reps_of_walkDown path hr.2.1 h
      exact ⟨u, q, h1, h2, fun k hk => by simp [slots, h3 k hk]⟩
    | true =>
      simp only [slot_two, walkDown, hn, innerRecord, if_true, if_neg hr.2.2.slot_ne_null] at h
      obtain ⟨u, q, h1, h2, h3⟩ := reps_of_walkDown path hr.2.2 h
      exact ⟨u, q, h1, h2, fun k hk => by simp [slots, h3 k hk]⟩
  | b :: path, .one n l f, p, m, hr, h => by
    have hn := hr.1
    cases b with
    | false =>
      simp only [slot_one, walkDown, hn, innerRecord, Bool.false_eq_true, if_false, if_neg hr.2.slot_ne_null] at h
      obtain ⟨u, q, h1, h2, h3⟩ := reps_of_walkDown path hr.2 h
      exact ⟨u, q, h1, h2, fun k hk => by simp [slots, h3 k hk]⟩
    | true => simp [walkDown, hn, innerRecord] at h

/-- A leaf under the cursor is the leaf of a live symbol (R162's remark: the inner `FDEC` of `EMIT` cannot fault). -/
theorem Inv.cursor_leaf {s : State} (h : Inv s) (htv : s.tv = true) {nd : Node} (hn : nodeAt s.nodes s.cur = some nd)
    (ht : nd.tag = .leaf) : s.cur = leafSlot nd.sym ∧ freqOf s nd.sym ≠ 0#64 := by
  obtain ⟨t, htr⟩ := (h.tree htv).hasTree
  obtain ⟨path, hp⟩ := (h.tree htv).cur_ok
  rw [htr.root] at hp
  obtain ⟨u, q, h1, h2, h3⟩ := STree.reps_of_walkDown path htr.reps hp
  have h4 := h2.root
  rw [h1, hn] at h4
  cases u with
  | leaf x f =>
    cases h4
    exact ⟨h1.symm, (htr.leaf_mem x).1 (h3 _ (by simp [STree.slots]))⟩
  | two n l r f => cases h4; cases ht
  | one n l f => cases h4; cases ht

/-! ### Outcomes -/

@[simp] theorem command_fault {body : State → Result} {s : State} (h : s.fault = true) : command body s = .next s := by
  simp [command, h]

theorem command_ok {body : State → Result} {s : State} (h : s.fault = false) : command body s = (body s).outcome := by
  simp [command, h]

/-- How a command that answers a next state ended: refused, completed or faulted. -/
theorem command_next {body : State → Result} {s t : State} (h : command body s = .next t) :
    (s.fault = true ∧ t = s) ∨ (s.fault = false ∧ (body s = .done t ∨ body s = .raised t)) := by
  unfold command at h
  split at h
  · cases h; exact Or.inl ⟨by assumption, rfl⟩
  · rename_i hf
    refine Or.inr ⟨by simpa using hf, ?_⟩
    cases hb : body s with
    | done s' => rw [hb] at h; cases h; exact Or.inl rfl
    | raised s' => rw [hb] at h; cases h; exact Or.inr rfl
    | stuck f => rw [hb] at h; cases h

end Sys2Proof.Machine
end

