-- ==== Sys2Proof/Laws/Frame.lean ====
section
/-!
SUPPORT. What each command may change, in every state (spec 10_state.md R20, R39): its own part of the state, and the
three fault registers when it ends in a fault. `Result.Ends R r` says that the body reached a state with `R`, and that a
fault, if there is one, was entered from there.
-/

namespace Sys2Proof.Machine

/-- The streams after a command: `IN` taken from its front, `OUT` and `SOUT` appended to (R39). -/
structure Streams (s t : State) : Prop where
  inp  : t.inp <:+ s.inp
  out  : s.out <+: t.out
  sout : s.sout <+: t.sout

theorem Streams.same {s t : State} (h1 : t.inp = s.inp) (h2 : t.out = s.out) (h3 : t.sout = s.sout) : Streams s t :=
  ⟨by rw [h1], by rw [h2], by rw [h3]⟩

theorem Streams.refl (s : State) : Streams s s := .same rfl rfl rfl

theorem Streams.trans {s t u : State} (h : Streams s t) (h' : Streams t u) : Streams s u :=
  ⟨h'.inp.trans h.inp, h.out.trans h'.out, h.sout.trans h'.sout⟩

/-- The part of the state a command may change when it completes. -/
def CommandFrame (i : Instr) (s t : State) : Prop :=
  match i with
  | .clr => t = clearState s
  | .fld _ _ => t = { s with freq := t.freq, total := t.total, live := t.live, tv := t.tv }
  | .finc _ => t = { s with freq := t.freq, total := t.total, live := t.live, tv := t.tv }
  | .fdec _ => t = { s with freq := t.freq, total := t.total, live := t.live, tv := t.tv }
  | .frd _ => t = { s with res := t.res }
  | .build => BuildFrame s t
  | .xcode _ => t = { s with code := t.code, clen := t.clen }
  | .pack => t = { s with pbuf := t.pbuf, free := t.free, out := t.out }
  | .flush => t = { s with pbuf := t.pbuf, free := t.free, out := t.out }
  | .step => WalkFrame s t
  | .emit => t = { s with sym := t.sym, sout := t.sout, freq := t.freq, total := t.total, live := t.live, tv := t.tv }
  | .enc _ => EncodeFrame s t
  | .dec => DecodeFrame s t
  | .drun => DecodeFrame s t

/-- How a body ends, the fault registers apart. -/
def Result.Ends (R : State → Prop) : Result → Prop
  | .done t => R t
  | .raised t => ∃ c info u, R u ∧ t = enterFault c info u
  | .stuck _ => True

theorem Result.Ends.mono {R R' : State → Prop} (h : ∀ t, R t → R' t) : ∀ {r : Result}, r.Ends R → r.Ends R'
  | .done t, ht => h t ht
  | .raised _, ⟨c, info, u, hu, ht⟩ => ⟨c, info, u, h u hu, ht⟩
  | .stuck _, _ => trivial

theorem Result.Ends.andThen {R R' : State → Prop} {k : State → Result} (hR : ∀ t, R t → R' t)
    (hk : ∀ t, R t → (k t).Ends R') : ∀ {r : Result}, r.Ends R → (r.andThen k).Ends R'
  | .done t, ht => hk t ht
  | .raised _, ⟨c, info, u, hu, ht⟩ => ⟨c, info, u, hR u hu, ht⟩
  | .stuck _, _ => trivial

theorem raise_ends {R : State → Prop} (c : Cause) (info : BitVec 16) {s : State} (h : R s) : (raise c info s).Ends R :=
  ⟨c, info, s, h, rfl⟩

theorem buildBody_ends (s : State) : (buildBody s).Ends fun t => BuildFrame s t ∧ Streams s t := by
  unfold buildBody
  split
  · exact raise_ends _ _ ⟨rfl, .same rfl rfl rfl⟩
  · exact ⟨rfl, .same rfl rfl rfl⟩

theorem xcodeBody_ends (x : Symbol) (s : State) :
    (xcodeBody x s).Ends fun t => t = { s with code := t.code, clen := t.clen } ∧ Streams s t := by
  unfold xcodeBody
  split
  · exact raise_ends _ _ ⟨rfl, .same rfl rfl rfl⟩
  · split
    · exact raise_ends _ _ ⟨rfl, .same rfl rfl rfl⟩
    · split
      · trivial
      · exact ⟨rfl, .same rfl rfl rfl⟩

theorem packed_streams (s : State) : Streams s (packed s) := by
  obtain ⟨ys, h⟩ := packLoop_out s.code s.clen.toNat s.clen.toNat (packerOf s)
  exact ⟨List.suffix_refl _, ⟨ys, h.symm⟩, List.prefix_refl _⟩

theorem flushed_streams (s : State) : Streams s (flushed s) := by
  unfold flushed
  split
  · exact ⟨List.suffix_refl _, ⟨[s.pbuf], rfl⟩, List.prefix_refl _⟩
  · exact Streams.refl s

theorem flushed_frame (s : State) :
    flushed s = { s with pbuf := (flushed s).pbuf, free := (flushed s).free, out := (flushed s).out } := by
  obtain ⟨p, hp⟩ := flushed_eq s
  rw [hp]
  rfl

theorem fdecBody_ends (x : Symbol) (s : State) : (fdecBody x s).Ends fun t =>
    t = { s with freq := t.freq, total := t.total, live := t.live, tv := t.tv } ∧ Streams s t := by
  unfold fdecBody
  split
  · exact raise_ends _ _ ⟨rfl, .same rfl rfl rfl⟩
  · exact ⟨rfl, .same rfl rfl rfl⟩

theorem fincBody_ends (x : Symbol) (s : State) : (fincBody x s).Ends fun t =>
    t = { s with freq := t.freq, total := t.total, live := t.live, tv := t.tv } ∧ Streams s t := by
  unfold fincBody
  split
  · exact raise_ends _ _ ⟨rfl, .same rfl rfl rfl⟩
  · exact ⟨rfl, .same rfl rfl rfl⟩

theorem getBit_streams {s s' : State} {b : Bool} (h : getBit s = some (b, s')) : Streams s s' := by
  unfold getBit at h
  split at h
  · split at h
    · cases h
    · rename_i b0 rest hi
      simp only [Option.some.injEq] at h
      rw [← (Prod.mk.inj h).2]
      exact ⟨by rw [hi]; exact List.suffix_cons b0 rest, List.prefix_refl _, List.prefix_refl _⟩
  · simp only [Option.some.injEq] at h
    rw [← (Prod.mk.inj h).2]
    exact .same rfl rfl rfl

theorem stepBody_ends (s : State) : (stepBody s).Ends fun t => WalkFrame s t ∧ Streams s t := by
  unfold stepBody
  split
  · exact raise_ends _ _ ⟨rfl, .same rfl rfl rfl⟩
  · split
    · trivial
    · split
      · exact raise_ends _ _ ⟨rfl, .same rfl rfl rfl⟩
      · split
        · exact raise_ends _ _ ⟨rfl, .same rfl rfl rfl⟩
        · rename_i b s1 hg
          have h1 := getBit_frame hg
          have h2 := getBit_streams hg
          rcases followEdge_cases _ b s1 with h3 | ⟨n, -, -, h3⟩ <;> rw [h3]
          · exact ⟨_, _, s1, ⟨h1, h2⟩, rfl⟩
          · refine ⟨?_, h2.trans (.same rfl rfl rfl)⟩
            unfold WalkFrame at h1 ⊢
            rw [h1]

theorem emitBody_ends (s : State) : (emitBody s).Ends fun t =>
    t = { s with sym := t.sym, sout := t.sout, freq := t.freq, total := t.total, live := t.live, tv := t.tv } ∧
      Streams s t := by
  unfold emitBody
  split
  · exact raise_ends _ _ ⟨rfl, .same rfl rfl rfl⟩
  · split
    · trivial
    · split
      · exact raise_ends _ _ ⟨rfl, .same rfl rfl rfl⟩
      · rename_i nd _ _ _
        refine (fdecBody_ends nd.sym _).mono ?_
        rintro t ⟨h1, h2⟩
        refine ⟨by rw [h1]; rfl, Streams.trans ?_ h2⟩
        exact ⟨List.suffix_refl _, List.prefix_refl _, List.prefix_append _ _⟩

theorem encBody_ends (x : Symbol) (s : State) : (encBody x s).Ends fun t => EncodeFrame s t ∧ Streams s t := by
  unfold encBody
  split
  · exact raise_ends _ _ ⟨rfl, .same rfl rfl rfl⟩
  · split
    · exact raise_ends _ _ ⟨rfl, .same rfl rfl rfl⟩
    · refine Result.Ends.andThen (R := fun t => EncodeFrame s t ∧ Streams s t) (fun _ h => h) (fun t ht => ?_)
        (Result.Ends.andThen (R := fun t => EncodeFrame s t ∧ Streams s t) (fun _ h => h) (fun t ht => ?_)
          (Result.Ends.andThen (R := fun t => EncodeFrame s t ∧ Streams s t) (fun _ h => h) (fun t ht => ?_)
            ((buildBody_ends s).mono fun t ht => ?_)))
      · refine (fdecBody_ends x t).mono fun u hu => ⟨?_, ht.2.trans hu.2⟩
        have h1 := ht.1
        unfold EncodeFrame at h1 ⊢
        rw [hu.1, h1]
      · refine ⟨?_, ht.2.trans (packed_streams t)⟩
        have h1 := ht.1
        unfold EncodeFrame at h1 ⊢
        have : withPacker t (packLoop t.code t.clen.toNat t.clen.toNat (packerOf t)) =
          { t with pbuf := (packed t).pbuf, free := (packed t).free, out := (packed t).out } := rfl
        rw [this, h1]
      · refine (xcodeBody_ends x t).mono fun u hu => ⟨?_, ht.2.trans hu.2⟩
        have h1 := ht.1
        unfold EncodeFrame at h1 ⊢
        rw [hu.1, h1]
      · refine ⟨?_, ht.2⟩
        have h1 := ht.1
        unfold EncodeFrame
        unfold BuildFrame at h1
        rw [h1]

theorem walkLoop_ends : ∀ (k : Nat) (s : State), (walkLoop k s).Ends fun t => WalkFrame s t ∧ Streams s t
  | k, s => by
    unfold walkLoop
    split
    · trivial
    · split
      · exact ⟨rfl, .same rfl rfl rfl⟩
      · match k with
        | 0 => trivial
        | k + 1 =>
          refine Result.Ends.andThen (fun _ h => h) (fun t ht => ?_) (stepBody_ends s)
          refine (walkLoop_ends k t).mono fun u hu => ⟨?_, ht.2.trans hu.2⟩
          have h1 := ht.1
          have h2 := hu.1
          unfold WalkFrame at h1 h2 ⊢
          rw [h2, h1]

theorem decBody_ends (s : State) : (decBody s).Ends fun t => DecodeFrame s t ∧ Streams s t := by
  unfold decBody
  refine Result.Ends.andThen (R := fun t => DecodeFrame s t ∧ Streams s t) (fun _ h => h) (fun t ht => ?_)
    (Result.Ends.andThen (R := fun t => DecodeFrame s t ∧ Streams s t) (fun _ h => h) (fun t ht => ?_)
      ((buildBody_ends s).mono fun t ht => ⟨?_, ht.2⟩))
  · refine (emitBody_ends t).mono fun u hu => ⟨?_, ht.2.trans hu.2⟩
    have h1 := ht.1
    unfold DecodeFrame at h1 ⊢
    rw [hu.1, h1]
  · refine (walkLoop_ends _ t).mono fun u hu => ⟨?_, ht.2.trans hu.2⟩
    have h1 := ht.1
    have h2 := hu.1
    unfold DecodeFrame at h1 ⊢
    unfold WalkFrame at h2
    rw [h2, h1]
  · have h1 := ht.1
    unfold DecodeFrame
    unfold BuildFrame at h1
    rw [h1]

theorem drunLoop_ends : ∀ (k : Nat) (s : State), (drunLoop k s).Ends fun t => DecodeFrame s t ∧ Streams s t
  | k, s => by
    unfold drunLoop
    split
    · exact ⟨rfl, .same rfl rfl rfl⟩
    · match k with
      | 0 => trivial
      | k + 1 =>
        refine Result.Ends.andThen (fun _ h => h) (fun t ht => ?_) (decBody_ends s)
        refine (drunLoop_ends k t).mono fun u hu => ⟨?_, ht.2.trans hu.2⟩
        have h1 := ht.1
        have h2 := hu.1
        unfold DecodeFrame at h1 h2 ⊢
        rw [h2, h1]

/-- How a command that answers a next state has changed the state, in every state: refused in the fault state, or
completed within its frame, or a fault entered from within its frame. -/
theorem exec_frame {i : Instr} {s t : State} (h : exec i s = .next t) :
    (s.fault = true ∧ i ≠ .clr ∧ t = s) ∨
      ((s.fault = false ∨ i = .clr) ∧ CommandFrame i s t ∧ Streams s t) ∨
      (s.fault = false ∧ ∃ c info u, CommandFrame i s u ∧ Streams s u ∧ t = enterFault c info u) := by
  by_cases hclr : i = .clr
  · subst hclr
    cases h
    exact Or.inr (Or.inl ⟨Or.inr rfl, rfl, .same rfl rfl rfl⟩)
  · obtain ⟨body, hb, he⟩ : ∃ body : State → Result, exec i s = command body s ∧
        (body s).Ends fun t => CommandFrame i s t ∧ Streams s t := by
      cases i with
      | clr => exact absurd rfl hclr
      | fld x v => exact ⟨_, rfl, rfl, .same rfl rfl rfl⟩
      | finc x => exact ⟨_, rfl, fincBody_ends x s⟩
      | fdec x => exact ⟨_, rfl, fdecBody_ends x s⟩
      | frd x => exact ⟨_, rfl, rfl, .same rfl rfl rfl⟩
      | build => exact ⟨_, rfl, buildBody_ends s⟩
      | xcode x => exact ⟨_, rfl, xcodeBody_ends x s⟩
      | pack => exact ⟨_, rfl, rfl, packed_streams s⟩
      | flush => exact ⟨_, rfl, by rw [flushBody_eq]; exact ⟨flushed_frame s, flushed_streams s⟩⟩
      | step => exact ⟨_, rfl, stepBody_ends s⟩
      | emit => exact ⟨_, rfl, emitBody_ends s⟩
      | enc x => exact ⟨_, rfl, encBody_ends x s⟩
      | dec => exact ⟨_, rfl, decBody_ends s⟩
      | drun => exact ⟨_, rfl, drunLoop_ends _ s⟩
    rw [hb] at h
    rcases command_next h with ⟨hf, rfl⟩ | ⟨hf, hd | hd⟩
    · exact Or.inl ⟨hf, hclr, rfl⟩
    · rw [hd] at he
      exact Or.inr (Or.inl ⟨Or.inl hf, he⟩)
    · rw [hd] at he
      obtain ⟨c, info, u, ⟨h1, h2⟩, h3⟩ := he
      exact Or.inr (Or.inr ⟨hf, c, info, u, h1, h2, h3⟩)

end Sys2Proof.Machine
end

