-- ==== Sys2Proof/Laws/Keeps.lean ====
section
/-!
SUPPORT. Each command's body, started in a state of the invariant, ends (it is not stuck), and ends in a state of the
invariant, completed or faulted (spec 10_state.md R32, R44; 60_exceptions.md R201).
-/

namespace Sys2Proof.Machine

/-- The body ends, and ends in a state with `P`. -/
def Result.Holds (P : State → Prop) : Result → Prop
  | .done t => P t
  | .raised t => P t
  | .stuck _ => False

theorem Result.Holds.andThen {P : State → Prop} {k : State → Result} :
    ∀ {r : Result}, r.Holds P → (∀ t, r = .done t → P t → (k t).Holds P) → (r.andThen k).Holds P
  | .done t, h, hk => hk t rfl h
  | .raised _, h, _ => h
  | .stuck _, h, _ => h.elim

theorem fdecBody_keeps {s : State} (h : Inv s) (x : Symbol) : (fdecBody x s).Holds Inv := by
  unfold fdecBody
  split
  · exact h.enterFault _ _
  · exact h.setF x _

theorem fincBody_keeps {s : State} (h : Inv s) (x : Symbol) : (fincBody x s).Holds Inv := by
  unfold fincBody
  split
  · exact h.enterFault _ _
  · exact h.setF x _

theorem buildBody_keeps {s : State} (h : Inv s) : (buildBody s).Holds Inv := by
  by_cases hl : liveCount s.freq = 0
  · unfold buildBody
    rw [if_pos ((live_eq_zero_iff h.counts).2 hl)]
    exact h.enterFault _ _
  · rw [buildBody_done h.counts hl]
    exact h.built hl

theorem xcodeBody_keeps {s : State} (h : Inv s) (x : Symbol) : (xcodeBody x s).Holds Inv := by
  by_cases htv : s.tv = true
  · obtain ⟨t, ht⟩ := (h.tree htv).hasTree
    by_cases hx : freqOf s x = 0#64
    · have hv : leafValid s x = false := by
        rw [Bool.eq_false_iff]
        exact fun h' => (ht.leafValid x).1 h' hx
      unfold xcodeBody
      rw [if_neg (by simp [htv]), if_pos hv]
      exact h.enterFault _ _
    · obtain ⟨c, hc, -, -, h255⟩ := ht.exists_code hx
      rw [xcodeBody_done ht htv hx hc h255]
      exact h.coded h255
  · unfold xcodeBody
    rw [if_pos (by simpa using htv)]
    exact h.enterFault _ _

theorem stepBody_keeps {s : State} (h : Inv s) : (stepBody s).Holds Inv := by
  by_cases htv : s.tv = true
  · obtain ⟨nd, hn⟩ := h.cursor htv
    cases ht : nd.tag with
    | leaf =>
      unfold stepBody
      rw [if_neg (by simp [htv])]
      simp only [hn, ht]
      exact h.enterFault _ _
    | internal =>
      rcases stepBody_tree htv h.unpacker hn ht with ⟨-, h2⟩ | ⟨b, s1, -, h2, h3, h4, h5, h6⟩
      · rw [h2]; exact h.enterFault _ _
      · have hc := (h.tree htv).cur_ok
        obtain ⟨n, hnx⟩ : ∃ n, n = (if b then nd.right else nd.left) := ⟨_, rfl⟩
        rw [← hnx] at h5 h6
        by_cases h0 : n = Config.null
        · rw [h5 h0]
          refine (h.walked h4.eq (by omega) fun _ => ?_).enterFault _ _
          rw [h3]; exact hc
        · rw [h6 h0]
          refine h.walked (h4.move n).eq (by show s1.ucnt.toNat ≤ 8; omega) fun _ => ?_
          obtain ⟨path, hp⟩ := hc
          refine ⟨path ++ [b], ?_⟩
          rw [walkDown_append, hp]
          simp only [Option.bind_some, walkDown, hn]
          rw [← hnx, if_neg h0]
  · unfold stepBody
    rw [if_pos (by simpa using htv)]
    exact h.enterFault _ _

theorem emitBody_keeps {s : State} (h : Inv s) : (emitBody s).Holds Inv := by
  by_cases htv : s.tv = true
  · obtain ⟨nd, hn⟩ := h.cursor htv
    cases ht : nd.tag with
    | internal =>
      unfold emitBody
      rw [if_neg (by simp [htv])]
      simp only [hn, ht]
      exact h.enterFault _ _
    | leaf =>
      rw [emitBody_leaf htv hn ht (h.cursor_leaf htv hn ht).2]
      exact h.emitted _
  · unfold emitBody
    rw [if_pos (by simpa using htv)]
    exact h.enterFault _ _

theorem encBody_keeps {s : State} (h : Inv s) (x : Symbol) : (encBody x s).Holds Inv := by
  by_cases hx : freqOf s x = 0#64
  · unfold encBody
    split
    · exact h.enterFault _ _
    · exact h.enterFault _ _
  · obtain ⟨t, c, -, -, -, h255, hd⟩ := encBody_done h.counts hx
    rw [hd]
    exact (((h.built (liveCount_pos_of_freqOf hx)).coded h255).packed).setF x _

theorem stepBody_done_tv {s s' : State} (h : stepBody s = .done s') : s'.tv = true ∧ s.tv = true := by
  have h1 := stepBody_frame h
  have : s.tv = true := by
    unfold stepBody at h
    split at h
    · cases h
    · rename_i h0; simpa using h0
  exact ⟨by rw [h1]; exact this, this⟩

theorem walkLoop_keeps : ∀ (k : Nat) {s : State}, Inv s → s.tv = true → bitsLeft s < k → (walkLoop k s).Holds Inv
  | 0, s, _, _, hk => by omega
  | k + 1, s, h, htv, hk => by
    obtain ⟨nd, hn⟩ := h.cursor htv
    unfold walkLoop
    simp only [hn]
    cases ht : nd.tag with
    | leaf => exact h
    | internal =>
      refine (stepBody_keeps h).andThen fun t hd hi => walkLoop_keeps k hi (stepBody_done_tv hd).1 ?_
      have := stepBody_bitsLeft hd
      omega

theorem decBody_keeps {s : State} (h : Inv s) : (decBody s).Holds Inv := by
  refine Result.Holds.andThen (Result.Holds.andThen (buildBody_keeps h) fun t hd hi => ?_) fun t hd hi =>
    emitBody_keeps hi
  refine walkLoop_keeps _ hi ?_ (by omega)
  unfold buildBody at hd
  split at hd
  · cases hd
  · cases hd; rfl

theorem drunLoop_keeps : ∀ (k : Nat) {s : State}, Inv s → bitsLeft s < k → (drunLoop k s).Holds Inv
  | 0, s, _, hk => by omega
  | k + 1, s, h, hk => by
    unfold drunLoop
    split
    · exact h
    · refine (decBody_keeps h).andThen fun t hd hi => drunLoop_keeps k hi ?_
      have := decBody_bitsLeft hd
      omega

/-- Every command, from a state of the invariant. -/
theorem body_keeps {s : State} (h : Inv s) {i : Instr} (hi : i ≠ .clr) :
    ∃ body : State → Result, exec i s = command body s ∧ (body s).Holds Inv := by
  cases i with
  | clr => exact absurd rfl hi
  | fld x v => exact ⟨_, rfl, h.setF x v⟩
  | finc x => exact ⟨_, rfl, fincBody_keeps h x⟩
  | fdec x => exact ⟨_, rfl, fdecBody_keeps h x⟩
  | frd x => exact ⟨_, rfl, h.result _⟩
  | build => exact ⟨_, rfl, buildBody_keeps h⟩
  | xcode x => exact ⟨_, rfl, xcodeBody_keeps h x⟩
  | pack => exact ⟨_, rfl, h.packed⟩
  | flush => exact ⟨_, rfl, by rw [flushBody_eq]; exact h.flushed⟩
  | step => exact ⟨_, rfl, stepBody_keeps h⟩
  | emit => exact ⟨_, rfl, emitBody_keeps h⟩
  | enc x => exact ⟨_, rfl, encBody_keeps h x⟩
  | dec => exact ⟨_, rfl, decBody_keeps h⟩
  | drun => exact ⟨_, rfl, drunLoop_keeps _ h (by omega)⟩

theorem command_holds {body : State → Result} {s : State} {P : State → Prop} (h : (body s).Holds P) (hs : P s) :
    ∃ t, command body s = .next t ∧ P t := by
  unfold command
  split
  · exact ⟨s, rfl, hs⟩
  · cases hb : body s with
    | done t => rw [hb] at h; exact ⟨t, rfl, h⟩
    | raised t => rw [hb] at h; exact ⟨t, rfl, h⟩
    | stuck f => rw [hb] at h; exact h.elim

end Sys2Proof.Machine
end

