-- ==== Sys2Proof/Laws/Faults.lean ====
section
/-!
SUPPORT. How each command's body can end in a fault, and what a completed `DEC` has done, from a state of the invariant
(spec 60_exceptions.md R191, R194, R197; 45_driver.md R171, R172).
-/

namespace Sys2Proof.Machine

theorem toNat_ne_zero {n} {b : BitVec n} (h : b ≠ 0#n) : b.toNat ≠ 0 :=
    fun h' => h (BitVec.eq_of_toNat_eq (by simpa using h'))

theorem done_fault {R : State → Prop} {r : Result} {t : State} (h : r.Ends R) (hd : r = .done t) : R t := by
  rw [hd] at h; exact h

/-- A command that answers a state with `FAULT = 1` from one with `FAULT = 0` ended in a raise. -/
theorem command_raised {body : State → Result} {s t : State} (h : command body s = .next t) (hf : s.fault = false)
    (ht : t.fault = true)
   {R : State → Prop} (he : (body s).Ends R) (hR : ∀ u, R u → u.fault = s.fault) : body s = .raised t := by
  rcases command_next h with ⟨h1, -⟩ | ⟨-, h1 | h1⟩
  · rw [hf] at h1; cases h1
  · have := hR t (done_fault he h1)
    rw [hf, ht] at this; cases this
  · exact h1

/-- The fault of `FDEC` (R113). -/
theorem fdecBody_raised {s t : State} {x} (h : fdecBody x s = .raised t) : freqOf s x = 0#64 ∧
    t = enterFault .absentSymbol (x.setWidth 16) s := by
  unfold fdecBody at h
  split at h
  · rename_i h0; cases h; exact ⟨h0, rfl⟩
  · cases h

/-- The fault of `FINC` (R112). -/
theorem fincBody_raised {s t : State} {x} (h : fincBody x s = .raised t) : freqOf s x = BitVec.allOnes 64 ∧
    t = enterFault .freqOverflow (x.setWidth 16) s := by
  unfold fincBody at h
  split at h
  · rename_i h0; cases h; exact ⟨h0, rfl⟩
  · cases h

/-- The fault of `BUILD` (R133). -/
theorem buildBody_raised {s t : State} (h : buildBody s = .raised t) : s.live = 0#9 ∧
    t = enterFault .emptyBuild 0#16 s := by
  unfold buildBody at h
  split at h
  · rename_i h0; cases h; exact ⟨h0, rfl⟩
  · cases h

/-- The faults of `XCODE` (R140, R194). -/
theorem xcodeBody_raised {s t : State} {x} (h : xcodeBody x s = .raised t) :
   (s.tv = false ∧ t = enterFault .noTree 0#16 s) ∨ (leafValid s x = false ∧
     t = enterFault .absentSymbol (x.setWidth 16) s) := by
  unfold xcodeBody at h
  split at h
  · rename_i h0; cases h; exact Or.inl ⟨h0, rfl⟩
  · split at h
    · rename_i h0; cases h; exact Or.inr ⟨h0, rfl⟩
    · split at h <;> cases h

/-- The faults of `ENC` (R170, R194). -/
theorem encBody_raised {s t : State} {x} (hi : Inv s) (h : encBody x s = .raised t) :
   (s.live = 0#9 ∧ t = enterFault .emptyBuild 0#16 s) ∨ (freqOf s x = 0#64 ∧
     t = enterFault .absentSymbol (x.setWidth 16) s) := by
  by_cases hx : freqOf s x = 0#64
  · unfold encBody at h
    split at h
    · rename_i h0; cases h; exact Or.inl ⟨h0, rfl⟩
    · cases h; exact Or.inr ⟨hx, rfl⟩
  · obtain ⟨_, _, _, _, _, _, hd⟩ := encBody_done hi.counts hx
    rw [hd] at h; cases h

/-- The faults of `EMIT` (R162, R194). -/
theorem emitBody_raised {s t : State} (hi : Inv s) (h : emitBody s = .raised t) :
   (s.tv = false ∧ t = enterFault .noTree 0#16 s) ∨
   (∃ nd, nodeAt s.nodes s.cur = some nd ∧ nd.tag = .internal ∧ t = enterFault .badCursor (s.cur.setWidth 16) s) := by
  by_cases htv : s.tv = true
  · obtain ⟨nd, hn⟩ := hi.cursor htv
    cases ht : nd.tag with
    | internal =>
      unfold emitBody at h
      rw [if_neg (by simp [htv])] at h
      simp only [hn, ht] at h
      cases h
      exact Or.inr ⟨nd, hn, ht, rfl⟩
    | leaf =>
      rw [emitBody_leaf htv hn ht (hi.cursor_leaf htv hn ht).2] at h
      cases h
  · unfold emitBody at h
    have htv : s.tv = false := by simpa using htv
    rw [if_pos htv] at h
    cases h
    exact Or.inl ⟨htv, rfl⟩

/-- An internal node under the cursor has a left child (R44 item 3). -/
theorem Inv.left_ne_null {s : State} (hi : Inv s) (htv : s.tv = true)
    {nd : Node} (hn : nodeAt s.nodes s.cur = some nd) (ht : nd.tag = .internal) :
    nd.left ≠ Config.null := by
  obtain ⟨t, htr⟩ := (hi.tree htv).hasTree
  obtain ⟨path, hp⟩ := (hi.tree htv).cur_ok
  rw [htr.root] at hp
  obtain ⟨u, q, h1, h2, h3⟩ := STree.reps_of_walkDown path htr.reps hp
  have h4 := h2.root
  rw [h1, hn] at h4
  cases u with
  | leaf x f => cases h4; cases ht
  | two n l r f => cases h4; exact h2.2.1.slot_ne_null
  | one n l f => cases h4; exact h2.2.slot_ne_null

/-- The four faults of `STEP` (R161, R194, R197). -/
theorem stepBody_raised {s t : State} (hi : Inv s) (h : stepBody s = .raised t) :
   (s.tv = false ∧ t = enterFault .noTree 0#16 s) ∨
   (∃ nd, nodeAt s.nodes s.cur = some nd ∧ nd.tag = .leaf ∧ t = enterFault .badCursor (s.cur.setWidth 16) s) ∨
   (inputBits s = [] ∧ (∃ nd, nodeAt s.nodes s.cur = some nd ∧ nd.tag = .internal) ∧
     t = enterFault .inUnderrun 0#16 s) ∨
   (∃ nd s1, nodeAt s.nodes s.cur = some nd ∧ nd.tag = .internal ∧ nd.right = Config.null ∧
     inputBits s = true :: inputBits s1 ∧ s1.cur = s.cur ∧
     Walked s s1 ∧ t = enterFault .nullChild (s.cur.setWidth 16) s1) := by
  by_cases htv : s.tv = true
  · obtain ⟨nd, hn⟩ := hi.cursor htv
    cases ht : nd.tag with
    | leaf =>
      unfold stepBody at h
      rw [if_neg (by simp [htv])] at h
      simp only [hn, ht] at h
      cases h
      exact Or.inr (Or.inl ⟨nd, hn, ht, rfl⟩)
    | internal =>
      rcases stepBody_tree htv hi.unpacker hn ht with ⟨h1, h2⟩ | ⟨b, s1, h1, h2, h3, h4, h5, h6⟩
      · rw [h2] at h; cases h
        exact Or.inr (Or.inr (Or.inl ⟨h1, ⟨nd, hn, ht⟩, rfl⟩))
      · have hl := Inv.left_ne_null hi htv hn ht
        by_cases h0 : (if b = true then nd.right else nd.left) = Config.null
        · rw [h5 h0] at h
          cases h
          cases b with
          | false => simp at h0; exact absurd h0 hl
          | true => exact Or.inr (Or.inr (Or.inr ⟨nd, s1, hn, ht, by simpa using h0, h1, h3, h4, rfl⟩))
        · rw [h6 h0] at h; cases h
  · unfold stepBody at h
    have htv : s.tv = false := by simpa using htv
    rw [if_pos htv] at h
    cases h
    exact Or.inl ⟨htv, rfl⟩

/-- The faults of `DEC` (R171, R194). -/
theorem decBody_raised {s t : State} (hi : Inv s) (h : decBody s = .raised t) :
    (s.live = 0#9 ∧ t = enterFault .emptyBuild 0#16 s) ∨
    (liveCount s.freq ≠ 0 ∧ ∃ s', WalkFault (builtState s) s' (.raised t)) := by
  by_cases hl : liveCount s.freq = 0
  · have h0 := (live_eq_zero_iff hi.counts).2 hl
    unfold decBody buildBody at h
    rw [if_pos h0] at h
    cases h
    exact Or.inl ⟨h0, rfl⟩
  · obtain ⟨hh, -, hs⟩ := decBody_spec hi.counts hl hi.unpacker
    refine Or.inr ⟨hl, ?_⟩
    cases htd : treeDecode hh (inputBits s) with
    | none =>
      rw [htd] at hs
      rw [h] at hs; exact hs
    | some q =>
      obtain ⟨x, rest⟩ := q
      rw [htd] at hs
      obtain ⟨s', -, -, -, -, -, hd⟩ := hs
      rw [hd] at h; cases h

/-- No bit left: `UCNT = 0` and `IN` at its end (R160). -/
theorem inputBits_nil {s : State} (h8 : s.ucnt.toNat ≤ 8) (h : inputBits s = []) : s.ucnt = 0#4 ∧ s.inp = [] := by
  have h1 := inputBits_length s h8
  rw [h] at h1
  simp only [List.length_nil, bitsLeft] at h1
  refine ⟨BitVec.eq_of_toNat_eq (by simp; omega), List.length_eq_zero_iff.1 (by omega)⟩

/-- What the fault of a walk recorded (R191), and the bits it took (R161, R171). -/
theorem walkFault_row {s s' t : State} (h : WalkFault (builtState s) s' (.raised t)) :
    (t.fcode = 0x06#8 ∧ t.finfo = 0#16 ∧ t.ucnt = 0#4 ∧ t.inp = [] ∧
      ∃ nd, nodeAt t.nodes t.cur = some nd ∧ nd.tag = .internal) ∨
    (t.fcode = 0x07#8 ∧ t.finfo = t.cur.setWidth 16 ∧ ∃ nd path, nodeAt t.nodes t.cur = some nd ∧ nd.tag = .internal ∧
      nd.right = Config.null ∧ inputBits s = path ++ true :: inputBits t) := by
  cases h with
  | underrun path hw hp hb h0 hu hi =>
    obtain ⟨h1, h2⟩ := inputBits_nil hu h0
    have hn : s'.nodes = (builtState s).nodes := by rw [hw.eq]
    refine Or.inl ⟨rfl, rfl, h1, h2, ?_⟩
    show ∃ nd, nodeAt s'.nodes s'.cur = _ ∧ _
    rw [hn]; exact hi
  | nullChild path hw hp hb h0 hu =>
    obtain ⟨nd, h1, h2, h3⟩ := h0
    have hn : s'.nodes = (builtState s).nodes := by rw [hw.eq]
    refine Or.inr ⟨rfl, rfl, nd, path, ?_, h2, h3, hb⟩
    show nodeAt s'.nodes s'.cur = _
    rw [hn]; exact h1

/-- Everything a completed `DEC` did (R171). -/
theorem decBody_done_spec {s t : State} (hi : Inv s) (h : decBody s = .done t) : 
    t.fault = s.fault ∧ t.total.toNat + 1 = s.total.toNat ∧ t.sout.length = s.sout.length + 1 ∧ t.tv = false ∧
      s.live ≠ 0#9 ∧
     ∃ hh x rest, treeOf s.freq = some hh ∧ treeDecode hh (inputBits s) = some (x, rest) ∧ freqOf s x ≠ 0#64 ∧
       inputBits t = rest ∧
       ∃ s', Walked (builtState s) s' ∧ s'.cur = leafSlot x ∧ s'.ucnt.toNat ≤ 7 ∧ t = emitted x s' := by
  by_cases hl : liveCount s.freq = 0
  · have h0 := (live_eq_zero_iff hi.counts).2 hl
    unfold decBody buildBody at h
    rw [if_pos h0] at h
    cases h
  · obtain ⟨hh, htr, hs⟩ := decBody_spec hi.counts hl hi.unpacker
    cases htd : treeDecode hh (inputBits s) with
    | none =>
      rw [htd] at hs
      rw [h] at hs
      obtain ⟨s', hs⟩ := hs
      cases hs
    | some q =>
      obtain ⟨x, rest⟩ := q
      rw [htd] at hs
      obtain ⟨s', hw, hc, hr, h7, hx, hd⟩ := hs
      rw [hd] at h; cases h
      have hfr := hw.eq
      have hk : CountsOk (pushSymbol x { s' with sym := x }) := by
        unfold WalkFrame at hfr; rw [hfr]; exact hi.counts
      have hfx : freqOf s' x = freqOf s x := by unfold WalkFrame at hfr; rw [hfr]; rfl
      have hw2 := setF_writes hk x (freqOf s' x - 1#64)
      have htot := hw2.total
      have h0 := toNat_ne_zero hx
      have hlt := (freqOf s x).isLt
      have e1 : freqOf (pushSymbol x { s' with sym := x }) x = freqOf s x := hfx
      have e2 : (pushSymbol x { s' with sym := x }).total = s.total := by
        unfold WalkFrame at hfr; rw [hfr]; rfl
      rw [e1, e2, hfx, BitVec.toNat_sub] at htot
      refine ⟨?_, ?_, ?_, rfl, fun h' => hl ((live_eq_zero_iff hi.counts).1 h'), hh, x, rest, htr, htd, hx, hr, s',
        hw, hc, h7, rfl⟩
      · show s'.fault = s.fault
        unfold WalkFrame at hfr; rw [hfr]; rfl
      · rw [emitted, hfx]
        have e3 : (setF (pushSymbol x { s' with sym := x }) x (freqOf s x - 1#64)).total.toNat + (freqOf s x).toNat =
            s.total.toNat + (2 ^ 64 - 1 + (freqOf s x).toNat) % 2 ^ 64 := htot
        omega
      · show (s'.sout ++ [x]).length = _
        have : s'.sout = s.sout := by unfold WalkFrame at hfr; rw [hfr]; rfl
        rw [this]; simp

theorem decBody_done_inv {s t : State} (hi : Inv s) (h : decBody s = .done t) : Inv t := by
  have := decBody_keeps hi
  rw [h] at this; exact this

/-- A walk takes its bits off the front: what it leaves is a tail of what was there (R161, R171). -/
theorem treeDecode_suffix : ∀ {h : HTree} {bits rest : List Bool} {x : Symbol},
    treeDecode h bits = some (x, rest) → rest <:+ bits
  | .leaf y f, bits, rest, x, h => by cases h; exact List.suffix_refl _
  | .two l r f, false :: bits, rest, x, h => (treeDecode_suffix (h := l) h).trans (List.suffix_cons _ _)
  | .two l r f, true :: bits, rest, x, h => (treeDecode_suffix (h := r) h).trans (List.suffix_cons _ _)
  | .one l f, false :: bits, rest, x, h => (treeDecode_suffix (h := l) h).trans (List.suffix_cons _ _)

/-- A fault of `DRUN` is the fault of the turn in progress, after turns that completed and took their bits (R197). -/
theorem drunLoop_raised : ∀ (k : Nat) {s t : State}, Inv s → s.fault = false → bitsLeft s < k →
    drunLoop k s = .raised t →
   ∃ n u, execAll (List.replicate n .dec) s = .next u ∧ u.fault = false ∧ Inv u ∧ u.total ≠ 0#72 ∧
     decBody u = .raised t ∧
     u.total.toNat + n = s.total.toNat ∧ u.sout.length = s.sout.length + n ∧ inputBits u <:+ inputBits s
  | 0, s, t, hi, hf, hk, h => by omega
  | k + 1, s, t, hi, hf, hk, h => by
    unfold drunLoop at h
    split at h
    · cases h
    · rename_i ht0
      simp only at h
      cases hd : decBody s with
      | stuck f => rw [hd] at h; cases h
      | raised t' =>
        rw [hd] at h; cases h
        exact ⟨0, s, rfl, hf, hi, ht0, hd, rfl, rfl, List.suffix_refl _⟩
      | done s1 =>
        rw [hd] at h
        have hb := decBody_bitsLeft hd
        obtain ⟨h1, h2, h3, -, -, _, _, _, -, h4, -, h5, -⟩ := decBody_done_spec hi hd
        obtain ⟨n, u, a1, a2, a3, a4, a5, a6, a7, a8⟩ := drunLoop_raised k (decBody_done_inv hi hd) (h1.trans hf)
          (by omega) h
        refine ⟨n + 1, u, ?_, a2, a3, a4, a5, by omega, by omega, a8.trans (h5 ▸ treeDecode_suffix h4)⟩
        rw [List.replicate_succ, execAll]
        have : exec .dec s = .next s1 := by
          show command decBody s = _
          rw [command_ok hf, hd]; rfl
        rw [this]; exact a1

theorem live_ne_zero {s : State} (hi : Inv s) (h : s.total ≠ 0#72) : s.live ≠ 0#9 := fun h' =>
  h ((total_eq_zero_iff hi.counts).2 ((live_eq_zero_iff hi.counts).1 h'))

theorem decBody_raised_walk {u t : State} (hi : Inv u) (h0 : u.live ≠ 0#9) (h : decBody u = .raised t) :
    ∃ s', WalkFault (builtState u) s' (.raised t) := by
  rcases decBody_raised hi h with ⟨h1, -⟩ | ⟨-, h1⟩
  · exact absurd h1 h0
  · exact h1

theorem Inv.built_live {s : State} (hi : Inv s) (h : s.live ≠ 0#9) : Inv (builtState s) :=
  hi.built fun h' => h ((live_eq_zero_iff hi.counts).2 h')

theorem walkFault_fault {s s' t : State} (h : WalkFault s s' (.raised t)) : t.fault = true := by cases h <;> rfl

end Sys2Proof.Machine
end

