-- ==== Sys2Proof/Laws/Items.lean ====
section
/-!
SUPPORT. What the leaf loop leaves in `Q` (spec 41_tree_builder.md R123, R129) and what stands in each slot of a built
tree (10_state.md R44): the order of the leaves, the subtree under a slot, and the count in a leaf.
-/

namespace Sys2Proof.Machine

/-! ### The leaf loop -/

/-- The order of two leaves in `Q`: descending count, then ascending symbol (R123). -/
def LeafBefore (a b : STree) : Prop :=
  ∀ x f y g, a = .leaf x f → b = .leaf y g → g < f ∨ (f = g ∧ x.toNat < y.toNat)

theorem STree.insert_order {x : Symbol} {f : Nat} : ∀ {ts : List STree}, ts.Pairwise LeafBefore →
    (∀ u ∈ ts, ∃ y g, u = .leaf y g ∧ y.toNat < x.toNat) → ((STree.leaf x f).insert ts).Pairwise LeafBefore
  | [], _, _ => by simp [insert]
  | u :: rest, hp, hl => by
    rw [List.pairwise_cons] at hp
    unfold insert
    obtain ⟨y, g, rfl, hy⟩ := hl u (by simp)
    split
    · rename_i hle
      simp only [freq_leaf] at hle
      rw [List.pairwise_cons]
      refine ⟨?_, insert_order hp.2 fun v hv => hl v (by simp [hv])⟩
      intro v hv
      rcases List.mem_cons.1 ((insert_perm _ _).subset hv) with rfl | hv
      · intro a b c d h1 h2; cases h1; cases h2; omega
      · exact hp.1 v hv
    · rename_i hlt
      simp only [freq_leaf] at hlt
      rw [List.pairwise_cons]
      refine ⟨?_, List.pairwise_cons.2 hp⟩
      intro v hv
      rcases List.mem_cons.1 hv with rfl | hv
      · intro a b c d h1 h2; cases h1; cases h2; omega
      · obtain ⟨z, k, rfl, hz⟩ := hl v (by simp [hv])
        have := hp.1 _ hv _ _ _ _ rfl rfl
        intro a b c d h1 h2; cases h1; cases h2; omega

theorem leafForest_order : ∀ (es : List (Symbol × Count)) (ts : List STree), ts.Pairwise LeafBefore →
    (es.map fun e => e.1.toNat).Pairwise (· < ·) →
    (∀ u ∈ ts, ∃ y g, u = .leaf y g ∧ ∀ e ∈ es, y.toNat < e.1.toNat) → (leafForest es ts).Pairwise LeafBefore
  | [], ts, hp, _, _ => hp
  | (x, v) :: es, ts, hp, hs, hl => by
    rw [List.map_cons, List.pairwise_cons] at hs
    refine leafForest_order es _ (STree.insert_order hp fun u hu => ?_) hs.2 fun u hu => ?_
    · obtain ⟨y, g, h1, h2⟩ := hl u hu
      exact ⟨y, g, h1, h2 (x, v) (by simp)⟩
    · rcases List.mem_cons.1 ((STree.insert_perm _ _).subset hu) with rfl | hu
      · exact ⟨x, _, rfl, fun e he => hs.1 _ (List.mem_map.2 ⟨e, he, rfl⟩)⟩
      · obtain ⟨y, g, h1, h2⟩ := hl u hu
        exact ⟨y, g, h1, fun e he => h2 e (by simp [he])⟩

theorem mem_leafForest : ∀ (es : List (Symbol × Count)) (ts : List STree) (u : STree),
    u ∈ leafForest es ts ↔ u ∈ ts ∨ ∃ e ∈ es, u = .leaf e.1 e.2.toNat
  | [], ts, u => by simp [leafForest]
  | e :: es, ts, u => by
    rw [show leafForest (e :: es) ts = leafForest es ((STree.leaf e.1 e.2.toNat).insert ts) from rfl,
      mem_leafForest es, (STree.insert_perm _ _).mem_iff]
    simp only [List.mem_cons]
    constructor
    · rintro ((rfl | h) | ⟨d, hd, rfl⟩)
      · exact Or.inr ⟨e, Or.inl rfl, rfl⟩
      · exact Or.inl h
      · exact Or.inr ⟨d, Or.inr hd, rfl⟩
    · rintro (h | ⟨d, (rfl | hd), rfl⟩)
      · exact Or.inl (Or.inr h)
      · exact Or.inl (Or.inl rfl)
      · exact Or.inr ⟨d, hd, rfl⟩

theorem liveEntries_sorted (freq : Vector Count 256) :
    ((liveEntries freq).map fun e => e.1.toNat).Pairwise (· < ·) := by
  have h : ((allSymbols.zip freq.toList).map fun e => e.1.toNat).Pairwise (· < ·) := by
    rw [show ((allSymbols.zip freq.toList).map fun e => e.1.toNat) =
      ((allSymbols.zip freq.toList).map Prod.fst).map BitVec.toNat by simp, zip_fst]
    unfold allSymbols
    rw [List.map_map]
    decide +kernel
  exact h.sublist (List.Sublist.map _ List.filter_sublist)

/-- The leaves of a table: one for each live symbol, with its count. -/
theorem mem_leafForest_iff (freq : Vector Count 256) (u : STree) : u ∈ leafForest (liveEntries freq) [] ↔
    ∃ x : Symbol, freq[x.toNat]'x.isLt ≠ 0#64 ∧ u = .leaf x (freq[x.toNat]'x.isLt).toNat := by
  rw [mem_leafForest]
  constructor
  · rintro (h | ⟨⟨x, v⟩, he, rfl⟩)
    · simp at h
    · obtain ⟨rfl, h0⟩ := (mem_liveEntries freq x v).1 he
      exact ⟨x, h0, rfl⟩
  · rintro ⟨x, h0, rfl⟩
    exact Or.inr ⟨(x, _), (mem_liveEntries freq x _).2 ⟨rfl, h0⟩, rfl⟩

/-! ### The subtree under a slot -/

/-- Every slot of a tree holds a subtree of it, whose frequency is not above the root's. -/
theorem STree.Reps.at_slot {nodes : Vector Node 511} : ∀ {t : STree} {p : NodeIx}, t.Reps nodes p → t.Good →
    ∀ n ∈ t.slots, ∃ (u : STree) (q : NodeIx), u.slot = n ∧ u.Reps nodes q ∧ u.Good ∧ (t.Full → u.Full) ∧
      u.freq ≤ t.freq
  | .leaf x f, p, hr, hg, n, hn => by
    simp only [slots, List.mem_singleton] at hn
    exact ⟨.leaf x f, p, hn.symm, hr, hg, id, le_refl _⟩
  | .two m l r f, p, hr, hg, n, hn => by
    simp only [slots, List.mem_cons, List.mem_append] at hn
    have := hg.1
    rcases hn with rfl | hn | hn
    · exact ⟨_, p, rfl, hr, hg, id, le_refl _⟩
    · obtain ⟨u, q, h1, h2, h3, h4, h5⟩ := hr.2.1.at_slot hg.2.2.1 n hn
      exact ⟨u, q, h1, h2, h3, fun h => h4 h.1, by simp only [freq_two]; omega⟩
    · obtain ⟨u, q, h1, h2, h3, h4, h5⟩ := hr.2.2.at_slot hg.2.2.2 n hn
      exact ⟨u, q, h1, h2, h3, fun h => h4 h.2, by simp only [freq_two]; omega⟩
  | .one m l f, p, hr, hg, n, hn => by
    simp only [slots, List.mem_cons] at hn
    have := hg.1
    rcases hn with rfl | hn
    · exact ⟨_, p, rfl, hr, hg, id, le_refl _⟩
    · obtain ⟨u, q, h1, h2, h3, h4, h5⟩ := hr.2.at_slot hg.2.2 n hn
      exact ⟨u, q, h1, h2, h3, fun h => h.elim, by simp only [freq_one]; omega⟩

/-! ### The count in a leaf -/

/-- The leaves of a tree, each with its count. -/
def STree.leaves : STree → List (Symbol × Nat)
  | .leaf x f => [(x, f)]
  | .two _ l r _ => l.leaves ++ r.leaves
  | .one _ l _ => l.leaves

theorem STree.mem_leaves_of_mergeAll : ∀ (n k : Nat) (ts : List STree) (t : STree), mergeAll n k ts = some t →
    ∀ e ∈ t.leaves, ∃ u ∈ ts, e ∈ u.leaves
  | 0, k, ts, t, h, e, he => by cases h
  | n + 1, k, ts, t, h, e, he => by
    unfold mergeAll at h
    split at h
    · cases h
    · rename_i x hx
      cases h
      exact ⟨t, List.mem_reverse.1 (by rw [hx]; simp), he⟩
    · rename_i z a front hx
      have hmem : ∀ u, u ∈ ts ↔ u = z ∨ u = a ∨ u ∈ front := fun u => by
        rw [← List.mem_reverse, hx]; simp
      obtain ⟨u, hu, hue⟩ := mem_leaves_of_mergeAll n (k + 1) _ t h e he
      rcases List.mem_cons.1 ((insert_perm _ _).subset hu) with rfl | hu
      · rcases List.mem_append.1 hue with hue | hue
        · exact ⟨a, (hmem a).2 (Or.inr (Or.inl rfl)), hue⟩
        · exact ⟨z, (hmem z).2 (Or.inl rfl), hue⟩
      · exact ⟨u, (hmem u).2 (Or.inr (Or.inr (List.mem_reverse.1 hu))), hue⟩

/-- Every leaf of the tree of a table holds its symbol's count (R44 item 2, R123). -/
theorem HasTree.mem_leaves {s : State} {t : STree} (h : HasTree s t) {x : Symbol} {f : Nat} (hm : (x, f) ∈ t.leaves) :
    freqOf s x ≠ 0#64 ∧ f = (freqOf s x).toNat := by
  have key : ∀ u ∈ leafForest (liveEntries s.freq) [], (x, f) ∈ u.leaves →
      freqOf s x ≠ 0#64 ∧ f = (freqOf s x).toNat := by
    intro u hu hue
    obtain ⟨y, hy, rfl⟩ := (mem_leafForest_iff s.freq u).1 hu
    simp only [STree.leaves, List.mem_singleton, Prod.mk.injEq] at hue
    obtain ⟨rfl, rfl⟩ := hue
    exact ⟨hy, rfl⟩
  have hp := h.pure
  unfold slotTree at hp
  split at hp
  · rename_i u hu
    cases hp
    exact key u (by rw [hu]; simp) hm
  · obtain ⟨u, hu, hue⟩ := STree.mem_leaves_of_mergeAll _ _ _ _ hp _ hm
    exact key u hu hue

theorem STree.Reps.leaf_mem_of_code {nodes : Vector Node 511} : ∀ {t : STree} {p : NodeIx} {x : Symbol} {c : List Bool},
    t.Reps nodes p → t.code x = some c →
    ∃ f q, (x, f) ∈ t.leaves ∧ nodeAt nodes (leafSlot x) = some (leafRecord x f q)
  | .leaf y f, p, x, c, hr, h => by
    obtain ⟨rfl, -⟩ := (code_leaf y f x c).1 h
    exact ⟨f, p, by simp [leaves], hr⟩
  | .two n l r f, p, x, c, hr, h => by
    rcases (code_two n l r f x c).1 h with ⟨d, hd, -⟩ | ⟨-, d, hd, -⟩
    · obtain ⟨f, q, h1, h2⟩ := hr.2.1.leaf_mem_of_code hd
      exact ⟨f, q, List.mem_append_left _ h1, h2⟩
    · obtain ⟨f, q, h1, h2⟩ := hr.2.2.leaf_mem_of_code hd
      exact ⟨f, q, List.mem_append_right _ h1, h2⟩
  | .one n l f, p, x, c, hr, h => by
    obtain ⟨d, hd, -⟩ := (code_one n l f x c).1 h
    exact hr.2.leaf_mem_of_code hd

/-- The leaf of a live symbol (R44 item 2). -/
theorem HasTree.leaf_count {s : State} {t : STree} (h : HasTree s t) {x : Symbol} (hx : freqOf s x ≠ 0#64) :
    ∃ p, nodeAt s.nodes (leafSlot x) = some { leafNode x (freqOf s x) with parent := p } := by
  obtain ⟨c, hc, -⟩ := h.exists_code hx
  obtain ⟨f, q, h1, h2⟩ := h.reps.leaf_mem_of_code hc
  obtain ⟨-, rfl⟩ := h.mem_leaves h1
  refine ⟨q, ?_⟩
  rw [h2, leafNode_eq]
  rfl

end Sys2Proof.Machine
end

