-- ==== Sys2Proof/Laws/Runs.lean ====
section
/-!
SUPPORT. Lists of commands (spec 10_state.md R24,
  20_memory.md R71) and the laws of the walk and of the two sides on them
(44_bit_unpacker.md R163; 45_driver.md R171 to R177).
-/

namespace Sys2Proof.Machine

/-! ### Lists of commands -/

theorem execAll_append (is js : List Instr) (s : State) : execAll (is ++ js) s =
    match execAll is s with
    | .next t => execAll js t
    | .fault f => .fault f
    | .refused r => .refused r := by
  induction is generalizing s with
  | nil => rfl
  | cons i is ih =>
    simp only [List.cons_append, execAll]
    cases exec i s with
    | next t => exact ih t
    | fault f => rfl
    | refused r => rfl

theorem execAll_cons {i : Instr} {s t : State} (is : List Instr) (h : exec i s = .next t) :
    execAll (i :: is) s = execAll is t := by
  simp [execAll, h]

/-! ### Completion of single commands -/

theorem exec_build {s : State} (hf : s.fault = false) (hk : CountsOk s) (h0 : liveCount s.freq ≠ 0) :
    exec .build s = .next (builtState s) := by
  show command buildBody s = _
  rw [command_ok hf, buildBody_done hk h0]; rfl

/-- One occurrence counted off (R113). -/
theorem count_off {v : Count} (h : v ≠ 0#64) : (v - 1#64).toNat + 1 = v.toNat := by
  have := toNat_ne_zero h
  have := v.isLt
  rw [BitVec.toNat_sub, BitVec.toNat_ofNat]; omega

theorem emitted_freq {s s' : State} (hw : Walked (builtState s) s') {x} : ∀ y,
    freqOf (emitted x s') y = if y = x then freqOf s x - 1#64 else freqOf s y := by
  intro y
  unfold emitted
  have h1 : ∀ z, freqOf s' z = freqOf s z := fun z => by rw [hw.eq]; rfl
  rw [freqOf_setF]
  split
  · rw [h1]
  · exact h1 y

/-- What a completed `DEC` of `x` leaves, field by field (R171). -/
theorem emitted_walked {s s' : State} {x : Symbol} (hi : Inv s) (hw : Walked (builtState s) s')
    (hx : freqOf s x ≠ 0#64) : DecodeFrame s (emitted x s') ∧ (emitted x s').nodes = (builtState s).nodes ∧
      (emitted x s').leafv = (builtState s).leafv ∧
      (emitted x s').root = (builtState s).root ∧ (emitted x s').nleaf = (builtState s).nleaf ∧
        (emitted x s').nint = (builtState s).nint ∧
      (emitted x s').sout = s.sout ++ [x] ∧ (emitted x s').inp <:+ s.inp ∧
        (freqOf (emitted x s') x).toNat + 1 = (freqOf s x).toNat ∧
      (∀ y, y ≠ x → freqOf (emitted x s') y = freqOf s y) ∧ CountsOk (emitted x s') ∧ (emitted x s').fault = s.fault :=
        by
  refine ⟨?_, ?_, ?_, ?_, ?_, ?_, ?_, ?_, ?_, ?_, ?_, ?_⟩
  · unfold DecodeFrame emitted; rw [hw.eq]; rfl
  · show s'.nodes = _; rw [hw.eq]
  · show s'.leafv = _; rw [hw.eq]
  · show s'.root = _; rw [hw.eq]
  · show s'.nleaf = _; rw [hw.eq]
  · show s'.nint = _; rw [hw.eq]
  · show s'.sout ++ [x] = _; rw [hw.eq]; rfl
  · obtain ⟨a, ha⟩ := hw.inp
    exact ⟨a, ha.symm⟩
  · rw [emitted_freq hw, if_pos rfl]; exact count_off hx
  · intro y hy; rw [emitted_freq hw, if_neg hy]
  · refine setF_countsOk ?_ x _
    show CountsOk s'
    rw [hw.eq]; exact hi.counts
  · show s'.fault = _; rw [hw.eq]; rfl

/-! ### The walk law -/

/-- What `decode` follows is the code of the symbol it arrives at (R132, R163). -/
theorem STree.decode_split : ∀ {t : STree} {bits rest : List Bool} {x : Symbol}, t.slots.Nodup →
    t.decode bits = some (x, rest) →
    ∃ c, t.code x = some c ∧ bits = c ++ rest
  | .leaf y f, bits, rest, x, _, h => by
    simp only [STree.decode, STree.erase, treeDecode, Option.some.injEq, Prod.mk.injEq] at h
    exact ⟨[], (STree.code_leaf y f x []).2 ⟨h.1, rfl⟩, by simp [h.2]⟩
  | .two n l r f, [], rest, x, _, h => by simp [STree.decode, STree.erase, treeDecode] at h
  | .two n l r f, false :: bits, rest, x, hnd, h => by
    simp only [STree.slots, List.nodup_cons, List.nodup_append] at hnd
    obtain ⟨c, hc, rfl⟩ := STree.decode_split (t := l) (bits := bits) hnd.2.1 h
    exact ⟨false :: c, (STree.code_two n l r f x _).2 (Or.inl ⟨c, hc, rfl⟩), rfl⟩
  | .two n l r f, true :: bits, rest, x, hnd, h => by
    simp only [STree.slots, List.nodup_cons, List.nodup_append] at hnd
    obtain ⟨c, hc, rfl⟩ := STree.decode_split (t := r) (bits := bits) hnd.2.2.1 h
    refine ⟨true :: c, (STree.code_two n l r f x _).2 (Or.inr ⟨?_, c, hc, rfl⟩), rfl⟩
    cases hl : l.code x with
    | none => rfl
    | some d => exact absurd rfl (hnd.2.2.2 _ (STree.mem_slots_of_code hl) _ (STree.mem_slots_of_code hc))
  | .one n l f, [], rest, x, _, h => by simp [STree.decode, STree.erase, treeDecode] at h
  | .one n l f, false :: bits, rest, x, hnd, h => by
    simp only [STree.slots, List.nodup_cons] at hnd
    obtain ⟨c, hc, rfl⟩ := STree.decode_split (t := l) (bits := bits) hnd.2 h
    exact ⟨false :: c, (STree.code_one n l f x _).2 ⟨c, hc, rfl⟩, rfl⟩
  | .one n l f, true :: bits, rest, x, _, h => by simp [STree.decode, STree.erase, treeDecode] at h

/-- What the `STEP`s along a code do: as many as it has bits arrive at the leaf; fewer end on an internal node (R163). -/
def StepsFollow (s : State) (x : Symbol) (c rest : List Bool) : Prop :=
  (∃ t, execAll (List.replicate c.length .step) s = .next t ∧ WalkFrame s t ∧ t.cur = leafSlot x ∧
    inputBits t = rest ∧ UnpackerOk t) ∧
  ∀ k, k < c.length → ∃ t nd, execAll (List.replicate k .step) s = .next t ∧ WalkFrame s t ∧
    nodeAt t.nodes t.cur = some nd ∧ nd.tag = .internal

theorem StepsFollow.cons {s s1 : State} {x : Symbol} {c rest : List Bool} {nd : Node} (b : Bool)
    (hn : nodeAt s.nodes s.cur = some nd) (ht : nd.tag = .internal) (hst : exec .step s = .next s1)
    (hw : WalkFrame s s1) (h : StepsFollow s1 x c rest) : StepsFollow s x (b :: c) rest := by
  have tr : ∀ {t : State}, WalkFrame s1 t → WalkFrame s t := by
    intro t h'
    unfold WalkFrame at h' hw ⊢
    rw [h', hw]
  obtain ⟨⟨t, i1, i2, i3⟩, i4⟩ := h
  refine ⟨⟨t, ?_, tr i2, i3⟩, fun k hk => ?_⟩
  · rw [List.length_cons, List.replicate_succ, execAll_cons _ hst]; exact i1
  · cases k with
    | zero => exact ⟨s, nd, rfl, rfl, hn, ht⟩
    | succ k =>
      obtain ⟨t, nd, j1, j2, j3⟩ := i4 k (by simpa using hk)
      refine ⟨t, nd, ?_, tr j2, j3⟩
      rw [List.replicate_succ, execAll_cons _ hst]; exact j1

/-- One `STEP` on the first bit of a code: it reaches the child the bit selects (R161). -/
theorem exec_step_edge {s : State} {nd : Node} {b : Bool} {bits : List Bool} (htv : s.tv = true) (hf : s.fault = false)
    (h8 : UnpackerOk s) (hn : nodeAt s.nodes s.cur = some nd) (ht : nd.tag = .internal)
    (hb : inputBits s = b :: bits) (hc : (if b then nd.right else nd.left) ≠ Config.null) :
    ∃ s1, exec .step s = .next s1 ∧ WalkFrame s s1 ∧ s1.cur = (if b then nd.right else nd.left) ∧
      inputBits s1 = bits ∧ UnpackerOk s1 := by
  rcases stepBody_tree htv h8 hn ht with ⟨h1, -⟩ | ⟨b', s1, h1, h2, h3, h4, -, h6⟩
  · rw [hb] at h1; cases h1
  · rw [hb] at h1
    obtain ⟨rfl, h1'⟩ := List.cons.inj h1
    refine ⟨_, ?_, (h4.move _).eq, rfl, h1'.symm, by show s1.ucnt.toNat ≤ 8; omega⟩
    show command stepBody s = _
    rw [command_ok hf, h6 hc]; rfl

/-- The walk law in a tree (R163). -/
theorem steps_code : ∀ (u : STree) (p : NodeIx) (s : State) (x : Symbol) (c rest : List Bool), u.Reps s.nodes p →
    s.cur = u.slot → s.tv = true → s.fault = false → UnpackerOk s → u.code x = some c → inputBits s = c ++ rest →
    StepsFollow s x c rest
  | .leaf y f, p, s, x, c, rest, hr, hc, htv, hf, h8, hcode, hb => by
    obtain ⟨rfl, rfl⟩ := (STree.code_leaf y f x c).1 hcode
    exact ⟨⟨s, rfl, rfl, hc, hb, h8⟩, fun k hk => by simp at hk⟩
  | .two n l r f, p, s, x, c, rest, hr, hc, htv, hf, h8, hcode, hb => by
    have hn : nodeAt s.nodes s.cur = some (innerRecord f p l.slot r.slot) := by rw [hc]; exact hr.1
    rcases (STree.code_two n l r f x c).1 hcode with ⟨d, hd, rfl⟩ | ⟨-, d, hd, rfl⟩
    · obtain ⟨s1, h1, h2, h3, h4, h5⟩ := exec_step_edge htv hf h8 hn rfl hb (by
        simpa [innerRecord] using hr.2.1.slot_ne_null)
      have hfr := h2
      unfold WalkFrame at hfr
      exact .cons false hn rfl h1 h2 (steps_code l n s1 x d rest (by rw [hfr]; exact hr.2.1) h3 (by rw [hfr]; exact htv)
        (by rw [hfr]; exact hf) h5 hd h4)
    · obtain ⟨s1, h1, h2, h3, h4, h5⟩ := exec_step_edge htv hf h8 hn rfl hb (by
        simpa [innerRecord] using hr.2.2.slot_ne_null)
      have hfr := h2
      unfold WalkFrame at hfr
      exact .cons true hn rfl h1 h2 (steps_code r n s1 x d rest (by rw [hfr]; exact hr.2.2) h3 (by rw [hfr]; exact htv)
        (by rw [hfr]; exact hf) h5 hd h4)
  | .one n l f, p, s, x, c, rest, hr, hc, htv, hf, h8, hcode, hb => by
    have hn : nodeAt s.nodes s.cur = some (innerRecord f p l.slot Config.null) := by rw [hc]; exact hr.1
    obtain ⟨d, hd, rfl⟩ := (STree.code_one n l f x c).1 hcode
    obtain ⟨s1, h1, h2, h3, h4, h5⟩ := exec_step_edge htv hf h8 hn rfl hb (by
      simpa [innerRecord] using hr.2.slot_ne_null)
    have hfr := h2
    unfold WalkFrame at hfr
    exact .cons false hn rfl h1 h2 (steps_code l n s1 x d rest (by rw [hfr]; exact hr.2) h3 (by rw [hfr]; exact htv)
      (by rw [hfr]; exact hf) h5 hd h4)

end Sys2Proof.Machine
end

