-- ==== Sys2Proof/Laws/Words.lean ====
section
/-!
SUPPORT. The fields of a command word and what decoding answers, said once (spec 30_encoding.md R91 to R98).
-/

namespace Sys2Proof

theorem opField_assemble (o : BitVec 8) (x : Symbol) (v : Count) : opField (assemble o x v) = o := by
  unfold opField assemble
  apply BitVec.eq_of_getLsbD_eq
  intro i hi
  rw [BitVec.getLsbD_extractLsb', BitVec.getLsbD_append, BitVec.getLsbD_append]
  have h1 : ¬ (72 + i < 64) := by omega
  have h2 : ¬ (72 + i - 64 < 8) := by omega
  have h3 : 72 + i - 64 - 8 = i := by omega
  simp only [hi, h1, h2, h3, decide_true, Bool.true_and, if_false]

theorem symField_assemble (o : BitVec 8) (x : Symbol) (v : Count) : symField (assemble o x v) = x := by
  unfold symField assemble
  apply BitVec.eq_of_getLsbD_eq
  intro i hi
  rw [BitVec.getLsbD_extractLsb', BitVec.getLsbD_append, BitVec.getLsbD_append]
  simp [hi]

theorem immField_assemble (o : BitVec 8) (x : Symbol) (v : Count) : immField (assemble o x v) = v := by
  unfold immField assemble
  apply BitVec.eq_of_getLsbD_eq
  intro i hi
  rw [BitVec.getLsbD_extractLsb', BitVec.getLsbD_append]
  simp [hi]

theorem assemble_fields (w : CommandWord) : assemble (opField w) (symField w) (immField w) = w := by
  unfold opField symField immField assemble
  apply BitVec.eq_of_getLsbD_eq
  intro i hi
  rw [BitVec.getLsbD_append, BitVec.getLsbD_append]
  by_cases h1 : i < 64
  · simp [h1]
  · by_cases h2 : i - 64 < 8
    · have : 64 + (i - 64) = i := by omega
      simp [h1, h2, this]
    · have : 72 + (i - 64 - 8) = i := by omega
      have h3 : i - 64 - 8 < 8 := by omega
      simp [h1, h2, this, h3]

/-- What decoding answers: the command of the fields, or one of the two refusals (R94, R97, R98). -/
inductive Decoded (w : CommandWord) : Except DecodeError Instr → Prop where
  | command (i : Instr) (ho : opField w = i.opcode) (hs : symField w = i.symOperand) (hi : immField w = i.immOperand) :
      Decoded w (.ok i)
  | nonzero (i : Instr) (ho : opField w = i.opcode)
      (hz : i.format.zeroFieldsOk (symField w).toNat (immField w).toNat = false) :
      Decoded w (.error (.nonzeroField (opField w)))
  | reserved (hr : Machine.ReservedOpcode (opField w).toNat) : Decoded w (.error (.reservedOpcode (opField w)))

theorem toNat_beq_zero {n : Nat} (b : BitVec n) : (b.toNat == 0) = decide (b = 0#n) := by
  rw [Bool.eq_iff_iff, beq_iff_eq, decide_eq_true_eq]
  constructor
  · intro h; exact BitVec.eq_of_toNat_eq (by simpa using h)
  · rintro rfl; simp

theorem decodeZ_decoded {w : CommandWord} {i : Instr} (ho : opField w = i.opcode) (hf : i.format = .z)
    (hs : i.symOperand = 0#8) (hi : i.immOperand = 0#64) : Decoded w (decodeZ w i) := by
  unfold decodeZ
  split
  · rename_i h; exact .command i ho (h.1.trans hs.symm) (h.2.trans hi.symm)
  · rename_i h
    refine .nonzero i ho ?_
    rw [hf, Format.zeroFieldsOk, toNat_beq_zero, toNat_beq_zero]
    simpa using h

theorem decodeS_decoded {w : CommandWord} {i : Instr} (ho : opField w = i.opcode) (hf : i.format = .s)
    (hs : symField w = i.symOperand) (hi : i.immOperand = 0#64) : Decoded w (decodeS w i) := by
  unfold decodeS
  split
  · rename_i h; exact .command i ho hs (h.trans hi.symm)
  · rename_i h
    refine .nonzero i ho ?_
    rw [hf, Format.zeroFieldsOk, toNat_beq_zero]
    simpa using h

theorem ne_toNat {n : Nat} {b c : BitVec n} (h : ¬b = c) : b.toNat ≠ c.toNat := fun h' => h (BitVec.eq_of_toNat_eq h')

theorem decode_decoded (w : CommandWord) : Decoded w (decode w) := by
  unfold decode
  by_cases h1 : opField w = 0x01#8
  · rw [if_pos h1]; exact decodeZ_decoded h1 rfl rfl rfl
  rw [if_neg h1]
  by_cases h2 : opField w = 0x02#8
  · rw [if_pos h2]; exact .command (.fld _ _) h2 rfl rfl
  rw [if_neg h2]
  by_cases h3 : opField w = 0x03#8
  · rw [if_pos h3]; exact decodeS_decoded h3 rfl rfl rfl
  rw [if_neg h3]
  by_cases h4 : opField w = 0x04#8
  · rw [if_pos h4]; exact decodeS_decoded h4 rfl rfl rfl
  rw [if_neg h4]
  by_cases h5 : opField w = 0x05#8
  · rw [if_pos h5]; exact decodeS_decoded h5 rfl rfl rfl
  rw [if_neg h5]
  by_cases h6 : opField w = 0x10#8
  · rw [if_pos h6]; exact decodeZ_decoded h6 rfl rfl rfl
  rw [if_neg h6]
  by_cases h7 : opField w = 0x11#8
  · rw [if_pos h7]; exact decodeS_decoded h7 rfl rfl rfl
  rw [if_neg h7]
  by_cases h8 : opField w = 0x12#8
  · rw [if_pos h8]; exact decodeZ_decoded h8 rfl rfl rfl
  rw [if_neg h8]
  by_cases h9 : opField w = 0x13#8
  · rw [if_pos h9]; exact decodeZ_decoded h9 rfl rfl rfl
  rw [if_neg h9]
  by_cases h10 : opField w = 0x14#8
  · rw [if_pos h10]; exact decodeZ_decoded h10 rfl rfl rfl
  rw [if_neg h10]
  by_cases h11 : opField w = 0x15#8
  · rw [if_pos h11]; exact decodeZ_decoded h11 rfl rfl rfl
  rw [if_neg h11]
  by_cases h12 : opField w = 0x20#8
  · rw [if_pos h12]; exact decodeS_decoded h12 rfl rfl rfl
  rw [if_neg h12]
  by_cases h13 : opField w = 0x21#8
  · rw [if_pos h13]; exact decodeZ_decoded h13 rfl rfl rfl
  rw [if_neg h13]
  by_cases h14 : opField w = 0x22#8
  · rw [if_pos h14]; exact decodeZ_decoded h14 rfl rfl rfl
  rw [if_neg h14]
  refine .reserved ?_
  have h := (opField w).isLt
  have a1 := ne_toNat h1
  have a2 := ne_toNat h2
  have a3 := ne_toNat h3
  have a4 := ne_toNat h4
  have a5 := ne_toNat h5
  have a6 := ne_toNat h6
  have a7 := ne_toNat h7
  have a8 := ne_toNat h8
  have a9 := ne_toNat h9
  have a10 := ne_toNat h10
  have a11 := ne_toNat h11
  have a12 := ne_toNat h12
  have a13 := ne_toNat h13
  have a14 := ne_toNat h14
  simp only [BitVec.toNat_ofNat] at a1 a2 a3 a4 a5 a6 a7 a8 a9 a10 a11 a12 a13 a14
  simp only [Machine.ReservedOpcode]
  omega

/-- No command has a reserved opcode (R97). -/
theorem not_reserved (i : Instr) : ¬Machine.ReservedOpcode i.opcode.toNat :=
    by cases i <;> simp [Machine.ReservedOpcode, Instr.opcode]

theorem zeroFieldsOk_operands (i : Instr) : i.format.zeroFieldsOk i.symOperand.toNat i.immOperand.toNat = true := by
  cases i <;> rfl

theorem format_of_opcode {i j : Instr} (h : i.opcode = j.opcode) : i.format = j.format := by
  cases i <;> cases j <;> first | rfl | cases h

end Sys2Proof
end

