-- ==== Sys2Proof/Laws/Coding.lean ====
section
/-!
SUPPORT. The two loops on values (spec 41_tree_builder.md R132, 45_driver.md R173): what the decode loop reads from what
the encode loop wrote; one `ENC` in terms of the encode loop; and runs of a command list (10_state.md R24).
-/

namespace Sys2Proof.Machine

/-! ### On values -/

/-- A code leads to its symbol, whatever follows it (R132). -/
theorem treeDecode_code : ∀ {h : HTree} {x : Symbol} {c : List Bool}, treeCode h x = some c → ∀ rest,
    treeDecode h (c ++ rest) = some (x, rest)
  | .leaf y f, x, c, h, rest => by
    simp only [treeCode] at h
    split at h
    · cases h; subst y; rfl
    · cases h
  | .two l r f, x, c, h, rest => by
    simp only [treeCode] at h
    split at h
    · rename_i bits hb
      cases h
      exact treeDecode_code hb rest
    · cases hr : treeCode r x with
      | none => rw [hr] at h; cases h
      | some d => rw [hr] at h; cases h; exact treeDecode_code hr rest
  | .one l f, x, c, h, rest => by
    simp only [treeCode] at h
    cases hl : treeCode l x with
    | none => rw [hl] at h; cases h
    | some d => rw [hl] at h; cases h; exact treeDecode_code hl rest

/-- The decode loop reads back what the encode loop wrote, and leaves what follows it (R173). -/
theorem decodeSymbols_encodeSymbols : ∀ {xs : List Symbol} {freq : Vector Count 256} {bits : List Bool},
    encodeSymbols freq xs = some bits → ∀ rest, decodeSymbols xs.length freq (bits ++ rest) = some (xs, rest)
  | [], freq, bits, h, rest => by
    cases h; rfl
  | x :: xs, freq, bits, h, rest => by
    simp only [encodeSymbols] at h
    split at h
    · cases h
    · rename_i t ht
      split at h
      · rename_i c bits' hc hb
        cases h
        simp only [List.length_cons, decodeSymbols, ht, List.append_assoc, treeDecode_code hc,
          decodeSymbols_encodeSymbols hb]
      · cases h

/-! ### One ENC of the encode loop -/

/-- A completed `ENC` in terms of the encode loop's values (R170). -/
theorem enc_step {s : State} (hi : Inv s) (hf : s.fault = false) {x : Symbol} (hx : freqOf s x ≠ 0#64) :
    ∃ (t : State) (h : HTree) (c : List Bool), exec (.enc x) s = .next t ∧ Inv t ∧ t.fault = false ∧
      EncodeFrame s t ∧ treeOf s.freq = some h ∧ treeCode h x = some c ∧ packedBits t = packedBits s ++ c ∧
      t.freq = countDown s.freq x ∧ s.out <+: t.out := by
  obtain ⟨h, c, htree, hcode, h1, h255, hdone⟩ := encBody_done hi.counts hx
  have hp := packed_spec (s := coded c (builtState s)) hi.packer
  have hcb : codeBits (coded c (builtState s)) = c := codeBits_coded h255 _
  have hk := encBody_keeps hi x
  rw [hdone] at hk
  refine ⟨encoded x c s, h, c, ?_, hk, hf, rfl, htree, hcode, ?_, rfl, ?_⟩
  · show command (encBody x) s = _
    rw [command_ok hf, hdone]; rfl
  · have h2 := hp.2
    rw [hcb] at h2
    exact h2
  · obtain ⟨ys, hy⟩ := packLoop_out (coded c (builtState s)).code (coded c (builtState s)).clen.toNat
      (coded c (builtState s)).clen.toNat (packerOf (coded c (builtState s)))
    exact ⟨ys, hy.symm⟩

theorem freqOf_countDown {s t : State} {x : Symbol} (hx : freqOf s x ≠ 0#64) (h : t.freq = countDown s.freq x)
    (y : Symbol) : (freqOf t y).toNat + (if y = x then 1 else 0) = (freqOf s y).toNat := by
  have := freqOf_setF s x y (freqOf s x - 1#64)
  have e : freqOf t y = freqOf (setF s x (freqOf s x - 1#64)) y := by
    unfold freqOf
    rw [h]; rfl
  rw [e, this]
  split
  · rename_i hy; subst hy; exact count_off hx
  · rfl

/-! ### Runs -/

/-- No command changes the host's list or the position in it: the step does (R24). -/
theorem exec_position {i : Instr} {s t : State} (h : exec i s = .next t) : t.cmds = s.cmds ∧ t.cmdIx = s.cmdIx := by
  rcases exec_frame h with ⟨-, -, rfl⟩ | ⟨-, fr, -⟩ | ⟨-, c, info, u, fr, -, rfl⟩
  · exact ⟨rfl, rfl⟩
  all_goals
    cases i <;> simp only [CommandFrame, BuildFrame, WalkFrame, EncodeFrame, DecodeFrame] at fr <;> rw [fr] <;>
      exact ⟨rfl, rfl⟩

/-- A step whose word is the command `i` (R24); `hdec` is the round trip of the encoding. -/
theorem step_command (hdec : ∀ i, decode (encode i) = .ok i) {s : State} {i : Instr} {ws : List CommandWord}
    (h : s.cmds.drop s.cmdIx = encode i :: ws) : step s = exec i (advance s) := by
  have h1 : s.cmds[s.cmdIx]? = some (encode i) := by
    have := congrArg (fun l => l[0]?) h
    simpa using this
  unfold step fetchWord
  rw [h1]
  simp only [runWord, hdec]

theorem runFor_zero (s : State) : runFor 0 s = .next s := rfl

theorem runFor_succ (k : Nat) (s : State) : runFor (k + 1) s =
    match step s with
    | .next t => runFor k t
    | .fault f => .fault f
    | .refused r => .refused r := by
  have h : ∀ o, Sys2Proof.core.step s = o → Host.Core.run Sys2Proof.core (k + 1) s =
      match o with
      | .next t => Host.Core.run Sys2Proof.core k t
      | .fault f => .fault f
      | .refused r => .refused r := by
    intro o ho
    simp only [Host.Core.run, ho]
    cases o <;> rfl
  cases hs : step s with
  | next t => exact h (.next t) hs
  | fault f => exact h (.fault f) hs
  | refused r => exact h (.refused r) hs

theorem runFor_next {s t : State} (k : Nat) (h : step s = .next t) : runFor (k + 1) s = runFor k t := by
  rw [runFor_succ, h]

theorem runFor_add {m : Nat} {s t : State} (n : Nat) (h : runFor m s = .next t) : runFor (m + n) s = runFor n t := by
  induction m generalizing s with
  | zero => cases h; rw [Nat.zero_add]
  | succ m ih =>
    rw [runFor_succ] at h
    rw [show m + 1 + n = (m + n) + 1 by omega, runFor_succ]
    cases hu : step s with
    | next u => rw [hu] at h; exact ih h
    | fault f => rw [hu] at h; cases h
    | refused r => rw [hu] at h; cases h

/-- A run of a list of commands that each keep a property of the commands still to come: it completes, and the position
is behind the list. -/
theorem run_list (hdec : ∀ i, decode (encode i) = .ok i) {P : List Instr → State → Prop}
    (hadv : ∀ is s, P is s → P is (advance s)) (hstep : ∀ i is s, P (i :: is) s → ∃ t, exec i s = .next t ∧ P is t) :
    ∀ (is : List Instr) (s : State) (ws : List CommandWord), s.cmds.drop s.cmdIx = is.map encode ++ ws → P is s →
      ∃ t, runFor is.length s = .next t ∧ P [] t ∧ t.cmds = s.cmds ∧ t.cmdIx = s.cmdIx + is.length ∧
        t.cmds.drop t.cmdIx = ws
  | [], s, ws, hd, hp => ⟨s, rfl, hp, rfl, rfl, hd⟩
  | i :: is, s, ws, hd, hp => by
    obtain ⟨t, h1, h2⟩ := hstep i is (advance s) (hadv _ _ hp)
    obtain ⟨h3, h4⟩ := exec_position h1
    have h5 := step_command hdec (by rw [hd]; rfl : s.cmds.drop s.cmdIx = encode i :: (is.map encode ++ ws))
    have hd' : t.cmds.drop t.cmdIx = is.map encode ++ ws := by
      rw [h3, h4, show (advance s).cmds = s.cmds from rfl, show (advance s).cmdIx = s.cmdIx + 1 from rfl,
        ← List.drop_drop, hd]
      rfl
    obtain ⟨u, g1, g2, g3, g4, g5⟩ := run_list hdec hadv hstep is t ws hd' h2
    refine ⟨u, ?_, g2, g3.trans h3, ?_, g5⟩
    · rw [List.length_cons, runFor_next _ (h5.trans h1)]
      exact g1
    · rw [g4, h4, List.length_cons, show (advance s).cmdIx = s.cmdIx + 1 from rfl]; omega

/-- The start of a run (R238): only the command list and `IN` differ from reset. -/
theorem startRun_eq (ws : List CommandWord) (inp : List Byte) :
    startRun ws inp = { State.reset with cmds := ws, inp := inp } := rfl

@[simp] theorem startRun_cmds (ws : List CommandWord) (inp : List Byte) : (startRun ws inp).cmds = ws := by
  rw [startRun_eq]

@[simp] theorem startRun_cmdIx (ws : List CommandWord) (inp : List Byte) : (startRun ws inp).cmdIx = 0 := by
  rw [startRun_eq]; rfl

/-! ### Whole bytes -/

theorem length_flatMap_byteBits {l : List Byte} : (l.flatMap byteBits).length = 8 * l.length := by
  induction l with
  | nil => rfl
  | cons b l ih => simp [List.flatMap_cons, ih]; omega

theorem flush_bytes {s t : State} {bits pre} (hp : PackerOk t) (hpre : pre = s.out.flatMap byteBits)
    (hb : packedBits t = pre ++ bits) (ho : s.out <+: t.out) : ∃ bytes, (flushed t).out = s.out ++ bytes ∧
      (flushed t).free = 8#4 ∧
      bytes.length = (bits.length + 7) / 8 ∧ bytes.flatMap byteBits = bits ++ List.replicate (8 * bytes.length - bits.length) false := by
  obtain ⟨h1, h2, h3⟩ := flushed_spec hp
  have ho' : s.out <+: (flushed t).out := by
    unfold flushed; split
    · obtain ⟨ys, hy⟩ := ho
      exact ⟨ys ++ [t.pbuf], by rw [← List.append_assoc, hy]; rfl⟩
    · exact ho
  obtain ⟨bytes, hby⟩ := ho'
  have hf : packedBits (flushed t) = (flushed t).out.flatMap byteBits := by
    unfold packedBits; rw [h2]; simp
  rw [hf, ← hby, List.flatMap_append, hb, hpre, List.append_assoc] at h3
  have h4 := List.append_cancel_left h3
  have hlen := congrArg List.length h4
  rw [length_flatMap_byteBits, List.length_append, List.length_replicate] at hlen
  refine ⟨bytes, hby.symm, h2, by omega, ?_⟩
  rw [h4]; congr 2; omega

/-! ### The table of counts -/

theorem sum_indicator (k n : Nat) (hn : k < n) : ((List.range n).map fun i => if i = k then 1 else 0).sum = 1 := by
  induction n with
  | zero => omega
  | succ n ihn =>
    rw [List.range_succ, List.map_append, List.sum_append]
    by_cases h : k = n
    · have : ((List.range n).map fun i => if i = k then 1 else 0).sum = 0 := by
        apply List.sum_eq_zero
        intro x hx
        obtain ⟨i, hi, rfl⟩ := List.mem_map.1 hx
        rw [List.mem_range] at hi
        rw [if_neg (by omega)]
      rw [this]; simp [h]
    · rw [ihn (by omega)]; simp [Ne.symm h]

theorem sum_counts (n : Nat) (hn : n = 256)
    (bytes : List Byte) : ((List.range n).map fun i => bytes.count (BitVec.ofNat 8 i)).sum = bytes.length := by
  induction bytes with
  | nil => simp
  | cons b bs ih =>
    have : ((List.range n).map fun i => (b :: bs).count (BitVec.ofNat 8 i)) = (List.range n).map fun i => bs.count (BitVec.ofNat 8 i) + if i = b.toNat then 1 else 0 := by
      apply List.map_congr_left
      intro i hi
      rw [List.mem_range] at hi
      rw [List.count_cons]
      congr 1
      by_cases h : i = b.toNat
      · subst h; simp
      · rw [if_neg h, if_neg]
        intro h'
        have h'' : b = BitVec.ofNat 8 i := by simpa using h'
        apply h; rw [h'', BitVec.toNat_ofNat]; omega
    rw [this, List.sum_map_add, ih, List.length_cons, sum_indicator b.toNat n (by have := b.isLt; omega)]

theorem countTable_get (bytes : List Byte) (hb : ∀ b, bytes.count b < 2 ^ 64) (i : Nat) (hi : i < 256) :
    ((countTable bytes)[i]).toNat = bytes.count (BitVec.ofNat 8 i) := by
  unfold countTable
  rw [Vector.getElem_ofFn, BitVec.toNat_ofNat, Nat.mod_eq_of_lt (hb _)]

theorem sum_countTable (bytes : List Byte) (hb : ∀ b,
    bytes.count b < 2 ^ 64) : sumOfCounts (countTable bytes) = bytes.length := by
  rw [← sum_counts 256 rfl]
  unfold sumOfCounts
  refine congrArg List.sum (List.ext_getElem ?_ ?_)
  · rw [List.length_map, List.length_map, List.length_range, Vector.length_toList]
  · intro i h1 h2
    rw [List.getElem_map, List.getElem_map, List.getElem_range, Vector.getElem_toList]
    rw [List.length_map, Vector.length_toList] at h1
    exact countTable_get bytes hb i h1

end Sys2Proof.Machine
end

