-- ==== Sys2Proof/Laws/PerInstr.lean ====
section
/-!
SUPPORT. Per-instruction facts about commands as syntax (spec 30_encoding.md R91, R93, R95, R96).
-/

namespace Sys2Proof.Laws.EncodesItsOpcode

/-- The three fields of a command's word are its opcode and its operands, the fields its format does not use are zero,
and the word matches its row. -/
def Statement (i : Instr) : Prop :=
  opField (encode i) = i.opcode ∧ symField (encode i) = i.symOperand ∧ immField (encode i) = i.immOperand ∧
    WellFormed i = true ∧ i.format.zeroFieldsOk i.symOperand.toNat i.immOperand.toNat = true ∧
    formatOfOpcode i.opcode.toNat = some i.format

/-- The part of `Statement` that is the same for every command. -/
theorem of_wellFormed {i : Instr} (hw : WellFormed i = true) (hf : formatOfOpcode i.opcode.toNat = some i.format) :
    Statement i :=
  ⟨opField_assemble .., symField_assemble .., immField_assemble .., hw, zeroFieldsOk_operands i, hf⟩

/-- A command whose opcode has a format is well formed: its operands have their fields' types (R92). -/
theorem wellFormed_of_format {i : Instr} (hf : formatOfOpcode i.opcode.toNat = some i.format) : WellFormed i = true :=
    by
  simp only [WellFormed, Instr.raw, RawCommand.wellFormed, hf, zeroFieldsOk_operands, Bool.and_true,
    Bool.and_eq_true]
  exact ⟨decide_eq_true i.symOperand.isLt, decide_eq_true i.immOperand.isLt⟩

/-- The statement from the format of the opcode alone. -/
theorem of_format {i : Instr} (hf : formatOfOpcode i.opcode.toNat = some i.format) : Statement i :=
  of_wellFormed (wellFormed_of_format hf) hf

theorem clr : Statement .clr := of_format rfl
theorem fld (sym : Symbol) (imm : Count) : Statement (.fld sym imm) := of_format rfl
theorem finc (sym : Symbol) : Statement (.finc sym) := of_format rfl
theorem fdec (sym : Symbol) : Statement (.fdec sym) := of_format rfl
theorem frd (sym : Symbol) : Statement (.frd sym) := of_format rfl
theorem build : Statement .build := of_format rfl
theorem xcode (sym : Symbol) : Statement (.xcode sym) := of_format rfl
theorem pack : Statement .pack := of_format rfl
theorem flush : Statement .flush := of_format rfl
theorem step : Statement .step := of_format rfl
theorem emit : Statement .emit := of_format rfl
theorem enc (sym : Symbol) : Statement (.enc sym) := of_format rfl
theorem dec : Statement .dec := of_format rfl
theorem drun : Statement .drun := of_format rfl

end Sys2Proof.Laws.EncodesItsOpcode
end

