-- ==== Sys2Proof/Laws/WalkFaults.lean ====
section
/-!
SUPPORT. In which fault a walk ends (spec 44_bit_unpacker.md R161, 45_driver.md R171, R172, 60_exceptions.md R194), as a
function of the tree of the table and of the bits to come.
-/

namespace Sys2Proof.Machine

/-- A bit string that stays inside the tree ends there (R161, R171). -/
theorem treeFault_underrun {nodes : Vector Node 511} : ∀ (u : STree) (p m : NodeIx) (bits : List Bool),
    u.Reps nodes p → u.decode bits = none →
    walkDown nodes u.slot bits = some m → treeFault u.erase bits = some .inUnderrun
  | .leaf x f, p, m, bits, hr, hd, hw => by simp [STree.decode, STree.erase, treeDecode] at hd
  | .two n l r f, p, m, [], hr, hd, hw => rfl
  | .two n l r f, p, m, b :: bits, hr, hd, hw => by
    cases b with
    | false =>
      simp only [STree.slot_two, walkDown, hr.1, innerRecord, Bool.false_eq_true, if_false,
        if_neg hr.2.1.slot_ne_null] at hw
      exact treeFault_underrun l n m bits hr.2.1 hd hw
    | true =>
      simp only [STree.slot_two, walkDown, hr.1, innerRecord, if_true, if_neg hr.2.2.slot_ne_null] at hw
      exact treeFault_underrun r n m bits hr.2.2 hd hw
  | .one n l f, p, m, [], hr, hd, hw => rfl
  | .one n l f, p, m, b :: bits, hr, hd, hw => by
    cases b with
    | false =>
      simp only [STree.slot_one, walkDown, hr.1, innerRecord, Bool.false_eq_true, if_false,
        if_neg hr.2.slot_ne_null] at hw
      exact treeFault_underrun l n m bits hr.2 hd hw
    | true => simp [STree.slot_one, walkDown, hr.1, innerRecord] at hw

/-- A 1 bit at a node without right child (R161, R171). -/
theorem treeFault_null {nodes : Vector Node 511} : ∀ (u : STree) (p m : NodeIx) (path rest : List Bool) (nd : Node),
    u.Reps nodes p → u.decode (path ++ true :: rest) = none →
    walkDown nodes u.slot path = some m → nodeAt nodes m = some nd → nd.tag = .internal → nd.right = Config.null →
      treeFault u.erase (path ++ true :: rest) = some .nullChild
  | .leaf x f, p, m, path, rest, nd, hr, hd, hw, hn, ht, hnull => by simp [STree.decode, STree.erase, treeDecode] at hd
  | .two n l r f, p, m, [], rest, nd, hr, hd, hw, hn, ht, hnull => by
    cases hw
    rw [STree.slot_two, hr.1] at hn; cases hn
    exact absurd hnull hr.2.2.slot_ne_null
  | .two n l r f, p, m, b :: path, rest, nd, hr, hd, hw, hn, ht, hnull => by
    cases b with
    | false =>
      simp only [STree.slot_two, walkDown, hr.1, innerRecord, Bool.false_eq_true, if_false,
        if_neg hr.2.1.slot_ne_null] at hw
      exact treeFault_null l n m path rest nd hr.2.1 hd hw hn ht hnull
    | true =>
      simp only [STree.slot_two, walkDown, hr.1, innerRecord, if_true, if_neg hr.2.2.slot_ne_null] at hw
      exact treeFault_null r n m path rest nd hr.2.2 hd hw hn ht hnull
  | .one n l f, p, m, [], rest, nd, hr, hd, hw, hn, ht, hnull => rfl
  | .one n l f, p, m, b :: path, rest, nd, hr, hd, hw, hn, ht, hnull => by
    cases b with
    | false =>
      simp only [STree.slot_one, walkDown, hr.1, innerRecord, Bool.false_eq_true, if_false,
        if_neg hr.2.slot_ne_null] at hw
      exact treeFault_null l n m path rest nd hr.2 hd hw hn ht hnull
    | true => simp [STree.slot_one, walkDown, hr.1, innerRecord] at hw

/-- A walk faults or it reaches a leaf. -/
theorem treeFault_none : ∀ (h : HTree) (bits : List Bool), treeFault h bits = none ↔ (treeDecode h bits).isSome
  | .leaf x f, bits => by simp [treeFault, treeDecode]
  | .two l r f, [] => by simp [treeFault, treeDecode]
  | .two l r f, false :: bits => treeFault_none l bits
  | .two l r f, true :: bits => treeFault_none r bits
  | .one l f, [] => by simp [treeFault, treeDecode]
  | .one l f, false :: bits => treeFault_none l bits
  | .one l f, true :: bits => by simp [treeFault, treeDecode]

/-- Whether `DEC` of a table with a live symbol completes, and its fault when it does not (R171, R194). -/
theorem decBody_treeFault {s : State} (hi : Inv s) (hl : liveCount s.freq ≠ 0) : ∃ h, treeOf s.freq = some h ∧
    match treeFault h (inputBits s) with
    | none => ∃ t, decBody s = .done t
    | some c => ∃ t, decBody s = .raised t ∧ t.fault = true ∧ t.fcode = causeCode c := by
  obtain ⟨h, htree, hs⟩ := decBody_spec hi.counts hl hi.unpacker
  refine ⟨h, htree, ?_⟩
  cases hd : treeDecode h (inputBits s) with
  | some q =>
    obtain ⟨x, rest⟩ := q
    rw [hd] at hs
    obtain ⟨s', -, -, -, -, -, hdone⟩ := hs
    rw [(treeFault_none h _).2 (by rw [hd]; rfl)]
    exact ⟨_, hdone⟩
  | none =>
    rw [hd] at hs
    obtain ⟨s', hs⟩ := hs
    obtain ⟨u, hu, hcur⟩ := builtState_hasTree hl
    have : h = u.erase := by
      have := hu.tree
      rw [show (builtState s).freq = s.freq from rfl, htree] at this
      exact Option.some.inj this
    subst this
    generalize hr : decBody s = r at hs
    cases hs with
    | underrun path hw hp hb h0 hu8 =>
      rw [hcur] at hp
      have hb' : inputBits s = path := hb
      rw [hb', treeFault_underrun u _ _ path hu.reps (by rw [← hb']; exact hd) hp]
      exact ⟨_, rfl, rfl, rfl⟩
    | nullChild path hw hp hb h0 hu8 =>
      obtain ⟨nd, hn, ht, hnull⟩ := h0
      rw [hcur] at hp
      have hb' : inputBits s = path ++ true :: inputBits s' := hb
      rw [hb', treeFault_null u _ _ path _ nd hu.reps (by rw [← hb']; exact hd) hp hn ht hnull]
      exact ⟨_, rfl, rfl, rfl⟩

/-- Whether `DRUN` completes, and its fault when it does not (R172, R194). -/
theorem drunLoop_symbolsFault : ∀ (n k : Nat) {s : State}, Inv s → sumOfCounts s.freq = n → bitsLeft s < k → 
    match symbolsFault n s.freq (inputBits s) with
    | none => ∃ t, drunLoop k s = .done t ∧ t.fault = s.fault
    | some c => ∃ t, drunLoop k s = .raised t ∧ t.fault = true ∧ t.fcode = causeCode c
  | 0, k, s, hi, hn, hb => by
    have hl := (sumOfCounts_eq_zero_iff s.freq).1 hn
    have ht := (total_eq_zero_iff hi.counts).2 hl
    refine ⟨s, ?_, rfl⟩
    unfold drunLoop
    rw [if_pos ht]
  | n + 1, k, s, hi, hn, hb => by
    have hl : liveCount s.freq ≠ 0 := fun h' => by
      have := (sumOfCounts_eq_zero_iff s.freq).2 h'; omega
    have ht : s.total ≠ 0#72 := fun h' => hl ((total_eq_zero_iff hi.counts).1 h')
    obtain ⟨k', rfl⟩ : ∃ k', k = k' + 1 := ⟨k - 1, by omega⟩
    have hd : drunLoop (k' + 1) s = (decBody s).andThen (drunLoop k') := by
      conv_lhs => unfold drunLoop
      rw [if_neg ht]
    obtain ⟨h, htree, hf⟩ := decBody_treeFault hi hl
    rw [hd]
    simp only [symbolsFault, htree]
    cases htd : treeDecode h (inputBits s) with
    | none =>
      simp only
      cases hc : treeFault h (inputBits s) with
      | none => rw [treeFault_none, htd] at hc; cases hc
      | some c =>
        rw [hc] at hf
        obtain ⟨t, h1, h2, h3⟩ := hf
        exact ⟨t, by rw [h1]; rfl, h2, h3⟩
    | some q =>
      obtain ⟨x, rest⟩ := q
      rw [(treeFault_none h _).2 (by rw [htd]; rfl)] at hf
      obtain ⟨t, hdone⟩ := hf
      obtain ⟨g1, g2, -, -, -, hh, y, rest', htr, htd', hx, hr, s', hw, hc, h7, rfl⟩ := decBody_done_spec hi hdone
      rw [htree] at htr; cases htr
      rw [htd] at htd'; cases htd'
      have hi2 := decBody_done_inv hi hdone
      have hfreq : (emitted x s').freq = countDown s.freq x := by
        have hfr := hw.eq
        have e : s'.freq = s.freq := by rw [hfr]; rfl
        unfold emitted countDown
        rw [setF_freq]
        simp only [pushSymbol, freqOf, e]
      have hbl := decBody_bitsLeft hdone
      have hsum : sumOfCounts (emitted x s').freq = n := by
        have h1 := hi2.counts.1
        have h2 := hi.counts.1
        omega
      have ih := drunLoop_symbolsFault n k' hi2 hsum (by omega)
      rw [hfreq, hr] at ih
      rw [hdone]
      simp only [Result.andThen]
      cases hsf : symbolsFault n (countDown s.freq x) rest with
      | none => rw [hsf] at ih; obtain ⟨t, i1, i2⟩ := ih; exact ⟨t, i1, i2.trans g1⟩
      | some c => rw [hsf] at ih; exact ih

end Sys2Proof.Machine
end

