-- ==== Sys2Proof/Machine/Assembler.lean ====
section
/-!
DEFINITION. The textual form of programs (spec 30_encoding.md R101, R102): one command a line, the mnemonic in upper
case, operands separated by commas, `;` a comment. "Operands that do not fit their field are an assembly error, not a
command": an error is `none`. Points the rules leave open are in log entry 11. Text is a list of characters.
-/

namespace Sys2Proof.Machine

/-- The tokens of a line. -/
inductive Token where
  /-- a mnemonic or a number -/
  | word (cs : List Char)
  /-- a character in single quotes -/
  | chr (c : Char)
  /-- a string in double quotes -/
  | str (cs : List Char)
  | comma
  deriving DecidableEq, Repr

/-- Where the lexer stands. The characters of an open word or string are kept in reverse. -/
inductive LexMode where
  | blank
  | inWord (cs : List Char)
  | quoteOpen
  | quoteChar (c : Char)
  | inString (cs : List Char)
  | comment
  | bad
  deriving DecidableEq, Repr

/-- White space between tokens. -/
def isBlank (c : Char) : Bool := c == ' ' || c == '\t' || c == '\r'

/-- A printable ASCII character (R101). -/
def isPrintable (c : Char) : Bool := decide (32 ≤ c.toNat ∧ c.toNat ≤ 126)

/-- The lexer at a character outside quotes, with no word open. -/
def lexBlank (ts : List Token) (c : Char) : LexMode × List Token :=
  if isBlank c then (.blank, ts)
  else if c == ';' then (.comment, ts)
  else if c == ',' then (.blank, .comma :: ts)
  else if c == '\'' then (.quoteOpen, ts)
  else if c == '"' then (.inString [], ts)
  else (.inWord [c], ts)

/-- One character. The tokens found so far are kept in reverse. A quote ends an open word, so a quoted operand may follow
the mnemonic without white space: DESIGN CHOICE, R101 is silent (log entry 11). -/
def lexChar (st : LexMode × List Token) (c : Char) : LexMode × List Token :=
  match st with
  | (.blank, ts) => lexBlank ts c
  | (.inWord cs, ts) =>
    if isBlank c || c == ';' || c == ',' || c == '\'' || c == '"' then lexBlank (.word cs.reverse :: ts) c
    else (.inWord (c :: cs), ts)
  | (.quoteOpen, ts) => if isPrintable c then (.quoteChar c, ts) else (.bad, ts)
  | (.quoteChar d, ts) => if c == '\'' then (.blank, .chr d :: ts) else (.bad, ts)
  | (.inString cs, ts) =>
    if c == '"' then (.blank, .str cs.reverse :: ts) else if isPrintable c then (.inString (c :: cs), ts) else (.bad,
      ts)
  | (.comment, ts) => (.comment, ts)
  | (.bad, ts) => (.bad, ts)

/-- The tokens of a line; none when a quote or a string is left open or holds a character it may not. -/
def tokens (line : List Char) : Option (List Token) :=
  match line.foldl lexChar (.blank, []) with
  | (.blank, ts) => some ts.reverse
  | (.comment, ts) => some ts.reverse
  | (.inWord cs, ts) => some (Token.word cs.reverse :: ts).reverse
  | (.quoteOpen, _) => none
  | (.quoteChar _, _) => none
  | (.inString _, _) => none
  | (.bad, _) => none

/-- The value of a digit in a base of at most 16. -/
def digitOf (base : Nat) (c : Char) : Option Nat :=
  let v := if '0' ≤ c ∧ c ≤ '9' then c.toNat - 48
    else if 'a' ≤ c ∧ c ≤ 'f' then c.toNat - 87
    else if 'A' ≤ c ∧ c ≤ 'F' then c.toNat - 55
    else 16
  if v < base then some v else none

/-- The value of a string of digits, after `acc`. -/
def digitsValue (base : Nat) : Nat → List Char → Option Nat
  | acc, [] => some acc
  | acc, c :: rest =>
    match digitOf base c with
    | some d => digitsValue base (acc * base + d) rest
    | none => none

/-- A number, decimal or `0x` hexadecimal (R101). -/
def numberOf (cs : List Char) : Option Nat :=
  match cs with
  | [] => none
  | '0' :: 'x' :: c :: rest => digitsValue 16 0 (c :: rest)
  | c :: rest => digitsValue 10 0 (c :: rest)

/-- A symbol operand: a number 0..255 or a quoted character standing for its code (R101). -/
def symbolOf : Token → Option Symbol
  | .word cs =>
    match numberOf cs with
    | some n => if n < 256 then some (BitVec.ofNat 8 n) else none
    | none => none
  | .chr c => some (BitVec.ofNat 8 c.toNat)
  | .str _ => none
  | .comma => none

/-- A count operand: a number 0..2^64 − 1 (R101). -/
def countOf : Token → Option Count
  | .word cs =>
    match numberOf cs with
    | some n => if n < 2 ^ 64 then some (BitVec.ofNat 64 n) else none
    | none => none
  | .chr _ => none
  | .str _ => none
  | .comma => none

/-- A list of symbols: operands separated by commas, or a string standing for its characters' codes (R102). DESIGN
CHOICE, R102 is silent on both (log entry 11): among other operands a string may stand in the last place only; the empty
string is the empty list, while no operand at all is an error. -/
def symbolList : List Token → Option (List Symbol)
  | [] => none
  | [.str cs] => some (cs.map fun c => BitVec.ofNat 8 c.toNat)
  | [t] => (symbolOf t).map fun x => [x]
  | t :: .comma :: rest =>
    match symbolOf t, symbolList rest with
    | some x, some xs => some (x :: xs)
    | _, _ => none
  | _ :: _ => none

/-- A command that takes no operand. -/
def lineZ (i : Instr) (args : List Token) : Option (List Instr) :=
  match args with
  | [] => some [i]
  | _ => none

/-- A command that takes a symbol. -/
def lineS (mk : Symbol → Instr) (args : List Token) : Option (List Instr) :=
  match args with
  | [t] => (symbolOf t).map fun x => [mk x]
  | _ => none

/-- `FLD s, v`. -/
def lineSI (args : List Token) : Option (List Instr) :=
  match args with
  | [t, .comma, u] =>
    match symbolOf t, countOf u with
    | some x, some v => some [.fld x v]
    | _, _ => none
  | _ => none

/-- `DECN k`. -/
def lineDecn (args : List Token) : Option (List Instr) :=
  match args with
  | [.word cs] => (numberOf cs).map fun k => Pseudo.expand (.decn k)
  | _ => none

/-- The commands a mnemonic and its operands stand for (R96, R101, R102). -/
def assembleNamed (name : List Char) (args : List Token) : Option (List Instr) :=
  if name = ['C', 'L', 'R'] then lineZ .clr args
  else if name = ['F', 'L', 'D'] then lineSI args
  else if name = ['F', 'I', 'N', 'C'] then lineS .finc args
  else if name = ['F', 'D', 'E', 'C'] then lineS .fdec args
  else if name = ['F', 'R', 'D'] then lineS .frd args
  else if name = ['B', 'U', 'I', 'L', 'D'] then lineZ .build args
  else if name = ['X', 'C', 'O', 'D', 'E'] then lineS .xcode args
  else if name = ['P', 'A', 'C', 'K'] then lineZ .pack args
  else if name = ['F', 'L', 'U', 'S', 'H'] then lineZ .flush args
  else if name = ['S', 'T', 'E', 'P'] then lineZ .step args
  else if name = ['E', 'M', 'I', 'T'] then lineZ .emit args
  else if name = ['E', 'N', 'C'] then lineS .enc args
  else if name = ['D', 'E', 'C'] then lineZ .dec args
  else if name = ['D', 'R', 'U', 'N'] then lineZ .drun args
  else if name = ['C', 'O', 'U', 'N', 'T'] then (symbolList args).map fun xs => Pseudo.expand (.count xs)
  else if name = ['E', 'N', 'C', 'S'] then (symbolList args).map fun xs => Pseudo.expand (.encs xs)
  else if name = ['D', 'E', 'C', 'N'] then lineDecn args
  else none

/-- The commands of a line; an empty or comment line has none (R101). -/
def assembleLine (line : List Char) : Option (List Instr) :=
  match tokens line with
  | none => none
  | some [] => some []
  | some (.word name :: args) => assembleNamed name args
  | some _ => none

/-- The command words of a program text, given as its lines; none when a line is in error (R101). -/
def assembleText : List (List Char) → Option (List CommandWord)
  | [] => some []
  | line :: rest =>
    match assembleLine line, assembleText rest with
    | some is, some ws => some (is.map encode ++ ws)
    | _, _ => none

end Sys2Proof.Machine
end

