-- ==== Sys2Proof/Tests/Slice0.lean ====
section
/-!
SUPPORT. Tests. Expected results are those of the vectors of spec/95_test_vectors.md named in the comments, or a hand
calculation from the rule named. The second half shows, for every statement with hypotheses, a state and operands that
meet them together.
-/

namespace Sys2Proof.Tests

-- One theorem after another: evaluating many at once asks for more threads than the memory limit allows.
set_option Elab.async false

open Sys2Proof.Machine

/-! ### Well-formedness (R91, R93, R96, R97) -/

theorem test_wf_good : RawCommand.wellFormed { op := 0x02, sym := 255, imm := 2 ^ 64 - 1 } = true := by decide
theorem test_wf_reserved_opcode : RawCommand.wellFormed { op := 0x06, sym := 0, imm := 0 } = false := by decide
theorem test_wf_opcode_too_large : RawCommand.wellFormed { op := 256, sym := 0, imm := 0 } = false := by decide
theorem test_wf_symbol_too_large : RawCommand.wellFormed { op := 0x03, sym := 256, imm := 0 } = false := by decide
theorem test_wf_count_too_large : RawCommand.wellFormed { op := 0x02, sym := 0, imm := 2 ^ 64 } = false := by decide
theorem test_wf_z_with_symbol : RawCommand.wellFormed { op := 0x10, sym := 1, imm := 0 } = false := by decide
theorem test_wf_z_with_count : RawCommand.wellFormed { op := 0x13, sym := 0, imm := 1 } = false := by decide
theorem test_wf_s_with_count : RawCommand.wellFormed { op := 0x03, sym := 0x61, imm := 1 } = false := by decide

/-! ### Decoding: the legal words of 95_test_vectors.md section 3.8, written out bit by bit from R91 and R96 -/

theorem test_decode_clr : decode 0x01000000000000000000#80 = .ok .clr := by decide
theorem test_decode_fld : decode 0x02610000000000000003#80 = .ok (.fld 0x61#8 3#64) := by decide
theorem test_decode_fld_max : decode 0x02FFFFFFFFFFFFFFFFFF#80 = .ok (.fld 0xFF#8 18446744073709551615#64) := by decide
theorem test_decode_finc : decode 0x03610000000000000000#80 = .ok (.finc 0x61#8) := by decide
theorem test_decode_fdec : decode 0x04FF0000000000000000#80 = .ok (.fdec 0xFF#8) := by decide
theorem test_decode_frd : decode 0x05000000000000000000#80 = .ok (.frd 0x00#8) := by decide
theorem test_decode_build : decode 0x10000000000000000000#80 = .ok .build := by decide
theorem test_decode_xcode : decode 0x11720000000000000000#80 = .ok (.xcode 0x72#8) := by decide
theorem test_decode_pack : decode 0x12000000000000000000#80 = .ok .pack := by decide
theorem test_decode_flush : decode 0x13000000000000000000#80 = .ok .flush := by decide
theorem test_decode_step : decode 0x14000000000000000000#80 = .ok .step := by decide
theorem test_decode_emit : decode 0x15000000000000000000#80 = .ok .emit := by decide
theorem test_decode_enc : decode 0x20620000000000000000#80 = .ok (.enc 0x62#8) := by decide
theorem test_decode_dec : decode 0x21000000000000000000#80 = .ok .dec := by decide
theorem test_decode_drun : decode 0x22000000000000000000#80 = .ok .drun := by decide

/-! The illegal words F15 to F21, and the last words of the reserved ranges of R97. -/

theorem test_decode_zero_word : decode 0x00000000000000000000#80 = .error (.reservedOpcode 0x00#8) := by decide
theorem test_decode_reserved_ff : decode 0xFF000000000000000000#80 = .error (.reservedOpcode 0xFF#8) := by decide
theorem test_decode_reserved_06 : decode 0x06000000000000000000#80 = .error (.reservedOpcode 0x06#8) := by decide
theorem test_decode_reserved_0f : decode 0x0F000000000000000000#80 = .error (.reservedOpcode 0x0F#8) := by decide
theorem test_decode_reserved_16 : decode 0x16000000000000000000#80 = .error (.reservedOpcode 0x16#8) := by decide
theorem test_decode_reserved_1f : decode 0x1F000000000000000000#80 = .error (.reservedOpcode 0x1F#8) := by decide
theorem test_decode_reserved_23 : decode 0x23000000000000000000#80 = .error (.reservedOpcode 0x23#8) := by decide
theorem test_decode_flush_imm : decode 0x13000000000000000001#80 = .error (.nonzeroField 0x13#8) := by decide
theorem test_decode_build_sym : decode 0x10010000000000000000#80 = .error (.nonzeroField 0x10#8) := by decide
theorem test_decode_finc_imm : decode 0x03610000000000000001#80 = .error (.nonzeroField 0x03#8) := by decide
theorem test_decode_clr_imm : decode 0x01000000000000000005#80 = .error (.nonzeroField 0x01#8) := by decide
theorem test_table_word : decodeTableWord 80 0x05FF0000000000000000 = some (.frd 0xFF#8) := by decide

/-! ### States the tests start from -/

/-- The table with the given counts, loaded after reset. -/
@[irreducible] def load (es : List (Symbol × Count)) : State := es.foldl (fun s e => setF s e.1 e.2) State.reset

/-- Table {a:3, b:1} (vector B1). -/
@[irreducible] def ab : State := load [(0x61#8, 3#64), (0x62#8, 1#64)]
/-- Table {a:2, b:1, c:1} (vector B3). -/
@[irreducible] def abc : State := load [(0x61#8, 2#64), (0x62#8, 1#64), (0x63#8, 1#64)]
/-- Table {X:3} (vectors U7, U8). -/
@[irreducible] def x3 : State := load [(0x58#8, 3#64)]
/-- Entry 0xFF at its greatest value (vector A10). -/
@[irreducible] def full : State := load [(0xFF#8, 18446744073709551615#64)]

/-- A state with the given bytes to come. -/
def given (bytes : List Byte) (s : State) : State := { s with inp := bytes }
/-- A state with the given words in the host's list. -/
def listed (ws : List CommandWord) (s : State) : State := { s with cmds := ws }

/-- Whether a command answered a next state with the given property. -/
def after (o : Host.Outcome State Fault Refusal) (p : State → Bool) : Bool :=
  match o with
  | .next t => p t
  | .fault _ => false
  | .refused _ => false

theorem after_next {o : Host.Outcome State Fault Refusal} {p : State → Bool} (h : after o p = true) :
    ∃ t, o = .next t ∧ p t = true := by
  cases o with
  | next t => exact ⟨t, rfl, h⟩
  | fault f => cases h
  | refused r => cases h

/-! ### One command each -/

/-- Y1: `CLR` drops everything but the bytes already pushed or not yet taken. -/
theorem test_clr : after (exec .clr { ab with free := 7#4, ubuf := 0x24#8, ucnt := 7#4, inp := [0x34#8], sout :=
    [0x61#8] })
    (fun t => status t == 0x0002#16 && freqOf t 0x61#8 == 0#64 && t.total == 0#72 && t.live == 0#9 && t.free == 8#4 &&
      t.ucnt == 0#4 && t.ubuf == 0#8 && t.inp == [0x34#8] && t.sout == [0x61#8]) = true := by decide +kernel

/-- A3: `FLD` overwrites, it does not add. -/
theorem test_fld : after (exec (.fld 0x61#8 7#64) (load [(0x61#8, 3#64)]))
    (fun t => freqOf t 0x61#8 == 7#64 && t.live == 1#9 && t.total == 7#72) = true := by decide +kernel

/-- A9: `TOTAL` needs bit 64. -/
theorem test_fld_total : after (exec (.fld 0xFF#8 18446744073709551615#64) (load [(0x00#8, 1#64)]))
    (fun t => t.live == 2#9 && t.total == 18446744073709551616#72) = true := by decide +kernel

/-- A4, its last command. -/
theorem test_finc : after (exec (.finc 0x62#8) (load [(0x61#8, 2#64)]))
    (fun t => freqOf t 0x61#8 == 2#64 && freqOf t 0x62#8 == 1#64 && t.live == 2#9 && t.total == 3#72 &&
      status t == 0x0000#16) = true := by decide +kernel

/-- A10: no wrap. -/
theorem test_finc_overflow : after (exec (.finc 0xFF#8) full)
    (fun t => status t == 0x0504#16 && t.finfo == 0x00FF#16 && freqOf t 0xFF#8 == 18446744073709551615#64 &&
      t.total == 18446744073709551615#72) = true := by decide +kernel

/-- A6, its last command: the last occurrence makes `EMPTY` 1. -/
theorem test_fdec : after (exec (.fdec 0x62#8) (load [(0x62#8, 1#64)]))
    (fun t => freqOf t 0x62#8 == 0#64 && t.live == 0#9 && t.total == 0#72 && status t == 0x0002#16) = true := by
  decide +kernel

/-- A11. -/
theorem test_fdec_absent : after (exec (.fdec 0x07#8) State.reset)
    (fun t => status t == 0x0406#16 && t.finfo == 0x0007#16) = true := by decide +kernel

/-- A7, A8: `FRD` reads and keeps `TV`. -/
theorem test_frd : after (exec (.frd 0x61#8) { load [(0x61#8, 3#64)] with tv := true })
    (fun t => t.res == 3#64 && t.tv && freqOf t 0x61#8 == 3#64) = true := by decide +kernel

/-- B3, every register and record of it: the merged node ties with a and goes behind it. -/
theorem test_build : after (exec .build abc)
    (fun t => t.root == 257#9 && t.cur == 257#9 && t.nleaf == 3#9 && t.nint == 2#9 && status t == 0x0001#16 &&
      nodeAt t.nodes 97#9 == some ⟨.leaf, 0x61#8, 2#72, 257#9, 511#9, 511#9⟩ &&
      nodeAt t.nodes 98#9 == some ⟨.leaf, 0x62#8, 1#72, 256#9, 511#9, 511#9⟩ &&
      nodeAt t.nodes 99#9 == some ⟨.leaf, 0x63#8, 1#72, 256#9, 511#9, 511#9⟩ &&
      nodeAt t.nodes 256#9 == some ⟨.internal, 0#8, 2#72, 257#9, 98#9, 99#9⟩ &&
      nodeAt t.nodes 257#9 == some ⟨.internal, 0#8, 4#72, 511#9, 97#9, 256#9⟩ &&
      leafValid t 0x61#8 && !leafValid t 0x64#8) = true := by decide +kernel

/-- B2: one leaf. -/
theorem test_build_one : after (exec .build (load [(0x62#8, 1#64)]))
    (fun t => t.root == 256#9 && t.nleaf == 1#9 && t.nint == 1#9 &&
      nodeAt t.nodes 98#9 == some ⟨.leaf, 0x62#8, 1#72, 256#9, 511#9, 511#9⟩ &&
      nodeAt t.nodes 256#9 == some ⟨.internal, 0#8, 1#72, 511#9, 98#9, 511#9⟩) = true := by decide +kernel

/-- R135 example 3: in the tree of {a:2, b:1, c:1} the code of b is `10`. -/
theorem test_xcode : after (exec (.xcode 0x62#8) (builtState abc))
    (fun t => t.code == 2#255 && t.clen == 2#8 && t.cur == 257#9 && t.tv) = true := by decide +kernel

/-- X9. -/
theorem test_xcode_absent : after (exec (.xcode 0x62#8) (builtState (load [(0x61#8, 1#64)])))
    (fun t => status t == 0x0405#16 && t.finfo == 0x0062#16 && t.clen == 0#8) = true := by decide +kernel

/-- K2: the code `011` with two positions free. -/
theorem test_pack : after (exec .pack { State.reset with code := 3#255, clen := 3#8, pbuf := 0xA8#8, free := 2#4 })
    (fun t => t.pbuf == 0x80#8 && t.free == 7#4 && t.out == [0xA9#8]) = true := by decide +kernel

/-- K3: a byte just full waits. -/
theorem test_pack_lazy : after (exec .pack { State.reset with code := 1#255, clen := 2#8, pbuf := 0xA8#8, free := 2#4 })
    (fun t => t.pbuf == 0xA9#8 && t.free == 0#4 && t.out == []) = true := by decide +kernel

/-- K10. -/
theorem test_flush : after (exec .flush { State.reset with pbuf := 0xA0#8, free := 5#4 })
    (fun t => t.pbuf == 0#8 && t.free == 8#4 && t.out == [0xA0#8] && !ppendFlag t) = true := by decide +kernel

/-- K12. -/
theorem test_flush_empty : after (exec .flush State.reset) (fun t => t.free == 8#4 && t.out == []) = true := by
  decide +kernel

/-- U1: the refill, the bit 1, the right child. -/
theorem test_step : after (exec .step (given [0xC0#8] (builtState abc)))
    (fun t => t.cur == 256#9 && t.ubuf == 0x80#8 && t.ucnt == 7#4 && t.inp == [] && status t == 0x0001#16) = true := by
  decide +kernel

/-- U7: the missing child; the bit is consumed. -/
theorem test_step_null : after (exec .step (given [0x80#8] (builtState x3)))
    (fun t => t.cur == 256#9 && t.ubuf == 0x00#8 && t.ucnt == 7#4 && t.inp == [] && status t == 0x0705#16 &&
      t.finfo == 0x0100#16) = true := by decide +kernel

/-- U3: the leaf of c. -/
theorem test_emit : after (exec .emit { builtState abc with cur := 99#9 })
    (fun t => t.sym == 0x63#8 && t.sout == [0x63#8] && freqOf t 0x63#8 == 0#64 && t.live == 2#9 && t.total == 3#72 &&
      status t == 0x0000#16 && t.cur == 99#9) = true := by decide +kernel

/-- F14: `EMIT` on an internal node. -/
theorem test_emit_internal : after (exec .emit (builtState x3))
    (fun t => status t == 0x0805#16 && t.finfo == 0x0100#16 && t.sout == []) = true := by decide +kernel

/-- E1, turns 1 and 2: `ENC 'b'` of {a:4, b:2, c:1, d:1, r:2} after the bit `1`. -/
theorem test_enc : after (exec (.enc 0x62#8)
      { load [(0x61#8, 4#64), (0x62#8, 2#64), (0x63#8, 1#64), (0x64#8, 1#64), (0x72#8, 2#64)] with
        pbuf := 0x80#8, free := 7#4 })
    (fun t => t.pbuf == 0xA0#8 && t.free == 5#4 && t.out == [] && t.nleaf == 5#9 && t.nint == 4#9 && t.root == 259#9 &&
      t.code == 1#255 && t.clen == 2#8 && freqOf t 0x62#8 == 1#64) = true := by decide +kernel

/-- F2: `EmptyBuild` is tested before `AbsentSymbol`. -/
theorem test_enc_empty : after (exec (.enc 0x41#8) State.reset)
    (fun t => status t == 0x0206#16 && t.finfo == 0#16) = true := by decide +kernel

/-- E6. -/
theorem test_dec : after (exec .dec (given [0xC0#8] abc))
    (fun t => t.sym == 0x63#8 && t.sout == [0x63#8] && freqOf t 0x63#8 == 0#64 && t.live == 2#9 && t.total == 3#72 &&
      t.cur == 99#9 && t.ubuf == 0x00#8 && t.ucnt == 6#4 && status t == 0x0000#16) = true := by decide +kernel

/-- F11, its last command: the bit `1` of a one-leaf tree; the build is done. -/
theorem test_dec_null : after (exec .dec { x3 with ubuf := 0x80#8, ucnt := 7#4, sout := [0x58#8] })
    (fun t => status t == 0x0705#16 && t.finfo == 0x0100#16 && t.ubuf == 0x00#8 && t.ucnt == 6#4 && t.cur == 256#9 &&
      t.sout == [0x58#8]) = true := by decide +kernel

/-- E9: the bytes behind the stream are not read. -/
theorem test_drun : after (exec .drun (given [0x00#8, 0xEE#8, 0xFF#8] ab))
    (fun t => t.sout == [0x61#8, 0x61#8, 0x61#8, 0x62#8] && t.inp == [0xEE#8, 0xFF#8] && t.ucnt == 4#4 &&
      status t == 0x0002#16) = true := by decide +kernel

/-- {a:3, b:1} with the bits `11`: b is emitted, then the one-leaf tree of a has no right child (R171, R172). -/
theorem test_drun_null : after (exec .drun (given [0xFF#8] ab))
    (fun t => t.sout == [0x62#8] && t.fault && t.fcode == 0x07#8 && t.tv && t.finfo == 256#16 && t.ucnt == 6#4 &&
      freqOf t 0x62#8 == 0#64) = true := by decide +kernel

/-! ### One step each: refusal, illegal words, the idle core -/

/-- F7: refused in the fault state; only the position advances (R24). -/
theorem test_refused : after (step (listed [encode (.frd 0x61#8)] (enterFault .absentSymbol 0x62#16 ab)))
    (fun t => t.res == 0#64 && status t == 0x0404#16 && t.finfo == 0x0062#16 && t.cmdIx == 1) = true :=
      by decide +kernel

/-- F21: a `CLR` word with nonzero `imm` does not leave the fault state. -/
theorem test_refused_clr : after (step { enterFault .illegalCmd 0xFF#16 State.reset with
      cmds := [0x01000000000000000005#80] })
    (fun t => status t == 0x0106#16 && t.finfo == 0x00FF#16 && t.cmdIx == 1) = true := by decide +kernel

/-- F17. -/
theorem test_illegal : after (step (listed [0x10010000000000000000#80] State.reset))
    (fun t => status t == 0x0106#16 && t.finfo == 0x0010#16 && t.cmdIx == 1) = true := by decide +kernel

/-- A word placed with `withFetchWord` runs as the next step (vector A1). -/
theorem test_fetch_word : after (step (State.reset.withFetchWord 80 0x02610000000000000003))
    (fun t => freqOf t 0x61#8 == 3#64 && t.live == 1#9 && t.total == 3#72 && status t == 0x0000#16 && t.cmdIx == 1) = true := by
  decide +kernel

/-! ### The file header and the assembler -/

/-- S6, and the boundary values of R79. -/
theorem test_header_width : (headerWidth (load [(0x00#8, 10#64)]).freq, headerWidth (load [(0x00#8, 255#64)]).freq,
    headerWidth (load [(0x00#8, 256#64)]).freq, headerWidth (load [(0x00#8, 65536#64)]).freq,
    headerWidth (load [(0x00#8, 4294967296#64)]).freq) = (1, 1, 2, 4, 8) := by decide +kernel

/-- R101, R102: `ENC 'b' ; x` and `COUNT "aab"`. -/
theorem test_assemble : assembleText
    [['E', 'N', 'C', ' ', '\'', 'b', '\'', ' ', ';', ' ', 'x'], ['C', 'O', 'U', 'N', 'T', ' ', '"', 'a', 'a', 'b', '"'],
      ['F', 'L', 'D', ' ', '0', 'x', '6', '1', ',', ' ', '3']] =
    some [0x20620000000000000000#80, 0x03610000000000000000#80, 0x03610000000000000000#80, 0x03620000000000000000#80,
      0x02610000000000000003#80] := by decide +kernel

/-! ### Witnesses: what the hypotheses of the statements ask is met -/

theorem load_inv (es : List (Symbol × Count)) : Inv (load es) := by
  suffices h : ∀ (es : List (Symbol × Count)) (s : State), Inv s → Inv (es.foldl (fun s e => setF s e.1 e.2) s) by
    unfold load; exact h es State.reset (clearState_inv State.reset)
  intro es
  induction es with
  | nil => exact fun _ h => h
  | cons e es ih => exact fun s h => ih _ (h.setF e.1 e.2)

theorem given_inv {s : State} (h : Inv s) (l : List Byte) : Inv (given l s) :=
  ⟨h.counts, h.packer, h.unpacker, h.code, h.fault,
    fun htv => (h.tree htv).congr rfl rfl rfl rfl rfl rfl (h.tree htv).cur_ok⟩

theorem given_fault (l : List Byte) (s : State) : (given l s).fault = s.fault := rfl
theorem given_live (l : List Byte) (s : State) : (given l s).live = s.live := rfl
theorem given_total (l : List Byte) (s : State) : (given l s).total = s.total := rfl
theorem given_freq (l : List Byte) (s : State) : (given l s).freq = s.freq := rfl
theorem given_freqOf (l : List Byte) (s : State) (x : Symbol) : freqOf (given l s) x = freqOf s x := rfl
theorem given_tv (l : List Byte) (s : State) : (given l s).tv = s.tv := rfl
theorem given_cur (l : List Byte) (s : State) : (given l s).cur = s.cur := rfl
theorem given_root (l : List Byte) (s : State) : (given l s).root = s.root := rfl
theorem given_inp (l : List Byte) (s : State) : (given l s).inp = l := rfl
theorem given_ucnt (l : List Byte) (s : State) : (given l s).ucnt = s.ucnt := rfl
theorem given_bits (l : List Byte) {s : State} (h : s.ucnt = 0#4) : inputBits (given l s) = l.flatMap byteBits := by
  unfold inputBits
  rw [given_ucnt, h]; rfl

theorem moved_inv {s : State} (h : Inv s) {n : NodeIx} (hc : ∃ path, walkDown s.nodes s.root path = some n) :
    Inv { s with cur := n } :=
  ⟨h.counts, h.packer, h.unpacker, h.code, h.fault, fun htv => (h.tree htv).congr rfl rfl rfl rfl rfl rfl hc⟩

theorem listed_inv {s : State} (h : Inv s) (ws : List CommandWord) : Inv (listed ws s) :=
  ⟨h.counts, h.packer, h.unpacker, h.code, h.fault,
    fun htv => (h.tree htv).congr rfl rfl rfl rfl rfl rfl (h.tree htv).cur_ok⟩

theorem reset_inv : Inv State.reset := clearState_inv State.reset
theorem ab_inv : Inv ab := by unfold ab; exact load_inv _
theorem x3_inv : Inv x3 := by unfold x3; exact load_inv _
theorem full_inv : Inv full := by unfold full; exact load_inv _
theorem ab_live : liveCount ab.freq ≠ 0 := by decide +kernel
theorem x3_live : liveCount x3.freq ≠ 0 := by decide +kernel
theorem ab_counts : ab.live = 2#9 ∧ ab.total = 4#72 ∧ freqOf ab 0x61#8 = 3#64 ∧ freqOf ab 0x62#8 = 1#64 ∧
    freqOf ab 0x63#8 = 0#64 := by decide +kernel
theorem ab_regs : ab.fault = false ∧ ab.tv = false ∧ ab.inp = [] ∧ ab.ucnt = 0#4 ∧ ab.free = 8#4 ∧ ab.cmds = [] ∧
    ab.cmdIx = 0 := by decide +kernel
theorem x3_regs : x3.fault = false ∧ x3.live = 1#9 ∧ freqOf x3 0x58#8 = 3#64 ∧ x3.ucnt = 0#4 := by decide +kernel
theorem full_regs : full.fault = false ∧ freqOf full 0xFF#8 = BitVec.allOnes 64 := by decide +kernel

/-- The built state of {a:3, b:1}. -/
@[irreducible] def abT : State := builtState ab
/-- The built state of {X:3}, with the bit `1` to come. -/
@[irreducible] def x3T : State := given [0x80#8] (builtState x3)

theorem abT_inv : Inv abT := by unfold abT; exact ab_inv.built ab_live
theorem x3T_inv : Inv x3T := by unfold x3T; exact given_inv (x3_inv.built x3_live) _
theorem ab_build : exec .build ab = .next abT := by unfold abT; exact exec_build ab_regs.1 ab_inv.counts ab_live

/-- B1: the registers and records the walks below use. -/
theorem abT_regs : abT.fault = false ∧ abT.tv = true ∧ abT.cur = 256#9 ∧ abT.root = 256#9 ∧ abT.nleaf = 2#9 ∧
    leafValid abT 0x61#8 = true ∧ leafValid abT 0x62#8 = true ∧ leafValid abT 0x63#8 = false ∧ abT.inp = [] ∧
    abT.ucnt = 0#4 ∧ freqOf abT 0x61#8 = 3#64 ∧ freqOf abT 0x62#8 = 1#64 := by decide +kernel
theorem abT_nodes : nodeAt abT.nodes 97#9 = some ⟨.leaf, 0x61#8, 3#72, 256#9, 511#9, 511#9⟩ ∧
    nodeAt abT.nodes 256#9 = some ⟨.internal, 0#8, 4#72, 511#9, 97#9, 98#9⟩ := by decide +kernel
theorem x3T_regs : x3T.fault = false ∧ x3T.tv = true ∧ x3T.cur = 256#9 ∧ x3T.nleaf = 1#9 ∧ x3T.ucnt = 0#4 ∧
    x3T.inp = [0x80#8] ∧ nodeAt x3T.nodes 256#9 = some ⟨.internal, 0#8, 3#72, 511#9, 88#9, 511#9⟩ := by decide +kernel

/-- `abT` with the cursor on the leaf of a, as after a `STEP` that took the bit 0. -/
def abLeaf : State := { abT with cur := 97#9 }

theorem abLeaf_inv : Inv abLeaf := by
  refine moved_inv abT_inv ⟨[false], ?_⟩
  rw [abT_regs.2.2.2.1, walkDown, abT_nodes.2]
  rfl

/-! Encoding -/

theorem witness_EncodeOfDecode : decode 0x02610000000000000003#80 = .ok (.fld 0x61#8 3#64) := test_decode_fld

theorem witness_DecodeByMaskAndMatch :
    (∃ (w : CommandWord) (i j : Instr), i ≠ j ∧ w &&& i.format.mask = i.matchWord ∧ w &&& j.format.mask = j.matchWord) ∧
    (∃ w : CommandWord, ∀ i : Instr, w &&& i.format.mask ≠ i.matchWord) := by
  refine ⟨⟨0x03610000000000000000#80, .finc 0x61#8, .finc 0x62#8, by decide, by decide, by decide⟩, 0#80, fun i => ?_⟩
  intro h
  rw [BitVec.zero_and] at h
  have h2 := congrArg opField h
  rw [Instr.matchWord, opField_assemble] at h2
  cases i <;> exact absurd (congrArg BitVec.toNat h2) (by simp [opField, Instr.opcode])

theorem witness_IllegalWordsFault :
    (∃ (w : CommandWord) (i : Instr), opField w = i.opcode ∧
      i.format.zeroFieldsOk (symField w).toNat (immField w).toNat = false) ∧
    (∃ (w : CommandWord) (e : DecodeError) (s : State), decode w = .error e ∧ s.fault = false) :=
  ⟨⟨0x13000000000000000001#80, .flush, by decide, by decide⟩, 0#80, _, State.reset, test_decode_zero_word, rfl⟩

/-! Steps and the fault state -/

theorem witness_StepRunsTheFetchedWord :
    (∃ (s : State) (w : CommandWord) (i : Instr), s.cmds[s.cmdIx]? = some w ∧ decode w = .ok i) ∧
    (∃ (s : State) (w : CommandWord) (e : DecodeError), s.cmds[s.cmdIx]? = some w ∧ decode w = .error e) ∧
    (∃ s : State, s.cmds.length ≤ s.cmdIx) :=
  ⟨⟨listed [0x10000000000000000000#80] State.reset, _, _, rfl, test_decode_build⟩,
    ⟨listed [0#80] State.reset, _, _, rfl, test_decode_zero_word⟩, State.reset, Nat.le_refl 0⟩

theorem witness_PositionAdvancesByOne :
    (∃ (s t : State) (w : CommandWord), s.cmds[s.cmdIx]? = some w ∧ step s = .next t ∧ IndexOk s) ∧
    (∃ s t : State, s.cmds.length ≤ s.cmdIx ∧ step s = .next t ∧ IndexOk s) ∧
    (∃ (i : Instr) (s t : State), exec i s = .next t) := by
  obtain ⟨t, h, -⟩ := after_next test_illegal
  exact ⟨⟨_, t, 0x10010000000000000000#80, rfl, h, Nat.zero_le 1⟩, ⟨State.reset, _, Nat.le_refl 0, rfl, Nat.le_refl 0⟩,
    .build, ab, abT, ab_build⟩

theorem witness_FaultStateRefuses :
    (∃ (w : CommandWord) (s : State), s.fault = true ∧ decode w ≠ .ok .clr) ∧
    (∃ s t : State, s.fault = true ∧ step s = .next t ∧ t.fault = false) :=
  ⟨⟨0#80, enterFault .noTree 0#16 ab, rfl, by decide⟩,
    listed [0x01000000000000000000#80] (enterFault .noTree 0#16 State.reset), _, rfl, rfl, rfl⟩

theorem run_build_empty : after (exec .build State.reset) (fun t => t.fault && t.fcode == 0x02#8) = true := by
  decide +kernel
theorem run_step_no_tree : after (exec .step ab) (fun t => t.fault && t.fcode == 0x03#8) = true := by decide +kernel
theorem run_step_underrun : after (exec .step abT) (fun t => t.fault && t.fcode == 0x06#8) = true := by decide +kernel
theorem run_dec_underrun : after (exec .dec ab) (fun t => t.fault && t.fcode == 0x06#8 && t.tv) = true := by
  decide +kernel
theorem run_step_on_leaf : after (exec .step abLeaf) (fun t => t.fault && t.fcode == 0x08#8) = true := by
  decide +kernel
theorem run_step_null_child : after (exec .step x3T)
    (fun t => t.fault && t.fcode == 0x07#8 && t.ucnt == 7#4 && t.inp == []) = true := by decide +kernel
theorem run_fdec_fault : after (exec (.fdec 0x07#8) State.reset) (fun t => t.fault && t.fcode == 0x04#8) = true := by
  decide +kernel
theorem run_finc_fault : after (exec (.finc 0xFF#8) full) (fun t => t.fault && t.fcode == 0x05#8) = true := by
  decide +kernel
theorem run_dec_null_child : after (exec .dec (given [0x80#8] x3)) (fun t => t.fault && t.fcode == 0x07#8) =
    true := by decide +kernel

/-- A fault with every cause that a command can raise (R191). -/
theorem faults_occur (c : Cause) (hc : c ≠ .illegalCmd) : ∃ (i : Instr) (s t : State), Inv s ∧ s.fault = false ∧
    exec i s = .next t ∧ t.fault = true ∧ t.fcode = causeCode c := by
  have key : ∀ {i : Instr} {s : State} {p : State → Bool}, Inv s → s.fault = false → after (exec i s) p = true →
      (∀ t, p t = true → t.fault = true ∧ t.fcode = causeCode c) → ∃ (i : Instr) (s t : State), Inv s ∧
        s.fault = false ∧
        exec i s = .next t ∧ t.fault = true ∧ t.fcode = causeCode c := by
    intro i s p hi hf h hp
    obtain ⟨t, h1, h2⟩ := after_next h
    exact ⟨i, s, t, hi, hf, h1, hp t h2⟩
  cases c with
  | illegalCmd => exact absurd rfl hc
  | emptyBuild => exact key reset_inv rfl run_build_empty (by simp [causeCode])
  | noTree => exact key ab_inv ab_regs.1 run_step_no_tree (by simp [causeCode])
  | absentSymbol => exact key reset_inv rfl run_fdec_fault (by simp [causeCode])
  | freqOverflow => exact key full_inv full_regs.1 run_finc_fault (by simp [causeCode])
  | inUnderrun => exact key abT_inv abT_regs.1 run_step_underrun (by simp [causeCode])
  | nullChild => exact key x3T_inv x3T_regs.1 run_step_null_child (by simp [causeCode]; tauto)
  | badCursor => exact key abLeaf_inv abT_regs.1 run_step_on_leaf (by simp [causeCode])

theorem witness_FaultsFollowTheTable :
    (∀ c : Cause, c ≠ .illegalCmd → ∃ (i : Instr) (s t : State), Inv s ∧ s.fault = false ∧ exec i s = .next t ∧
      t.fault = true ∧ t.fcode = causeCode c) ∧
    (∃ (i : Instr) (s t : State), Inv s ∧ exec i s = .next t ∧ t.fault = false) ∧
    (∃ (w : CommandWord) (e : DecodeError) (s t : State), decode w = .error e ∧ s.fault = false ∧
      runWord w s = .next t) :=
  ⟨faults_occur, ⟨.build, ab, abT, ab_inv, ab_build, abT_regs.1⟩, 0#80, _, State.reset, _, test_decode_zero_word, rfl,
    rfl⟩

theorem witness_FirstFaultIsRaised :
    (∃ (w : CommandWord) (s : State), s.fault = true ∧ decode w ≠ .ok .clr) ∧
    (∃ (w : CommandWord) (e : DecodeError) (s : State), s.fault = false ∧ decode w = .error e) ∧
    (∃ (i : Instr) (s : State), Inv s ∧ s.fault = false ∧ firstFault i s = none) ∧
    (∃ (i : Instr) (s : State), Inv s ∧ s.fault = false ∧ firstFault i s = some .emptyBuild) ∧
    (∃ (i : Instr) (s : State), Inv s ∧ s.fault = false ∧ firstFault i s = some .badCursor) ∧
    (∃ (i : Instr) (s : State), Inv s ∧ s.fault = false ∧ firstFault i s = some .nullChild) := by
  refine ⟨⟨0#80, enterFault .noTree 0#16 ab, rfl, by decide⟩, ⟨0#80, _, ab, ab_regs.1, test_decode_zero_word⟩,
    ⟨.pack, ab, ab_inv, ab_regs.1, rfl⟩, ⟨.dec, State.reset, reset_inv, rfl, rfl⟩, ⟨.emit, abT, abT_inv, abT_regs.1,
      ?_⟩,
    .step, x3T, x3T_inv, x3T_regs.1, ?_⟩
  · decide +kernel
  · decide +kernel

theorem witness_FaultsBeforeTheFirstWrite :
    (∃ s t : State, Inv s ∧ s.fault = false ∧ exec .step s = .next t ∧ t.fault = true ∧ t.fcode = 0x03#8) ∧
    (∃ s t : State, Inv s ∧ s.fault = false ∧ exec .dec s = .next t ∧ t.fault = true ∧ t.fcode = 0x02#8) := by
  obtain ⟨t, h1, h2⟩ := after_next run_step_no_tree
  simp only [Bool.and_eq_true, beq_iff_eq] at h2
  exact ⟨⟨ab, t, ab_inv, ab_regs.1, h1, h2⟩, State.reset, _, reset_inv, rfl, rfl, rfl, rfl⟩

/-- Both faults of a `DEC` that built. -/
theorem witness_DecFaultLeavesTheWalk :
    (∃ s t : State, Inv s ∧ s.fault = false ∧ s.live ≠ 0#9 ∧ exec .dec s = .next t ∧ t.fault = true ∧
      t.fcode = 0x06#8) ∧
    (∃ s t : State, Inv s ∧ s.fault = false ∧ s.live ≠ 0#9 ∧ exec .dec s = .next t ∧ t.fault = true ∧
      t.fcode = 0x07#8) := by
  obtain ⟨t, h1, h2⟩ := after_next run_dec_underrun
  obtain ⟨u, h3, h4⟩ := after_next run_dec_null_child
  simp only [Bool.and_eq_true, beq_iff_eq] at h2 h4
  exact ⟨⟨ab, t, ab_inv, ab_regs.1, by rw [ab_counts.1]; decide, h1, h2.1⟩,
    given [0x80#8] x3, u, given_inv x3_inv _, by rw [given_fault, x3_regs.1], by
      rw [given_live, x3_regs.2.1]; decide, h3, h4⟩

/-- A `DRUN` that faults in its second turn, with the table already changed and the second tree built. -/
theorem drun_faults : ∃ s t : State, Inv s ∧ s.fault = false ∧ exec .drun s = .next t ∧ t.fault = true ∧ t.tv = true ∧
    t.freq ≠ s.freq := by
  obtain ⟨t, h1, h2⟩ := after_next test_drun_null
  simp only [Bool.and_eq_true, beq_iff_eq] at h2
  refine ⟨given [0xFF#8] ab, t, given_inv ab_inv _, by rw [given_fault, ab_regs.1], h1, h2.1.1.1.1.1.2, h2.1.1.1.2,
    fun h => ?_⟩
  have h3 : freqOf t 0x62#8 = freqOf ab 0x62#8 := by
    rw [← given_freqOf [0xFF#8] ab]; simp only [freqOf, h]
  rw [h2.2, ab_counts.2.2.2.1] at h3
  exact absurd h3 (by decide)

theorem witness_DrunFaultIsThatOfATurn : ∃ s t : State, Inv s ∧ s.fault = false ∧ exec .drun s = .next t ∧
    t.fault = true :=
  let ⟨s, t, h1, h2, h3, h4, _⟩ := drun_faults
  ⟨s, t, h1, h2, h3, h4⟩

/-! STATUS, the tree-valid bit, the invariants -/

theorem witness_StatusFields : (∃ s : State, Inv s ∧ s.tv = true) ∧ (∃ s t : State, s.fault = true ∧
    step s = .next t) :=
  ⟨⟨abT, abT_inv, abT_regs.2.1⟩, enterFault .noTree 0#16 State.reset, _, rfl, rfl⟩

theorem witness_TreeValidOnlyByBuild :
    (∃ (i : Instr) (s t : State), Inv s ∧ exec i s = .next t ∧ s.tv = false ∧ t.tv = true ∧ t.fault = false) ∧
    (∃ (i : Instr) (s t : State), Inv s ∧ exec i s = .next t ∧ s.tv = false ∧ t.tv = true ∧ t.fault = true) ∧
    (∃ (i : Instr) (s t : State), Inv s ∧ exec i s = .next t ∧ t.freq ≠ s.freq ∧ t.tv = true) ∧
    (∃ (s t : State) (x : Symbol) (v : Count), Inv s ∧ exec (.fld x v) s = .next t ∧ s.fault = false ∧
      t.fault = false) ∧
    (∃ s t : State, Inv s ∧ exec .build s = .next t ∧ s.fault = false ∧ t.fault = false) := by
  obtain ⟨t, h1, h2⟩ := after_next run_dec_underrun
  simp only [Bool.and_eq_true, beq_iff_eq] at h2
  obtain ⟨s', t', g1, -, g3, -, g5, g6⟩ := drun_faults
  exact ⟨⟨.build, ab, abT, ab_inv, ab_build, ab_regs.2.1, abT_regs.2.1, abT_regs.1⟩,
    ⟨.dec, ab, t, ab_inv, h1, ab_regs.2.1, h2.2, h2.1.1⟩, ⟨.drun, s', t', g1, g3, g6, g5⟩,
    ⟨abT, _, 0x61#8, 3#64, abT_inv, command_ok abT_regs.1, abT_regs.1, abT_regs.1⟩,
    ab, abT, ab_inv, ab_build, ab_regs.1, abT_regs.1⟩

theorem run_step_build : after (step (listed [0x10000000000000000000#80] ab)) (fun t => t.tv && t.cmdIx == 1) =
    true := by decide +kernel

theorem witness_StepKeepsTheInvariant : ∃ s t : State, Inv s ∧ step s = .next t ∧ t.tv = true := by
  obtain ⟨t, h1, h2⟩ := after_next run_step_build
  simp only [Bool.and_eq_true] at h2
  exact ⟨_, t, listed_inv ab_inv _, h1, h2.1⟩

theorem ab_more : ab.cur = 511#9 := by decide +kernel
theorem abT_more : abT.clen = 0#8 ∧ abT.sym = 0#8 ∧ abT.sout = [] := by decide +kernel
theorem load_res (es : List (Symbol × Count)) : (load es).res = 0#64 := by
  suffices h : ∀ (es : List (Symbol × Count)) (s : State), (es.foldl (fun s e => setF s e.1 e.2) s).res = s.res by
    unfold load; exact h es State.reset
  intro es
  induction es with
  | nil => exact fun _ => rfl
  | cons e es ih => exact fun s => ih _

/-- Entry 0xFF one below its greatest value. -/
@[irreducible] def nearFull : State := load [(0xFF#8, 18446744073709551614#64)]
theorem nearFull_inv : Inv nearFull := by unfold nearFull; exact load_inv _
theorem nearFull_regs : nearFull.fault = false ∧ freqOf nearFull 0xFF#8 = 18446744073709551614#64 := by decide +kernel

theorem run_xcode_a : after (exec (.xcode 0x61#8) abT)
    (fun t => t.clen == 1#8 && t.code == 0#255 && !t.fault) = true := by
  decide +kernel
theorem run_xcode_ab : after (exec (.xcode 0x62#8) abT)
    (fun t => t.clen == 1#8 && t.code == 1#255 && !t.fault) = true := by
  decide +kernel
theorem run_emit_ab : after (exec .emit abLeaf)
    (fun t => t.sym == 0x61#8 && freqOf t 0x61#8 == 2#64 && t.sout == [0x61#8] && !t.fault) = true := by decide +kernel
theorem run_drun_ab : after (exec .drun (given [0x00#8] ab)) (fun t => !t.fault && t.total == 0#72) = true := by
  decide +kernel
theorem run_enc_code : after (exec (.enc 0x61#8) ab) (fun t => codeBits t == [false]) = true := by decide +kernel

theorem witness_StepKeepsTheCounters : ∃ s t : State, CountsOk s ∧ step s = .next t ∧ t.tv = true := by
  obtain ⟨s, t, h1, h2, h3⟩ := witness_StepKeepsTheInvariant
  exact ⟨s, t, h1.counts, h2, h3⟩

theorem witness_NoCommandIsStuck : ∃ s : State, Inv s ∧ s.tv = true := ⟨abT, abT_inv, abT_regs.2.1⟩

theorem witness_StreamsAreAppendOnly :
    (∃ s t : State, step s = .next t) ∧ (∃ (i : Instr) (s t : State), exec i s = .next t ∧ t.inp ≠ s.inp) := by
  obtain ⟨t, h1, h2⟩ := after_next test_drun
  simp only [Bool.and_eq_true, beq_iff_eq] at h2
  exact ⟨⟨State.reset, _, rfl⟩, .drun, _, t, h1, by rw [h2.1.1.2]; decide⟩

/-- A build over an older one: the records and `NLEAF` change. -/
theorem run_rebuild : after (exec .build (setF abT 0x62#8 0#64))
    (fun t => t.nleaf == 1#9 && t.cur == 256#9 && nodeAt t.nodes 256#9 == some ⟨.internal, 0#8, 3#72, 511#9, 97#9,
      511#9⟩) =
      true := by decide +kernel

/-- Commands that change the table; a fault register; the arena, `ROOT`, `NLEAF`; the cursor; `CODE`; `SYM`; `RES`; the
packer; the unpacker; `OUT`; `SOUT`: one of each. -/
theorem witness_OnlyTheListedCommandsWrite :
    (∃ (i : Instr) (s t : State), exec i s = .next t ∧ t.freq ≠ s.freq) ∧
    (∃ (i : Instr) (s t : State), exec i s = .next t ∧ t.fault ≠ s.fault) ∧
    (∃ (i : Instr) (s t : State), exec i s = .next t ∧ t.nodes ≠ s.nodes) ∧
    (∃ (i : Instr) (s t : State), exec i s = .next t ∧ t.nleaf ≠ s.nleaf) ∧
    (∃ (i : Instr) (s t : State), exec i s = .next t ∧ t.cur ≠ s.cur) ∧
    (∃ (i : Instr) (s t : State), exec i s = .next t ∧ t.clen ≠ s.clen) ∧
    (∃ (i : Instr) (s t : State), exec i s = .next t ∧ t.sym ≠ s.sym) ∧
    (∃ (i : Instr) (s t : State), exec i s = .next t ∧ t.res ≠ s.res) ∧
    (∃ (i : Instr) (s t : State), exec i s = .next t ∧ t.free ≠ s.free) ∧
    (∃ (i : Instr) (s t : State), exec i s = .next t ∧ t.ucnt ≠ s.ucnt) ∧
    (∃ (i : Instr) (s t : State), exec i s = .next t ∧ t.out ≠ s.out) ∧
    (∃ (i : Instr) (s t : State), exec i s = .next t ∧ t.sout ≠ s.sout) := by
  obtain ⟨a, a1, a2⟩ := after_next test_fdec_absent
  obtain ⟨b, b1, b2⟩ := after_next run_rebuild
  obtain ⟨c, c1, c2⟩ := after_next test_flush
  obtain ⟨d, d1, d2⟩ := after_next run_step_null_child
  obtain ⟨e, e1, e2⟩ := after_next run_xcode_ab
  obtain ⟨f, f1, f2⟩ := after_next run_emit_ab
  obtain ⟨g, g1, g2⟩ := after_next test_frd
  simp only [Bool.and_eq_true, beq_iff_eq] at a2 b2 c2 d2 e2 f2 g2
  have hb : (setF abT 0x62#8 0#64).nodes = abT.nodes := rfl
  refine ⟨⟨.emit, _, f, f1, fun h => ?_⟩, ⟨.step, _, d, d1, ?_⟩, ⟨.build, _, b, b1, fun h => ?_⟩, ⟨.build, _, b, b1,
    ?_⟩,
    ⟨.build, ab, abT, ab_build, ?_⟩, ⟨.xcode 0x62#8, abT, e, e1, ?_⟩, ⟨.emit, _, f, f1, ?_⟩, ⟨.frd 0x61#8, _, g, g1,
      ?_⟩,
    ⟨.flush, _, c, c1, ?_⟩, ⟨.step, _, d, d1, ?_⟩, ⟨.flush, _, c, c1, ?_⟩, .emit, _, f, f1, ?_⟩
  · have h3 : freqOf f 0x61#8 = freqOf abT 0x61#8 := by simp only [freqOf, h, abLeaf]
    rw [f2.1.1.2, abT_regs.2.2.2.2.2.2.2.2.2.2.1] at h3
    exact absurd h3 (by decide)
  · rw [d2.1.1.1, x3T_regs.1]; decide
  · have := b2.2
    rw [h, hb, abT_nodes.2] at this
    exact absurd this (by decide)
  · rw [b2.1.1, show (setF abT 0x62#8 0#64).nleaf = abT.nleaf from rfl, abT_regs.2.2.2.2.1]; decide
  · rw [abT_regs.2.2.1, ab_more]; decide
  · rw [e2.1.1, abT_more.1]; decide
  · rw [f2.1.1.1, show abLeaf.sym = abT.sym from rfl, abT_more.2.1]; decide
  · rw [g2.1.1, show State.res _ = (load [(0x61#8, 3#64)]).res from rfl, load_res]; decide
  · rw [c2.1.1.2]; decide
  · rw [d2.1.2, x3T_regs.2.2.2.2.1]; decide
  · rw [c2.1.2]; decide
  · rw [f2.1.2, show abLeaf.sout = abT.sout from rfl, abT_more.2.2]; decide

/-- A tree of two leaves and a tree of one. -/
theorem witness_TreeInvariants : (∃ s : State, Inv s ∧ s.tv = true ∧ 2 ≤ s.nleaf.toNat) ∧
    (∃ s : State, Inv s ∧ s.tv = true ∧ s.nleaf = 1#9) :=
  ⟨⟨abT, abT_inv, abT_regs.2.1, by rw [abT_regs.2.2.2.2.1]; decide⟩, x3T, x3T_inv, x3T_regs.2.1, x3T_regs.2.2.2.1⟩

/-! The frequency table -/

theorem witness_FldLoadsTheEntry : ∃ s : State, s.fault = false ∧ CountsOk s ∧ s.tv = true :=
  ⟨abT, abT_regs.1, abT_inv.counts, abT_regs.2.1⟩

theorem witness_FincCountsOneUp :
    (∃ (s : State) (x : Symbol), s.fault = false ∧ CountsOk s ∧ (freqOf s x).toNat = 2 ^ 64 - 1) ∧
    (∃ (s : State) (x : Symbol), s.fault = false ∧ CountsOk s ∧ (freqOf s x).toNat = 2 ^ 64 - 2) :=
  ⟨⟨full, 0xFF#8, full_regs.1, full_inv.counts, by rw [full_regs.2]; decide⟩,
    nearFull, 0xFF#8, nearFull_regs.1, nearFull_inv.counts, by rw [nearFull_regs.2]; decide⟩

theorem witness_FdecCountsOneDown :
    (∃ (s : State) (x : Symbol), s.fault = false ∧ CountsOk s ∧ freqOf s x = 0#64) ∧
    (∃ (s : State) (x : Symbol), s.fault = false ∧ CountsOk s ∧ freqOf s x = 1#64) :=
  ⟨⟨ab, 0x63#8, ab_regs.1, ab_inv.counts, ab_counts.2.2.2.2⟩, ab, 0x62#8, ab_regs.1, ab_inv.counts, ab_counts.2.2.2.1⟩

theorem witness_FrdReadsTheEntry : ∃ s : State, s.fault = false ∧ s.tv = true := ⟨abT, abT_regs.1, abT_regs.2.1⟩

theorem witness_PreScanCountsTheInput : ∃ (bytes : List Byte) (s : State), bytes ≠ [] ∧
    (∀ b, bytes.count b < 2 ^ 64) ∧ s.fault = false ∧ CountsOk s ∧ ∀ x, freqOf s x = 0#64 :=
  ⟨[0x61#8, 0x61#8, 0x62#8], State.reset, by decide, fun b => lt_of_le_of_lt List.count_le_length (by decide), rfl,
    reset_inv.counts, fun x => by simp [freqOf, State.reset]⟩

/-! The tree builder -/

theorem witness_BuildMakesTheTree : ∃ s : State, s.fault = false ∧ CountsOk s ∧ s.live ≠ 0#9 :=
  ⟨ab, ab_regs.1, ab_inv.counts, by rw [ab_counts.1]; decide⟩

theorem witness_BuildOfTheEmptyTable : ∃ s : State, Inv s ∧ s.fault = false ∧ s.live = 0#9 :=
  ⟨State.reset, reset_inv, rfl, rfl⟩

/-- Tables with one live symbol and with two. -/
theorem witness_BuildWritesOnlyItsSlots : (∃ s : State, s.fault = false ∧ CountsOk s ∧ s.live = 1#9) ∧
    (∃ s : State, s.fault = false ∧ CountsOk s ∧ s.live = 2#9) :=
  ⟨⟨x3, x3_regs.1, x3_inv.counts, x3_regs.2.1⟩, ab, ab_regs.1, ab_inv.counts, ab_counts.1⟩

theorem witness_BuildDependsOnTheTableAlone : ∃ s s' : State, s ≠ s' ∧ s.fault = false ∧ s'.fault = false ∧ CountsOk s ∧
    CountsOk s' ∧ s.live ≠ 0#9 ∧ s.freq = s'.freq :=
  ⟨ab, given [0xC0#8] ab, fun h => absurd (congrArg State.inp h) (by
      rw [ab_regs.2.2.1, given_inp]; decide),
    ab_regs.1, by rw [given_fault, ab_regs.1], ab_inv.counts, (given_inv ab_inv _).counts, by rw [ab_counts.1]; decide,
    (given_freq _ _).symm⟩

theorem witness_RebuildResetsTheCursor : ∃ s : State, Inv s ∧ s.fault = false ∧ s.tv = true ∧ s.cur ≠ s.root :=
  ⟨abLeaf, abLeaf_inv, abT_regs.1, abT_regs.2.1, by
    rw [show abLeaf.cur = 97#9 from rfl, show abLeaf.root = abT.root from rfl, abT_regs.2.2.2.1]; decide⟩

/-- The empty sequence, and the two leaves of {a:3, b:1} in their order. -/
theorem witness_InsertGoesBehindEquals (nodes : Vector Node 511) :
    ([] : List NodeIx).Pairwise (fun a b => (nodeFreq nodes b).toNat ≤ (nodeFreq nodes a).toNat) ∧
    [97#9, 98#9].Pairwise (fun a b => (nodeFreq abT.nodes b).toNat ≤ (nodeFreq abT.nodes a).toNat) :=
  ⟨.nil, by simp only [List.pairwise_cons, List.mem_singleton, forall_eq, List.not_mem_nil, false_implies, implies_true,
    List.Pairwise.nil, and_true]; decide +kernel⟩

theorem witness_OneLeafTree : ∃ (s : State) (x : Symbol), s.fault = false ∧ CountsOk s ∧ s.live = 1#9 ∧
    freqOf s x ≠ 0#64 :=
  ⟨x3, 0x58#8, x3_regs.1, x3_inv.counts, x3_regs.2.1, by rw [x3_regs.2.2.1]; decide⟩

theorem witness_MergeTakesTheLastTwo (b : Builder) :
    (∃ (b' : Builder) (n : NodeIx), b'.q = [n]) ∧
    (∃ (b' : Builder) (front : List NodeIx) (a z : NodeIx), b'.q = front ++ [a, z] ∧ a ≠ Config.null ∧ z ≠ Config.null ∧
      a ≠ nextSlot b' ∧ z ≠ nextSlot b' ∧ nextSlot b' ≠ Config.null ∧ a ≠ z) :=
  ⟨⟨{ b with q := [97#9] }, 97#9, rfl⟩, { b with q := [97#9, 98#9], nint := 0#9 }, [], 97#9, 98#9, rfl, by decide,
    by decide, (by decide : (97#9 : NodeIx) ≠ 256#9 + 0#9), (by decide : (98#9 : NodeIx) ≠ 256#9 + 0#9),
    (by decide : (256#9 + 0#9 : NodeIx) ≠ 511#9), by decide⟩

/-! The code extractor and the packer -/

theorem witness_XcodeExtractsTheCode :
    (∃ s : State, Inv s ∧ s.fault = false ∧ s.tv = false) ∧
    (∃ (s : State) (x : Symbol), Inv s ∧ s.fault = false ∧ s.tv = true ∧ leafValid s x = false) ∧
    (∃ (s : State) (x : Symbol), Inv s ∧ s.fault = false ∧ s.tv = true ∧ leafValid s x = true) :=
  ⟨⟨ab, ab_inv, ab_regs.1, ab_regs.2.1⟩,
    ⟨abT, 0x63#8, abT_inv, abT_regs.1, abT_regs.2.1, abT_regs.2.2.2.2.2.2.2.1⟩,
    abT, 0x61#8, abT_inv, abT_regs.1, abT_regs.2.1, abT_regs.2.2.2.2.2.1⟩

theorem witness_CodesArePrefixFree : ∃ (s t u : State) (x y : Symbol), Inv s ∧ s.fault = false ∧ s.tv = true ∧
    freqOf s x ≠ 0#64 ∧ freqOf s y ≠ 0#64 ∧ x ≠ y ∧ exec (.xcode x) s = .next t ∧ exec (.xcode y) s = .next u := by
  obtain ⟨t, h1, -⟩ := after_next run_xcode_a
  obtain ⟨u, h2, -⟩ := after_next run_xcode_ab
  obtain ⟨-, -, -, -, -, -, -, -, -, -, h3, h4⟩ := abT_regs
  exact ⟨abT, t, u, 0x61#8, 0x62#8, abT_inv, abT_regs.1, abT_regs.2.1, by rw [h3]; decide, by rw [h4]; decide,
    by decide,
    h1, h2⟩

theorem witness_XcodeRepeats :
    (∃ (s t u : State) (x y : Symbol), s.fault = false ∧ exec (.xcode y) s = .next t ∧ t.fault = false ∧
      exec (.xcode x) s = .next u ∧ u.fault = false) ∧
    (∃ (i : Instr) (s t : State), Inv s ∧ s.fault = false ∧ exec i s = .next t ∧ t.fault = false ∧ t.freq ≠ s.freq) ∧
    (∃ (s t : State) (y : Symbol) (v : Count), Inv s ∧ s.fault = false ∧ exec (.fld y v) s = .next t ∧
      t.fault = false) := by
  obtain ⟨t, h1, h2⟩ := after_next run_xcode_a
  obtain ⟨u, h3, h4⟩ := after_next run_xcode_ab
  obtain ⟨f, f1, f2⟩ := after_next run_emit_ab
  simp only [Bool.and_eq_true, beq_iff_eq, Bool.not_eq_true'] at h2 h4 f2
  refine ⟨⟨abT, t, u, 0x62#8, 0x61#8, abT_regs.1, h1, h2.2, h3, h4.2⟩,
    ⟨.emit, abLeaf, f, abLeaf_inv, abT_regs.1, f1, f2.2, fun h => ?_⟩,
    abT, _, 0x61#8, 3#64, abT_inv, abT_regs.1, command_ok abT_regs.1, abT_regs.1⟩
  have h3 : freqOf f 0x61#8 = freqOf abT 0x61#8 := by simp only [freqOf, h, abLeaf]
  rw [f2.1.1.2, abT_regs.2.2.2.2.2.2.2.2.2.2.1] at h3
  exact absurd h3 (by decide)

/-- An empty packer, a full byte, a code, no code. -/
theorem witness_PackAppendsTheCode : (∃ s : State, PackerOk s ∧ s.fault = false ∧ s.clen = 0#8) ∧
    (∃ s : State, PackerOk s ∧ s.fault = false ∧ s.clen = 255#8 ∧ s.free = 0#4) :=
  ⟨⟨State.reset, by decide, rfl, rfl⟩, { State.reset with clen := 255#8, free := 0#4, pbuf := 0xA9#8 }, by decide,
    rfl, rfl,
    rfl⟩

theorem witness_PackPushesTheFilledBytes :
    (∃ s : State, PackerOk s ∧ s.fault = false ∧ s.clen ≠ 0#8 ∧ s.clen.toNat = s.free.toNat) ∧
    (∃ s : State, PackerOk s ∧ s.fault = false ∧ s.clen = 255#8) :=
  ⟨⟨{ State.reset with clen := 2#8, free := 2#4, pbuf := 0xA8#8 }, by decide, rfl, by decide, rfl⟩,
    { State.reset with clen := 255#8 }, by decide, rfl, rfl⟩

theorem witness_FlushPushesThePartialByte : (∃ s : State, PackerOk s ∧ s.fault = false ∧ s.free.toNat < 8) ∧
    (∃ s : State, PackerOk s ∧ s.fault = false ∧ s.free.toNat = 8) :=
  ⟨⟨{ State.reset with free := 7#4, pbuf := 0x80#8 }, by decide, rfl, by decide⟩, State.reset, by decide, rfl, rfl⟩

/-! The unpacker and the walk -/

/-- A bit from a fresh byte (here the bit selects `NULL`), a bit left in `UBUF`; no tree; a leaf; no bit. -/
theorem witness_StepFollowsOneBit :
    (∃ (s : State) (nd : Node) (bit : Bool) (rest : List Bool), UnpackerOk s ∧ s.fault = false ∧ s.tv = true ∧
      nodeAt s.nodes s.cur = some nd ∧ nd.tag = .internal ∧ inputBits s = bit :: rest ∧ s.ucnt = 0#4 ∧
      (if bit then nd.right else nd.left) = Config.null) ∧
    (∃ (s : State) (nd : Node) (bit : Bool) (rest : List Bool), UnpackerOk s ∧ s.fault = false ∧ s.tv = true ∧
      nodeAt s.nodes s.cur = some nd ∧ nd.tag = .internal ∧ inputBits s = bit :: rest ∧ s.ucnt ≠ 0#4 ∧
      (if bit then nd.right else nd.left) ≠ Config.null) ∧
    (∃ s : State, s.fault = false ∧ s.tv = false) ∧
    (∃ (s : State) (nd : Node), s.fault = false ∧ s.tv = true ∧ nodeAt s.nodes s.cur = some nd ∧ nd.tag = .leaf) ∧
    (∃ (s : State) (nd : Node), Inv s ∧ s.fault = false ∧ s.tv = true ∧ nodeAt s.nodes s.cur = some nd ∧
      nd.tag = .internal ∧ s.ucnt = 0#4 ∧ s.inp = []) := by
  obtain ⟨x1, x2, x3', -, x5, x6, x7⟩ := x3T_regs
  obtain ⟨a1, a2, a3, -, -, -, -, -, a9, a10, -, -⟩ := abT_regs
  refine ⟨⟨x3T, _, true, List.replicate 7 false, x3T_inv.unpacker, x1, x2, x3' ▸ x7, rfl, ?_, x5, rfl⟩,
    ⟨{ abT with ubuf := 0x80#8, ucnt := 1#4 }, ⟨.internal, 0#8, 4#72, 511#9, 97#9, 98#9⟩, true, [],
      (by decide : (1#4).toNat ≤ 8), a1, a2, ?_, rfl, ?_,
      (by decide : 1#4 ≠ 0#4), (by decide : (98#9 : NodeIx) ≠ 511#9)⟩,
    ⟨ab, ab_regs.1, ab_regs.2.1⟩, ⟨abLeaf, _, a1, a2, abT_nodes.1, rfl⟩,
    abT, _, abT_inv, a1, a2, by rw [a3]; exact abT_nodes.2, rfl, a10, a9⟩
  · unfold inputBits
    rw [x5, x6]; decide
  · show nodeAt abT.nodes abT.cur = _
    rw [a3]; exact abT_nodes.2
  · show List.take 1 (byteBits 0x80#8) ++ abT.inp.flatMap byteBits = _
    rw [a9]; decide

theorem witness_EmitCountsTheSymbolOff :
    (∃ s : State, Inv s ∧ s.fault = false ∧ s.tv = false) ∧
    (∃ (s : State) (nd : Node), Inv s ∧ s.fault = false ∧ s.tv = true ∧ nodeAt s.nodes s.cur = some nd ∧
      nd.tag = .internal) ∧
    (∃ (s : State) (nd : Node), Inv s ∧ s.fault = false ∧ s.tv = true ∧ nodeAt s.nodes s.cur = some nd ∧
      nd.tag = .leaf) :=
  ⟨⟨ab, ab_inv, ab_regs.1, ab_regs.2.1⟩,
    ⟨abT, _, abT_inv, abT_regs.1, abT_regs.2.1, by rw [abT_regs.2.2.1]; exact abT_nodes.2, rfl⟩,
    abLeaf, _, abLeaf_inv, abT_regs.1, abT_regs.2.1, abT_nodes.1, rfl⟩

theorem ab_code : IsCode ab.freq 0x61#8 [false] := by
  have h : ((treeOf ab.freq).bind fun t => treeCode t 0x61#8) = some [false] := by decide +kernel
  obtain ⟨t, h1, h2⟩ := Option.bind_eq_some_iff.mp h
  exact ⟨t, h1, h2⟩

theorem witness_WalkFollowsTheCode : ∃ (s : State) (x : Symbol) (c rest : List Bool), Inv s ∧ s.fault = false ∧
    s.tv = true ∧ s.cur = s.root ∧ freqOf s x ≠ 0#64 ∧ IsCode s.freq x c ∧ inputBits s = c ++ rest := by
  obtain ⟨a1, a2, a3, a4, -, -, -, -, a9, a10, a11, -⟩ := abT_regs
  refine ⟨given [0x00#8] abT, 0x61#8, [false], List.replicate 7 false, given_inv abT_inv _, ?_, ?_, ?_, ?_, ?_, ?_⟩
  · rw [given_fault, a1]
  · rw [given_tv, a2]
  · rw [given_cur, given_root, a3, a4]
  · rw [given_freqOf, a11]; decide
  · have : abT.freq = ab.freq := by unfold abT; rfl
    rw [given_freq, this]; exact ab_code
  · rw [given_bits _ a10]; decide

/-! The driver -/

theorem witness_EncCodesTheSymbol :
    (∃ s : State, Inv s ∧ s.fault = false ∧ s.live = 0#9) ∧
    (∃ (s : State) (x : Symbol), Inv s ∧ s.fault = false ∧ s.live ≠ 0#9 ∧ freqOf s x = 0#64) ∧
    (∃ (s : State) (x : Symbol), Inv s ∧ s.fault = false ∧ freqOf s x ≠ 0#64) :=
  ⟨⟨State.reset, reset_inv, rfl, rfl⟩,
    ⟨ab, 0x63#8, ab_inv, ab_regs.1, by rw [ab_counts.1]; decide, ab_counts.2.2.2.2⟩,
    ab, 0x62#8, ab_inv, ab_regs.1, by rw [ab_counts.2.2.2.1]; decide⟩

/-- {a:3, b:1} with the byte 0x00 to come leads to a. -/
theorem ab_decode : ∃ (h : HTree) (rest : List Bool), treeOf ab.freq = some h ∧
    treeDecode h (inputBits (given [0x00#8] ab)) = some (0x61#8, rest) := by
  have h : ((treeOf ab.freq).bind fun t => treeDecode t (inputBits (given [0x00#8] ab))) =
      some (0x61#8, List.replicate 7 false) := by decide +kernel
  obtain ⟨t, h1, h2⟩ := Option.bind_eq_some_iff.mp h
  exact ⟨t, _, h1, h2⟩

theorem witness_DecEmitsTheSymbol :
    (∃ s : State, Inv s ∧ s.fault = false ∧ s.live = 0#9) ∧
    (∃ (s : State) (h : HTree) (x : Symbol) (rest : List Bool), Inv s ∧ s.fault = false ∧ treeOf s.freq = some h ∧
      treeDecode h (inputBits s) = some (x, rest)) :=
  let ⟨h, rest, h1, h2⟩ := ab_decode
  ⟨⟨State.reset, reset_inv, rfl, rfl⟩, given [0x00#8] ab, h, 0x61#8, rest, given_inv ab_inv _,
    by rw [given_fault, ab_regs.1], by rw [given_freq, h1], h2⟩

theorem witness_DecCompletesOnEnoughBits : ∃ s : State, Inv s ∧ s.fault = false ∧ 2 ≤ s.live.toNat ∧
    s.live.toNat ≤ bitsLeft s + 1 := by
  refine ⟨given [0x00#8] ab, given_inv ab_inv _, by rw [given_fault, ab_regs.1], ?_, ?_⟩
  · rw [given_live, ab_counts.1]; decide
  · rw [bitsLeft, given_live, given_ucnt, given_inp, ab_counts.1, ab_regs.2.2.2.1]; decide

theorem witness_OneSymbolIsOneZeroBit (bit : Bool) : ∃ (s : State) (x : Symbol) (rest : List Bool), Inv s ∧
    s.fault = false ∧ s.live = 1#9 ∧ freqOf s x ≠ 0#64 ∧ inputBits s = bit :: rest := by
  refine ⟨given [if bit then 0x80#8 else 0x00#8] x3, 0x58#8, List.replicate 7 false, given_inv x3_inv _,
    by rw [given_fault, x3_regs.1], by rw [given_live, x3_regs.2.1], ?_, ?_⟩
  · rw [given_freqOf, x3_regs.2.2.1]; decide
  · rw [given_bits _ x3_regs.2.2.2]
    cases bit <;> decide

/-- An empty table; a whole stream; a stream that ends too soon. -/
theorem witness_DrunDecodesToTheEnd :
    (∃ s : State, Inv s ∧ s.fault = false ∧ s.total = 0#72) ∧
    (∃ (s : State) (xs : List Symbol) (rest : List Bool), Inv s ∧ s.fault = false ∧ s.total ≠ 0#72 ∧
      decodeSymbols s.total.toNat s.freq (inputBits s) = some (xs, rest)) ∧
    (∃ s : State, Inv s ∧ s.fault = false ∧ decodeSymbols s.total.toNat s.freq (inputBits s) = none) := by
  have h1 : decodeSymbols (given [0x00#8] ab).total.toNat (given [0x00#8] ab).freq (inputBits (given [0x00#8] ab)) =
      some ([0x61#8, 0x61#8, 0x61#8, 0x62#8], List.replicate 4 false) := by decide +kernel
  have h2 : decodeSymbols ab.total.toNat ab.freq (inputBits ab) = none := by decide +kernel
  refine ⟨⟨State.reset, reset_inv, rfl, rfl⟩, ⟨given [0x00#8] ab, _, _, given_inv ab_inv _,
    by rw [given_fault, ab_regs.1], ?_, h1⟩, ab, ab_inv, ab_regs.1, h2⟩
  rw [given_total, ab_counts.2.1]; decide

theorem witness_EncIsFourCommands : ∃ (s : State) (x : Symbol), Inv s ∧ s.fault = false ∧ freqOf s x ≠ 0#64 :=
  witness_EncCodesTheSymbol.2.2

theorem run_dec_ab : after (exec .dec (given [0x00#8] ab)) (fun t => !t.fault && t.sym == 0x61#8) = true := by
  decide +kernel
theorem run_enc_ab : after (exec (.enc 0x61#8) ab) (fun t => !t.fault && t.clen == 1#8) = true := by decide +kernel

theorem witness_DecAndDrunAreTheirCommands :
    (∃ s t : State, Inv s ∧ s.fault = false ∧ exec .dec s = .next t ∧ t.fault = false) ∧
    (∃ s t : State, Inv s ∧ s.fault = false ∧ exec .drun s = .next t ∧ t.fault = false ∧ t.total ≠ s.total) := by
  obtain ⟨t, h1, h2⟩ := after_next run_dec_ab
  obtain ⟨u, h3, h4⟩ := after_next run_drun_ab
  simp only [Bool.and_eq_true, beq_iff_eq, Bool.not_eq_true'] at h2 h4
  have hf : (given [0x00#8] ab).fault = false := by rw [given_fault, ab_regs.1]
  exact ⟨⟨given [0x00#8] ab, t, given_inv ab_inv _, hf, h1, h2.1⟩, given [0x00#8] ab, u, given_inv ab_inv _, hf, h3,
    h4.1,
    by rw [h4.2, given_total, ab_counts.2.1]; decide⟩

theorem witness_TotalShrinksByOne :
    (∃ (s t : State) (x : Symbol), Inv s ∧ s.fault = false ∧ exec (.enc x) s = .next t ∧ t.fault = false) ∧
    (∃ s t : State, Inv s ∧ s.fault = false ∧ exec .dec s = .next t ∧ t.fault = false) ∧
    (∃ s t : State, Inv s ∧ s.fault = false ∧ exec .drun s = .next t ∧ t.fault = false) ∧
    (∃ s t : State, Inv s ∧ s.fault = false ∧ exec .drun s = .next t ∧ t.fault = true) := by
  obtain ⟨t, h1, h2⟩ := after_next run_enc_ab
  obtain ⟨⟨s', t', g⟩, ⟨s'', t'', k1, k2, k3, k4, -⟩⟩ := witness_DecAndDrunAreTheirCommands
  simp only [Bool.and_eq_true, beq_iff_eq, Bool.not_eq_true'] at h2
  exact ⟨⟨ab, t, 0x61#8, ab_inv, ab_regs.1, h1, h2.1⟩, ⟨s', t', g⟩, ⟨s'', t'', k1, k2, k3, k4⟩,
    witness_DrunFaultIsThatOfATurn⟩

/-- An encoder and a decoder with the table {a:3, b:1}; the decoder holds the code of a, the bit 0, and more. -/
theorem witness_BothSidesStayEqual : ∃ (e d e' : State) (x : Symbol) (rest : List Bool), Inv e ∧ Inv d ∧
    e.fault = false ∧ d.fault = false ∧ e.freq = d.freq ∧ freqOf e x ≠ 0#64 ∧ exec (.enc x) e = .next e' ∧
    inputBits d = codeBits e' ++ rest := by
  obtain ⟨t, h1, h2⟩ := after_next run_enc_code
  simp only [beq_iff_eq] at h2
  refine ⟨ab, given [0x00#8] ab, t, 0x61#8, List.replicate 7 false, ab_inv, given_inv ab_inv _, ab_regs.1,
    by rw [given_fault, ab_regs.1], (given_freq _ _).symm, by rw [ab_counts.2.2.1]; decide, h1, ?_⟩
  rw [h2, given_bits _ ab_regs.2.2.2.1]; decide

theorem witness_EncodeLoopPacksTheCodes : ∃ (s : State) (xs : List Symbol), xs ≠ [] ∧ Inv s ∧ s.fault = false ∧
    s.free = 8#4 ∧ ∀ x, xs.count x ≤ (freqOf s x).toNat := by
  refine ⟨ab, [0x61#8, 0x61#8, 0x62#8], by decide, ab_inv, ab_regs.1, ab_regs.2.2.2.2.1, fun x => ?_⟩
  by_cases ha : x = 0x61#8
  · rw [ha, ab_counts.2.2.1]; decide
  · by_cases hb : x = 0x62#8
    · rw [hb, ab_counts.2.2.2.1]; decide
    · rw [List.count_eq_zero.mpr (by simp [ha, hb])]; exact Nat.zero_le _

theorem witness_RoundTrip : ∃ bytes : List Byte, bytes ≠ [] ∧ ∀ b, bytes.count b < 2 ^ 64 :=
  ⟨[0x61#8, 0x61#8, 0x61#8, 0x62#8], by decide, fun _ => lt_of_le_of_lt List.count_le_length (by decide)⟩

theorem replicate_lt {v : Count} {n : Nat} (h : v.toNat < n) : ∀ u ∈ (Vector.replicate 256 v).toList, u.toNat < n := by
  intro u hu
  rw [Vector.toList_replicate] at hu
  rw [List.eq_of_mem_replicate hu]; exact h
/-- Tables whose greatest count is the greatest that fits one byte, and the greatest there is. -/
theorem witness_HeaderWidthIsTheSmallest :
    (∃ table : Vector Count 256, ∀ v ∈ table.toList, v.toNat < 256 ^ 1) ∧
    (∃ table : Vector Count 256, (∀ v ∈ table.toList, v.toNat < 256 ^ 8) ∧ ∃ v ∈ table.toList, ¬v.toNat < 256 ^ 4) := by
  refine ⟨⟨Vector.replicate 256 255#64, replicate_lt (by norm_num)⟩, Vector.replicate 256 18446744073709551615#64,
    replicate_lt (by norm_num), 18446744073709551615#64, ?_, by norm_num⟩
  rw [Vector.toList_replicate]
  exact List.mem_replicate.mpr ⟨by norm_num, rfl⟩

end Sys2Proof.Tests
end

section
/-!
The state and what every step keeps of it (spec 10_state.md): what one step can do, what the body of each command leaves
when it completes and when it faults, and the statements O6, O7, O16, O17, O19, O22, O23, O24.
-/

namespace Sys2Proof.Machine

/-! ### What a step, a command and its body can do -/

/-- What a command does with `FAULT = 0`: its own body (R96, R198). -/
def bodyOf : Instr → State → Result
  | .clr => fun s => .done (clearState s)
  | .fld x v => fldBody x v
  | .finc x => fincBody x
  | .fdec x => fdecBody x
  | .frd x => frdBody x
  | .build => buildBody
  | .xcode x => xcodeBody x
  | .pack => packBody
  | .flush => flushBody
  | .step => stepBody
  | .emit => emitBody
  | .enc x => encBody x
  | .dec => decBody
  | .drun => drunBody

/-- With `FAULT = 0` a command is its body. -/
theorem exec_of_no_fault {s : State} (hf : s.fault = false) (i : Instr) : exec i s = (bodyOf i s).outcome := by
  cases i
  case clr => rfl
  all_goals exact command_ok hf

/-- With `FAULT = 1` every command but `CLR` is refused (R198). -/
theorem exec_of_fault {s : State} (hf : s.fault = true) {i : Instr} (hi : i ≠ .clr) : exec i s = .next s := by
  cases i
  case clr => exact absurd rfl hi
  all_goals exact command_fault hf

/-- Each body ends within the frame of its command, the fault registers apart. -/
theorem bodyOf_ends (i : Instr) (s : State) : (bodyOf i s).Ends fun t => CommandFrame i s t ∧ Streams s t := by
  cases i with
  | clr => exact ⟨rfl, .same rfl rfl rfl⟩
  | fld x v => exact ⟨rfl, .same rfl rfl rfl⟩
  | finc x => exact fincBody_ends x s
  | fdec x => exact fdecBody_ends x s
  | frd x => exact ⟨rfl, .same rfl rfl rfl⟩
  | build => exact buildBody_ends s
  | xcode x => exact xcodeBody_ends x s
  | pack => exact ⟨rfl, packed_streams s⟩
  | flush =>
    rw [show bodyOf .flush s = .done (flushed s) from flushBody_eq s]
    exact ⟨flushed_frame s, flushed_streams s⟩
  | step => exact stepBody_ends s
  | emit => exact emitBody_ends s
  | enc x => exact encBody_ends x s
  | dec => exact decBody_ends s
  | drun => exact drunLoop_ends _ s

/-- A command other than `CLR` that completes leaves the three fault registers as they are. -/
theorem CommandFrame.keeps_fault {i : Instr} {s t : State} (h : CommandFrame i s t) (hi : i ≠ .clr) :
    t.fault = s.fault ∧ t.fcode = s.fcode ∧ t.finfo = s.finfo := by
  cases i
  case clr => exact absurd rfl hi
  all_goals exact ⟨(congrArg State.fault h :), (congrArg State.fcode h :), (congrArg State.finfo h :)⟩

/-- A command that completes does not set `FAULT`. -/
theorem CommandFrame.no_fault {i : Instr} {s t : State} (h : CommandFrame i s t) (hf : s.fault = false) :
    t.fault = false := by
  by_cases hi : i = .clr
  · subst hi; exact (congrArg State.fault h :)
  · rw [(h.keeps_fault hi).1, hf]

/-- A command that ends with `FAULT = 0` has completed. -/
theorem exec_completed {i : Instr} {s t : State} (h : exec i s = .next t) (hf : s.fault = false)
    (ht : t.fault = false) : bodyOf i s = .done t := by
  rw [exec_of_no_fault hf] at h
  have he := bodyOf_ends i s
  cases hb : bodyOf i s with
  | done u => rw [hb] at h; cases h; rfl
  | raised u =>
    rw [hb] at h he
    obtain ⟨c, info, v, -, hu⟩ := he
    cases h
    rw [hu] at ht; cases ht
  | stuck f => rw [hb] at h; cases h

/-- A command that ends with `FAULT` newly set has raised a fault. -/
theorem exec_raised {i : Instr} {s t : State} (h : exec i s = .next t) (hf : s.fault = false)
    (ht : t.fault = true) : bodyOf i s = .raised t := by
  rw [exec_of_no_fault hf] at h
  have he := bodyOf_ends i s
  cases hb : bodyOf i s with
  | done u =>
    rw [hb] at h he
    cases h
    rw [he.1.no_fault hf] at ht; cases ht
  | raised u => rw [hb] at h; cases h; rfl
  | stuck f => rw [hb] at h; cases h

/-- The word refused or faulted as illegal (R97, R98). -/
theorem execIllegal_next {w : CommandWord} {s t : State} (h : execIllegal w s = .next t) :
    (s.fault = true ∧ t = s) ∨ (s.fault = false ∧ t = enterFault .illegalCmd ((opField w).setWidth 16) s) := by
  rcases command_next h with hr | ⟨hf, hd | hr⟩
  · exact Or.inl hr
  · cases hd
  · cases hr; exact Or.inr ⟨hf, rfl⟩

/-- What one step can do (R24, R97, R198): idle; a legal word executed; an illegal word refused; an illegal word
faulted. -/
inductive StepCase (s t : State) : Prop where
  | idle (hw : fetchWord s = none) (ht : t = s)
  | legal (w : CommandWord) (i : Instr) (hw : fetchWord s = some w) (hd : decode w = .ok i)
      (he : exec i (advance s) = .next t)
  | refused (w : CommandWord) (hw : fetchWord s = some w) (hf : s.fault = true) (ht : t = advance s)
  | illegal (w : CommandWord) (hw : fetchWord s = some w) (hf : s.fault = false)
      (ht : t = enterFault .illegalCmd ((opField w).setWidth 16) (advance s))

theorem step_of_fetch {s : State} {w : CommandWord} (hw : fetchWord s = some w) : step s = runWord w (advance s) := by
  simp [step, hw]

theorem step_idle {s : State} (hw : fetchWord s = none) : step s = .next s := by
  simp [step, hw]

theorem runWord_ok {w : CommandWord} {i : Instr} (hd : decode w = .ok i) (s : State) : runWord w s = exec i s := by
  simp [runWord, hd]

theorem runWord_error {w : CommandWord} {e : DecodeError} (hd : decode w = .error e) (s : State) :
    runWord w s = execIllegal w s := by
  simp [runWord, hd]

theorem step_cases {s t : State} (h : step s = .next t) : StepCase s t := by
  cases hw : fetchWord s with
  | none => rw [step_idle hw] at h; cases h; exact .idle hw rfl
  | some w =>
    rw [step_of_fetch hw] at h
    cases hd : decode w with
    | ok i => rw [runWord_ok hd] at h; exact .legal w i hw hd h
    | error e =>
      rw [runWord_error hd] at h
      rcases execIllegal_next h with ⟨hf, ht⟩ | ⟨hf, ht⟩
      · exact .refused w hw hf ht
      · exact .illegal w hw hf ht

/-- A command that answers a next state stayed within its frame, the fault registers apart: completed, faulted or
refused. -/
theorem exec_within {i : Instr} {s t : State} (h : exec i s = .next t) :
    ∃ u, CommandFrame i s u ∧ Streams s u ∧ FaultFrame u t := by
  rcases exec_frame h with ⟨-, hi, rfl⟩ | ⟨-, hc, hs⟩ | ⟨-, c, info, u, hc, hs, rfl⟩
  · refine ⟨t, ?_, .refl t, rfl⟩
    cases i
    case clr => exact absurd rfl hi
    all_goals rfl
  · exact ⟨t, hc, hs, rfl⟩
  · exact ⟨u, hc, hs, rfl⟩

/-! ### The invariant (R26, R32, R37, R38, R44) -/

/-- A command that answers a next state keeps the invariant. -/
theorem Inv.exec {i : Instr} {s t : State} (hs : Inv s) (h : exec i s = .next t) : Inv t := by
  by_cases hi : i = .clr
  · subst hi; cases h; exact clearState_inv s
  · obtain ⟨body, hb, hk⟩ := body_keeps hs hi
    obtain ⟨u, hu, hinv⟩ := command_holds hk hs
    rw [hb, hu] at h
    cases h; exact hinv

/-- Settles O19: the word executed keeps the invariant, and so do the advance of the position and the fault of an
illegal word. -/
theorem stepKeepsTheInvariant : Obligations.StepKeepsTheInvariant := by
  intro s t hs h
  cases step_cases h with
  | idle hw ht => exact ht ▸ hs
  | legal w i hw hd he => exact hs.advance.exec he
  | refused w hw hf ht => exact ht ▸ hs.advance
  | illegal w hw hf ht => exact ht ▸ hs.advance.enterFault _ _

/-! ### The command list and its position (R24) -/

theorem CommandFrame.keeps_list {i : Instr} {s t : State} (h : CommandFrame i s t) :
    t.cmds = s.cmds ∧ t.cmdIx = s.cmdIx := by
  cases i <;> exact ⟨(congrArg State.cmds h :), (congrArg State.cmdIx h :)⟩

/-- No command reaches the host's list or its position. -/
theorem exec_keeps_list {i : Instr} {s t : State} (h : exec i s = .next t) : t.cmds = s.cmds ∧ t.cmdIx = s.cmdIx := by
  obtain ⟨u, hu, -, ht⟩ := exec_within h
  obtain ⟨hc, hx⟩ := hu.keeps_list
  exact ⟨(congrArg State.cmds ht :).trans hc, (congrArg State.cmdIx ht :).trans hx⟩

theorem lt_length_of_fetchWord {s : State} {w : CommandWord} (hw : fetchWord s = some w) : s.cmdIx < s.cmds.length :=
  (List.getElem?_eq_some_iff.1 hw).1

theorem fetchWord_none_iff {s : State} : fetchWord s = none ↔ s.cmds.length ≤ s.cmdIx :=
  List.getElem?_eq_none_iff

/-- A step keeps the list; it advances the position exactly when there was a word to execute. -/
theorem step_list {s t : State} (h : step s = .next t) :
    t.cmds = s.cmds ∧ t.cmdIx = if s.cmdIx < s.cmds.length then s.cmdIx + 1 else s.cmdIx := by
  cases step_cases h with
  | idle hw ht =>
    rw [if_neg (Nat.not_lt.2 (fetchWord_none_iff.1 hw)), ht]
    exact ⟨rfl, rfl⟩
  | legal w i hw hd he =>
    rw [if_pos (lt_length_of_fetchWord hw)]
    exact exec_keeps_list he
  | refused w hw hf ht =>
    rw [if_pos (lt_length_of_fetchWord hw), ht]
    exact ⟨rfl, rfl⟩
  | illegal w hw hf ht =>
    rw [if_pos (lt_length_of_fetchWord hw), ht]
    exact ⟨rfl, rfl⟩

/-- Settles O7: only the step itself moves the position. -/
theorem positionAdvancesByOne : Obligations.PositionAdvancesByOne := by
  refine ⟨fun s t w hw h => ?_, fun s t h => ?_, fun i s t h => exec_keeps_list h⟩
  · exact (step_of_fetch hw).symm.trans h
  · obtain ⟨hc, hx⟩ := step_list h
    refine ⟨hc, hx, fun hs => ?_⟩
    have hs : s.cmdIx ≤ s.cmds.length := hs
    show t.cmdIx ≤ t.cmds.length
    rw [hc, hx]
    split <;> omega

/-- A word placed at the position is the word fetched. -/
theorem fetchWord_placeWord (w : CommandWord) (s : State) : fetchWord (placeWord w s) = some w := by
  refine List.getElem?_set_self ?_
  rw [List.length_append, List.length_replicate]
  omega

/-- Settles O6, by the equations of `step` and `runWord` and the placing of a word. -/
theorem stepRunsTheFetchedWord : Obligations.StepRunsTheFetchedWord := by
  refine ⟨fun s w i hw hd => ?_, fun s w e hw hd => ?_, fun s hs => ?_, fun s nbits w => ?_⟩
  · exact (step_of_fetch hw).trans (runWord_ok hd _)
  · exact (step_of_fetch hw).trans (runWord_error hd _)
  · exact step_idle (fetchWord_none_iff.2 hs)
  · exact fetchWord_placeWord (tableWord nbits w) s

/-! ### The streams (R39) -/

theorem exec_streams {i : Instr} {s t : State} (h : exec i s = .next t) : Streams s t := by
  obtain ⟨u, -, hs, ht⟩ := exec_within h
  exact hs.trans (.same (congrArg State.inp ht :) (congrArg State.out ht :) (congrArg State.sout ht :))

theorem step_streams {s t : State} (h : step s = .next t) : Streams s t := by
  cases step_cases h with
  | idle hw ht => exact ht ▸ .refl s
  | legal w i hw hd he =>
    have ha : Streams s (advance s) := .same rfl rfl rfl
    exact ha.trans (exec_streams he)
  | refused w hw hf ht => exact ht ▸ .same rfl rfl rfl
  | illegal w hw hf ht => exact ht ▸ .same rfl rfl rfl

/-- Only the commands that read bits take bytes of `IN`. -/
theorem CommandFrame.keeps_inp {i : Instr} {s t : State} (h : CommandFrame i s t)
    (hi : ¬(i = .step ∨ i = .dec ∨ i = .drun)) : t.inp = s.inp := by
  cases i
  case step | dec | drun => simp at hi
  all_goals exact (congrArg State.inp h :)

/-- Settles O22: the streams of every step, and the frame of every command that reads no bits. -/
theorem streamsAreAppendOnly : Obligations.StreamsAreAppendOnly := by
  refine ⟨fun s t h => ?_, fun i s t h hne => ?_, rfl, rfl⟩
  · obtain ⟨hin, hout, hsout⟩ := step_streams h
    exact ⟨hin, hout, hsout⟩
  · obtain ⟨u, hu, -, ht⟩ := exec_within h
    by_contra hi
    exact hne ((congrArg State.inp ht :).trans (hu.keeps_inp hi))

/-! ### Which command writes which item (R20, the column "written by") -/

section Writers

variable {i : Instr} {s t : State} (h : CommandFrame i s t)
include h

theorem CommandFrame.keeps_table (hi : i.opcode ∉ [0x01#8, 0x02#8, 0x03#8, 0x04#8, 0x15#8, 0x20#8, 0x21#8, 0x22#8]) :
    t.freq = s.freq ∧ t.live = s.live ∧ t.total = s.total := by
  cases i
  case clr | fld | finc | fdec | emit | enc | dec | drun => simp [Instr.opcode] at hi
  all_goals exact ⟨(congrArg State.freq h :), (congrArg State.live h :), (congrArg State.total h :)⟩

theorem CommandFrame.keeps_arena (hi : i.opcode ∉ [0x10#8, 0x20#8, 0x21#8, 0x22#8]) :
    t.nodes = s.nodes ∧ t.leafv = s.leafv := by
  cases i
  case build | enc | dec | drun => simp [Instr.opcode] at hi
  all_goals exact ⟨(congrArg State.nodes h :), (congrArg State.leafv h :)⟩

theorem CommandFrame.keeps_root (hi : i.opcode ∉ [0x01#8, 0x10#8, 0x20#8, 0x21#8, 0x22#8]) :
    t.root = s.root ∧ t.nleaf = s.nleaf ∧ t.nint = s.nint := by
  cases i
  case clr | build | enc | dec | drun => simp [Instr.opcode] at hi
  all_goals exact ⟨(congrArg State.root h :), (congrArg State.nleaf h :), (congrArg State.nint h :)⟩

theorem CommandFrame.keeps_cur (hi : i.opcode ∉ [0x01#8, 0x10#8, 0x14#8, 0x20#8, 0x21#8, 0x22#8]) :
    t.cur = s.cur := by
  cases i
  case clr | build | step | enc | dec | drun => simp [Instr.opcode] at hi
  all_goals exact (congrArg State.cur h :)

theorem CommandFrame.keeps_code (hi : i.opcode ∉ [0x01#8, 0x11#8, 0x20#8]) : t.code = s.code ∧ t.clen = s.clen := by
  cases i
  case clr | xcode | enc => simp [Instr.opcode] at hi
  all_goals exact ⟨(congrArg State.code h :), (congrArg State.clen h :)⟩

theorem CommandFrame.keeps_sym (hi : i.opcode ∉ [0x01#8, 0x15#8, 0x21#8, 0x22#8]) : t.sym = s.sym := by
  cases i
  case clr | emit | dec | drun => simp [Instr.opcode] at hi
  all_goals exact (congrArg State.sym h :)

theorem CommandFrame.keeps_res (hi : i.opcode ∉ [0x01#8, 0x05#8]) : t.res = s.res := by
  cases i
  case clr | frd => simp [Instr.opcode] at hi
  all_goals exact (congrArg State.res h :)

theorem CommandFrame.keeps_packer (hi : i.opcode ∉ [0x01#8, 0x12#8, 0x13#8, 0x20#8]) :
    t.pbuf = s.pbuf ∧ t.free = s.free := by
  cases i
  case clr | pack | flush | enc => simp [Instr.opcode] at hi
  all_goals exact ⟨(congrArg State.pbuf h :), (congrArg State.free h :)⟩

theorem CommandFrame.keeps_unpacker (hi : i.opcode ∉ [0x01#8, 0x14#8, 0x21#8, 0x22#8]) :
    t.ubuf = s.ubuf ∧ t.ucnt = s.ucnt := by
  cases i
  case clr | step | dec | drun => simp [Instr.opcode] at hi
  all_goals exact ⟨(congrArg State.ubuf h :), (congrArg State.ucnt h :)⟩

theorem CommandFrame.keeps_out (hi : i.opcode ∉ [0x12#8, 0x13#8, 0x20#8]) : t.out = s.out := by
  cases i
  case pack | flush | enc => simp [Instr.opcode] at hi
  all_goals exact (congrArg State.out h :)

theorem CommandFrame.keeps_sout (hi : i.opcode ∉ [0x15#8, 0x21#8, 0x22#8]) : t.sout = s.sout := by
  cases i
  case emit | dec | drun => simp [Instr.opcode] at hi
  all_goals exact (congrArg State.sout h :)

end Writers

/-- The fault registers change only under `CLR` and when a fault is recorded. -/
theorem exec_fault_writers {i : Instr} {s t : State} (h : exec i s = .next t)
    (hne : t.fault ≠ s.fault ∨ t.fcode ≠ s.fcode ∨ t.finfo ≠ s.finfo) :
    i = .clr ∨ (s.fault = false ∧ t.fault = true) := by
  rcases exec_frame h with ⟨-, -, rfl⟩ | ⟨-, hc, -⟩ | ⟨hf, c, info, u, -, -, rfl⟩
  · simp at hne
  · by_contra hi
    obtain ⟨h1, h2, h3⟩ := hc.keeps_fault fun hclr => hi (Or.inl hclr)
    simp [h1, h2, h3] at hne
  · exact Or.inr ⟨hf, rfl⟩

/-- Settles O23: the frame of the command, item by item, in contrapositive form. -/
theorem onlyTheListedCommandsWrite : Obligations.OnlyTheListedCommandsWrite := by
  intro i s t h
  have hfault := exec_fault_writers h
  obtain ⟨u, hu, -, ht⟩ := exec_within h
  refine ⟨?_, hfault, ?_, ?_, ?_, ?_, ?_, ?_, ?_, ?_, ?_, ?_⟩ <;> rw [ht] <;> contrapose!
  · exact hu.keeps_table
  · exact hu.keeps_arena
  · exact hu.keeps_root
  · exact hu.keeps_cur
  · exact hu.keeps_code
  · exact hu.keeps_sym
  · exact hu.keeps_res
  · exact hu.keeps_packer
  · exact hu.keeps_unpacker
  · exact hu.keeps_out
  · exact hu.keeps_sout

/-! ### `TV` (R27) -/

/-- The commands that leave `TV = 0` when they complete: they write the table, or clear it (R110, R180). -/
def DropsTree (i : Instr) : Prop :=
  i = .clr ∨ (∃ x v, i = .fld x v) ∨ (∃ x, i = .finc x) ∨ (∃ x, i = .fdec x) ∨ i = .emit ∨ (∃ x, i = .enc x) ∨
    i = .dec ∨ i = .drun

theorem fincBody_done_tv {s t : State} {x : Symbol} (h : fincBody x s = .done t) : t.tv = false := by
  unfold fincBody at h
  split at h <;> cases h
  rfl

theorem fdecBody_done_tv {s t : State} {x : Symbol} (h : fdecBody x s = .done t) : t.tv = false := by
  unfold fdecBody at h
  split at h <;> cases h
  rfl

/-- A completed `EMIT` ends in an `FDEC` (R162). -/
theorem emitBody_done_tv {s t : State} (h : emitBody s = .done t) : t.tv = false := by
  unfold emitBody at h
  split at h
  · cases h
  · split at h
    · cases h
    · split at h
      · cases h
      · exact fdecBody_done_tv h

/-- A completed `ENC` ends in an `FDEC` (R170). -/
theorem encBody_done_tv {s t : State} {x : Symbol} (h : encBody x s = .done t) : t.tv = false := by
  unfold encBody at h
  split at h
  · cases h
  · split at h
    · cases h
    · obtain ⟨u, -, hu⟩ := Result.andThen_eq_done h
      exact fdecBody_done_tv hu

/-- A completed `DEC` ends in an `EMIT` (R171). -/
theorem decBody_done_tv {s t : State} (h : decBody s = .done t) : t.tv = false := by
  obtain ⟨u, -, hu⟩ := Result.andThen_eq_done h
  exact emitBody_done_tv hu

/-- A completed `DRUN` ends in a `DEC`, unless the table was empty from the start (R172). -/
theorem drunLoop_done_tv : ∀ (k : Nat) {s t : State}, drunLoop k s = .done t →
    (s.total = 0#72 ∧ t = s) ∨ t.tv = false
  | k, s, t, h => by
    unfold drunLoop at h
    split at h
    · rename_i h0
      cases h; exact Or.inl ⟨h0, rfl⟩
    · match k, h with
      | 0, h => cases h
      | k + 1, h =>
        obtain ⟨u, hd, hl⟩ := Result.andThen_eq_done h
        rcases drunLoop_done_tv k hl with ⟨-, rfl⟩ | htv
        · exact Or.inr (decBody_done_tv hd)
        · exact Or.inr htv

/-- With an empty table there is no valid tree (R26, R117). -/
theorem Inv.no_tree_of_empty {s : State} (hs : Inv s) (h : s.total = 0#72) : s.tv = false := by
  rw [Bool.eq_false_iff]
  exact fun htv => (hs.tree htv).some_live ((total_eq_zero_iff hs.counts).1 h)

/-- Every write of the table that completes, and `CLR`, leaves `TV = 0` (R110, R180). -/
theorem bodyOf_done_tv {i : Instr} {s t : State} (hs : Inv s) (h : bodyOf i s = .done t) (hi : DropsTree i) :
    t.tv = false := by
  rcases hi with rfl | ⟨x, v, rfl⟩ | ⟨x, rfl⟩ | ⟨x, rfl⟩ | rfl | ⟨x, rfl⟩ | rfl | rfl
  · cases h; rfl
  · cases h; rfl
  · exact fincBody_done_tv h
  · exact fdecBody_done_tv h
  · exact emitBody_done_tv h
  · exact encBody_done_tv h
  · exact decBody_done_tv h
  · rcases drunLoop_done_tv _ h with ⟨h0, rfl⟩ | htv
    · exact hs.no_tree_of_empty h0
    · exact htv

/-- A completed `BUILD` leaves the built state (R120, R133). -/
theorem buildBody_eq_done {s t : State} (h : buildBody s = .done t) : t = builtState s := by
  unfold buildBody at h
  split at h <;> cases h
  rfl

/-- A command that neither drops the tree nor builds one keeps `TV` and the table. -/
theorem CommandFrame.keeps_tree {i : Instr} {s t : State} (h : CommandFrame i s t) (hi : ¬DropsTree i)
    (hb : i ≠ .build) : t.tv = s.tv ∧ t.freq = s.freq := by
  cases i
  case build => exact absurd rfl hb
  case clr | fld | finc | fdec | emit | enc | dec | drun => simp [DropsTree] at hi
  all_goals exact ⟨(congrArg State.tv h :), (congrArg State.freq h :)⟩

/-- A fault of a command other than `DEC` and `DRUN` is entered from a state in which at most the cursor and the
unpacker's side have moved (R197). -/
theorem bodyOf_raised_walk {i : Instr} {s t : State} (hs : Inv s) (h : bodyOf i s = .raised t) (hdec : i ≠ .dec)
    (hdrun : i ≠ .drun) : ∃ c info u, WalkFrame s u ∧ t = enterFault c info u := by
  cases i with
  | clr => cases h
  | fld x v => cases h
  | finc x => exact ⟨_, _, s, rfl, (fincBody_raised h).2⟩
  | fdec x => exact ⟨_, _, s, rfl, (fdecBody_raised h).2⟩
  | frd x => cases h
  | build => exact ⟨_, _, s, rfl, (buildBody_raised h).2⟩
  | xcode x =>
    rcases xcodeBody_raised h with ⟨-, ht⟩ | ⟨-, ht⟩ <;> exact ⟨_, _, s, rfl, ht⟩
  | pack => cases h
  | flush => rw [show bodyOf .flush s = .done (flushed s) from flushBody_eq s] at h; cases h
  | step =>
    rcases stepBody_raised hs h with ⟨-, ht⟩ | ⟨nd, -, -, ht⟩ | ⟨-, -, ht⟩ | ⟨nd, u, -, -, -, -, -, hw, ht⟩
    · exact ⟨_, _, s, rfl, ht⟩
    · exact ⟨_, _, s, rfl, ht⟩
    · exact ⟨_, _, s, rfl, ht⟩
    · exact ⟨_, _, u, hw.eq, ht⟩
  | emit =>
    rcases emitBody_raised hs h with ⟨-, ht⟩ | ⟨nd, -, -, ht⟩
    · exact ⟨_, _, s, rfl, ht⟩
    · exact ⟨_, _, s, rfl, ht⟩
  | enc x =>
    rcases encBody_raised hs h with ⟨-, ht⟩ | ⟨-, ht⟩ <;> exact ⟨_, _, s, rfl, ht⟩
  | dec => exact absurd rfl hdec
  | drun => exact absurd rfl hdrun

/-- A fault of `DEC` leaves the table as it is: its one write of the table is its last act (R171, R197). -/
theorem decBody_raised_freq {s t : State} (hs : Inv s) (h : decBody s = .raised t) : t.freq = s.freq := by
  rcases decBody_raised hs h with ⟨-, rfl⟩ | ⟨-, u, hu⟩
  · rfl
  · cases hu with
    | underrun path hw => exact (congrArg State.freq hw.eq :)
    | nullChild path hw => exact (congrArg State.freq hw.eq :)

/-- What a command does to `TV` and the table (R27): both kept; the tree dropped; the tree built, by `BUILD` or inside a
`DEC` or `DRUN` that then faulted. -/
theorem exec_tree_cases {i : Instr} {s t : State} (hs : Inv s) (h : exec i s = .next t) :
    (t.tv = s.tv ∧ t.freq = s.freq) ∨ t.tv = false ∨ (i = .build ∧ t.freq = s.freq) ∨
      (i = .dec ∧ t.fault = true ∧ t.freq = s.freq) ∨ (i = .drun ∧ t.fault = true) := by
  cases hf : s.fault with
  | true =>
    by_cases hclr : i = .clr
    · subst hclr; cases h; exact Or.inr (Or.inl rfl)
    · rw [exec_of_fault hf hclr] at h
      cases h; exact Or.inl ⟨rfl, rfl⟩
  | false =>
    cases ht : t.fault with
    | false =>
      have hd := exec_completed h hf ht
      by_cases hdrop : DropsTree i
      · exact Or.inr (Or.inl (bodyOf_done_tv hs hd hdrop))
      by_cases hb : i = .build
      · subst hb
        exact Or.inr (Or.inr (Or.inl ⟨rfl, (congrArg State.freq (buildBody_eq_done hd) :)⟩))
      · exact Or.inl ((done_fault (bodyOf_ends i s) hd).1.keeps_tree hdrop hb)
    | true =>
      have hr := exec_raised h hf ht
      by_cases hdec : i = .dec
      · subst hdec
        exact Or.inr (Or.inr (Or.inr (Or.inl ⟨rfl, rfl, decBody_raised_freq hs hr⟩)))
      by_cases hdrun : i = .drun
      · exact Or.inr (Or.inr (Or.inr (Or.inr ⟨hdrun, rfl⟩)))
      · obtain ⟨c, info, u, hu, rfl⟩ := bodyOf_raised_walk hs hr hdec hdrun
        exact Or.inl ⟨(congrArg State.tv hu :), (congrArg State.freq hu :)⟩

/-- Settles O17: the cases of `exec_tree_cases`, and what a completed command leaves. -/
theorem treeValidOnlyByBuild : Obligations.TreeValidOnlyByBuild := by
  refine ⟨fun i s t hs h h0 h1 => ?_, fun i s t hs h hne h1 => ?_, fun i s t hs h hf ht hi => ?_,
    fun s t _ h hf ht => ?_⟩
  · rcases exec_tree_cases hs h with ⟨htv, -⟩ | htv | ⟨hi, -⟩ | ⟨hi, ht, -⟩ | ⟨hi, ht⟩
    · rw [htv, h0] at h1; cases h1
    · rw [htv] at h1; cases h1
    · exact Or.inl hi
    · exact Or.inr ⟨Or.inl hi, ht⟩
    · exact Or.inr ⟨Or.inr hi, ht⟩
  · rcases exec_tree_cases hs h with ⟨-, hfreq⟩ | htv | ⟨-, hfreq⟩ | ⟨-, -, hfreq⟩ | hi
    · exact absurd hfreq hne
    · rw [htv] at h1; cases h1
    · exact absurd hfreq hne
    · exact absurd hfreq hne
    · exact hi
  · exact bodyOf_done_tv hs (exec_completed h hf ht) hi
  · exact (congrArg State.tv (buildBody_eq_done (exec_completed h hf ht)) :)

/-! ### The status register (R26) -/

/-- The bits of `STATUS` as R26 lists them. -/
def statusBit (s : State) : Nat → Bool
  | 0 => s.tv
  | 1 => emptyFlag s
  | 2 => s.fault
  | 3 => ppendFlag s
  | 4 => atLeafFlag s
  | 5 | 6 | 7 => false
  | k + 8 => s.fcode.getLsbD k

theorem status_getLsbD (s : State) (k : Nat) : (status s).getLsbD k = statusBit s k := by
  refine BitVec.getLsbD_append.trans ?_
  simp only [BitVec.getLsbD_append]
  match k with
  | 0 | 1 | 2 | 3 | 4 | 5 | 6 | 7 => simp [statusBit]
  | k + 8 => simp (disch := omega) only [if_neg, statusBit]; rfl

theorem status_reserved (s : State) : (status s).extractLsb' 5 3 = 0#3 := by
  ext k hk
  rw [BitVec.getElem_extractLsb', status_getLsbD, BitVec.getElem_zero]
  match k, hk with
  | 0, _ | 1, _ | 2, _ => rfl

theorem status_fcode (s : State) : (status s).extractLsb' 8 8 = s.fcode := by
  ext k hk
  rw [BitVec.getElem_extractLsb', status_getLsbD, Nat.add_comm]
  exact BitVec.getLsbD_eq_getElem hk

theorem emptyFlag_iff (s : State) : emptyFlag s = true ↔ s.total.toNat = 0 := by
  rw [emptyFlag, beq_iff_eq, BitVec.toNat_eq, BitVec.toNat_ofNat]

theorem ppendFlag_iff (s : State) : ppendFlag s = true ↔ s.free.toNat < 8 := decide_eq_true_iff

theorem atLeafFlag_iff (s : State) :
    atLeafFlag s = true ↔ s.tv = true ∧ ∃ nd, nodeAt s.nodes s.cur = some nd ∧ nd.tag = .leaf := by
  unfold atLeafFlag
  cases nodeAt s.nodes s.cur <;> simp

/-- A step leaves the fault state only by a legal `CLR` (R26, R198). -/
theorem step_keeps_fault {s t : State} (hf : s.fault = true) (h : step s = .next t) :
    t.fault = true ∨ ∃ w, s.cmds[s.cmdIx]? = some w ∧ decode w = .ok .clr := by
  cases step_cases h with
  | idle hw ht => exact Or.inl (ht ▸ hf)
  | legal w i hw hd he =>
    by_cases hi : i = .clr
    · exact Or.inr ⟨w, hw, hi ▸ hd⟩
    · rw [exec_of_fault (s := advance s) hf hi] at he
      cases he; exact Or.inl hf
  | refused w hw _ ht => exact Or.inl (ht ▸ hf)
  | illegal w hw _ ht => exact Or.inl (ht ▸ rfl)

/-- Settles O16: each field of `STATUS` is the flag or register it is made of, and the invariant says the rest. -/
theorem statusFields : Obligations.StatusFields := by
  refine ⟨fun s hs => ⟨status_getLsbD s 0, ?_, status_getLsbD s 2, ?_, ?_, status_reserved s, status_fcode s,
    fun hf => ?_, hs.tree⟩, by decide, fun s t hf h => step_keeps_fault hf h⟩
  · rw [status_getLsbD]; exact emptyFlag_iff s
  · rw [status_getLsbD]; exact ppendFlag_iff s
  · rw [status_getLsbD]; exact atLeafFlag_iff s
  · have hc := hs.fault
    rw [FaultOk, hf] at hc
    exact hc.1

/-! ### The tree while `TV = 1` (R44) -/

/-- R44 item 1. -/
theorem HasTree.rootOk {s : State} {t : STree} (h : HasTree s t) : RootOk s :=
  ⟨by rw [h.root, h.slot], h.root_internal⟩

/-- R44 item 2: the links from a leaf to the root are as many as its code has bits. -/
theorem HasTree.leafOk {s : State} {t : STree} (h : HasTree s t) (x : Symbol) : LeafOk s x := by
  refine ⟨h.leafValid x, fun hv => ?_⟩
  have hx := (h.leafValid x).1 hv
  obtain ⟨c, hc, -, h1, h255⟩ := h.exists_code hx
  exact ⟨h.leaf_count hx, c.length, h1, h255, by rw [h.root]; exact ancestor_code h.reps hc 0⟩

/-- With one live symbol the tree is the one-leaf tree (R124). -/
theorem HasTree.one_leaf {s : State} {t : STree} (h : HasTree s t) (h1 : liveCount s.freq = 1) :
    s.nint.toNat = 1 ∧ ∃ x f, t = .one 256#9 (.leaf x f) f := by
  refine ⟨by rw [h.nint, h1]; rfl, ?_⟩
  rcases h.shape with ⟨-, hone⟩ | ⟨h2, -⟩
  · exact hone
  · omega

theorem HasTree.freq_lt {s : State} {t : STree} (h : HasTree s t) : t.freq < 2 ^ 72 := by
  have := sumOfCounts_le s.freq
  rw [h.freq]
  omega

/-- R44 item 3: the node in an internal slot is the root of a subtree, and is laid out as R120 says. -/
theorem HasTree.internalOk {s : State} {t : STree} (h : HasTree s t) {p : NodeIx} (h1 : 256 ≤ p.toNat)
    (h2 : p.toNat < 256 + s.nint.toNat) : InternalOk s p := by
  have hp : p ∈ t.slots := (h.mem_slots p).2 (Or.inr ⟨h1, h2⟩)
  obtain ⟨u, q, rfl, hr, hg, hfull, hle⟩ := h.reps.at_slot h.good p hp
  have hlt := h.freq_lt
  cases u with
  | leaf x f => exact absurd h1 (Nat.not_le.2 (leafSlot_lt x))
  | two n l r f =>
    obtain ⟨hn, hl, hrr⟩ := hr
    obtain ⟨hsum, -⟩ := hg
    refine ⟨_, _, hn, rfl, rfl, hl.slot_ne_null, hl.root, l.rootRecord_parent n,
      Or.inl ⟨hrr.slot_ne_null, _, hrr.root, r.rootRecord_parent n, ?_⟩⟩
    simp only [innerRecord, STree.rootRecord_freq, BitVec.toNat_ofNat, STree.freq_two] at hle ⊢
    omega
  | one n l f =>
    obtain ⟨hn, hl⟩ := hr
    obtain ⟨rfl, -⟩ := hg
    rcases h.shape with ⟨hlive, x, f, ht⟩ | ⟨-, hf, -⟩
    · have hn1 := (h.one_leaf hlive).1
      refine ⟨_, _, hn, rfl, rfl, hl.slot_ne_null, hl.root, l.rootRecord_parent n, Or.inr ⟨?_, ?_, ?_, rfl, ?_⟩⟩
      · exact BitVec.eq_of_toNat_eq (h.nleaf.trans hlive)
      · apply BitVec.eq_of_toNat_eq
        simp only [STree.slot_one, BitVec.toNat_ofNat] at h1 h2 ⊢
        omega
      · rw [h.root, ht]; rfl
      · exact (l.rootRecord_freq n).symm
    · exact (hfull hf).elim

/-- R44 item 4: the frequency of the root is `TOTAL`. -/
theorem HasTree.root_freq {s : State} {t : STree} (h : HasTree s t) (hc : CountsOk s) :
    ∃ nd, nodeAt s.nodes s.root = some nd ∧ nd.freq = s.total := by
  refine ⟨_, by rw [h.root]; exact h.reps.root, BitVec.eq_of_toNat_eq ?_⟩
  rw [STree.rootRecord_freq, BitVec.toNat_ofNat, Nat.mod_eq_of_lt h.freq_lt, h.freq, hc.1]

/-- R44 item 5, for one leaf: the root has a left child and no right one. -/
theorem HasTree.one_leaf_root {s : State} {t : STree} (h : HasTree s t) (h1 : liveCount s.freq = 1) :
    s.nint = 1#9 ∧ ∃ nd, nodeAt s.nodes s.root = some nd ∧ nd.left ≠ Config.null ∧ nd.right = Config.null := by
  obtain ⟨hn, x, f, rfl⟩ := h.one_leaf h1
  exact ⟨BitVec.eq_of_toNat_eq hn, _, by rw [h.root]; exact h.reps.root, leafSlot_ne_null x, rfl⟩

/-- R44 item 6: a slot reached from the root is a slot the build wrote. -/
theorem HasTree.slotWritten_of_walkDown {s : State} {t : STree} (h : HasTree s t) {path : List Bool} {n : NodeIx}
    (hp : walkDown s.nodes s.root path = some n) : SlotWritten s n := by
  rw [h.root] at hp
  obtain ⟨u, q, rfl, -, hsub⟩ := STree.reps_of_walkDown path h.reps hp
  exact (h.mem_slots _).1 (hsub _ u.slot_mem_slots)

/-- Settles O24: the tree that the invariant gives, item by item. -/
theorem treeInvariants : Obligations.TreeInvariants := by
  intro s hs htv
  have hok := hs.tree htv
  obtain ⟨t, h⟩ := hok.hasTree
  obtain ⟨path, hpath⟩ := hok.cur_ok
  have hnleaf := h.nleaf
  refine ⟨h.rootOk, h.leafOk, fun p h1 h2 => h.internalOk h1 h2, h.root_freq hs.counts, fun h2 => ?_, fun h1 => ?_,
    h.slotWritten_of_walkDown hpath, ⟨path, hpath⟩, ?_⟩
  · rw [h.nint, hnleaf]
    omega
  · exact h.one_leaf_root (by rw [← hnleaf, h1]; rfl)
  · rw [Bool.eq_false_iff, ne_eq, emptyFlag_iff, hs.counts.1, sumOfCounts_eq_zero_iff]
    exact hok.some_live

end Sys2Proof.Machine
end

section
/-!
The compressed file around the block (spec 20_memory.md R77 to R81): which widths hold every count, what the bytes of a
count give back, what reading the written counts gives back, and the statements O59 and O60.
-/

namespace Sys2Proof.Machine

/-! ### The width of the header's counts (R79) -/

theorem foldl_max_le_iff (l : List Nat) (a m : Nat) : l.foldl max a ≤ m ↔ a ≤ m ∧ ∀ x ∈ l, x ≤ m := by
  induction l generalizing a with
  | nil => simp
  | cons x l ih => rw [List.foldl_cons, ih, max_le_iff, List.forall_mem_cons, and_assoc]

theorem maxCount_le_iff (table : Vector Count 256) (m : Nat) :
    maxCount table ≤ m ↔ ∀ v ∈ table.toList, v.toNat ≤ m := by
  rw [maxCount, foldl_max_le_iff, List.forall_mem_map]
  exact and_iff_right (Nat.zero_le m)

/-- Fields of `w` bytes hold every count of the table. -/
def CountsFit (table : Vector Count 256) (w : Nat) : Prop := ∀ v ∈ table.toList, v.toNat < 256 ^ w

theorem countsFit_iff_maxCount (table : Vector Count 256) (w : Nat) : CountsFit table w ↔ maxCount table < 256 ^ w := by
  have hpos : 0 < 256 ^ w := by positivity
  rw [Nat.lt_iff_le_pred hpos, maxCount_le_iff]
  exact forall₂_congr fun _ _ => Nat.lt_iff_le_pred hpos

/-- A count is a register of 64 bits (R20). -/
theorem countsFit_eight (table : Vector Count 256) : CountsFit table 8 := fun v _ => v.isLt

theorem headerWidth_mem (table : Vector Count 256) : headerWidth table ∈ [1, 2, 4, 8] := by
  unfold headerWidth
  split_ifs <;> decide

/-- R78: among the four widths, those that hold every count are the chosen one and those above it. -/
theorem headerWidth_le_iff_countsFit (table : Vector Count 256) {w : Nat} (hw : w ∈ [1, 2, 4, 8]) :
    headerWidth table ≤ w ↔ CountsFit table w := by
  have h8 := (countsFit_iff_maxCount table 8).1 (countsFit_eight table)
  rw [countsFit_iff_maxCount]
  unfold headerWidth
  simp only [List.mem_cons, List.not_mem_nil, or_false] at hw
  rcases hw with rfl | rfl | rfl | rfl <;> split_ifs <;> omega

theorem countsFit_headerWidth (table : Vector Count 256) : CountsFit table (headerWidth table) :=
  (headerWidth_le_iff_countsFit table (headerWidth_mem table)).1 le_rfl

/-- Settles O59: the chosen width is one of the four, and `headerWidth_le_iff_countsFit` says which of them hold every
count. -/
theorem headerWidthIsTheSmallest : Obligations.HeaderWidthIsTheSmallest := fun table =>
  ⟨headerWidth_mem table, countsFit_headerWidth table, fun _ hw => (headerWidth_le_iff_countsFit table hw).2⟩

/-! ### The bytes of a count (R78, R80) -/

@[simp] theorem length_littleBytes (k v : Nat) : (littleBytes k v).length = k := by
  induction k generalizing v with
  | zero => rfl
  | succ k ih => rw [littleBytes, List.length_cons, ih]

theorem ofLittleBytes_littleBytes (k v : Nat) : ofLittleBytes (littleBytes k v) = v % 256 ^ k := by
  induction k generalizing v with
  | zero => exact (Nat.mod_one v).symm
  | succ k ih =>
    rw [littleBytes, ofLittleBytes, ih, BitVec.toNat_ofNat, Nat.pow_succ' (n := k)]
    exact Nat.mod_mul.symm

@[simp] theorem length_countBytes (order : ByteOrder) (width : Nat) (c : Count) :
    (countBytes order width c).length = width := by
  cases order <;> simp [countBytes]

theorem length_flatMap_countBytes (order : ByteOrder) (width : Nat) (cs : List Count) :
    (cs.flatMap (countBytes order width)).length = cs.length * width := by
  simp [List.length_flatMap]

/-- In either byte order a count that fits its field is what the field holds. -/
theorem ofCountBytes_countBytes (order : ByteOrder) {width : Nat} {c : Count} (hc : c.toNat < 256 ^ width) :
    ofCountBytes order (countBytes order width c) = c := by
  have hval : ofLittleBytes (littleBytes width c.toNat) = c.toNat := by
    rw [ofLittleBytes_littleBytes, Nat.mod_eq_of_lt hc]
  cases order <;> simp [countBytes, ofCountBytes, hval]

/-! ### Reading the file back (R77, R81) -/

theorem readCounts_succ_append {order : ByteOrder} {field : List Byte} (k : Nat) (rest : List Byte) :
    readCounts order field.length (k + 1) (field ++ rest) =
      (readCounts order field.length k rest).map fun r => (ofCountBytes order field :: r.1, r.2) := by
  rw [readCounts, if_neg (by simp), List.drop_left, List.take_left]
  cases readCounts order field.length k rest <;> rfl

/-- The counts that fit their fields are read back, and what stands behind them is left. -/
theorem readCounts_flatMap_countBytes (order : ByteOrder) (width : Nat) (cs : List Count) (rest : List Byte)
    (hcs : ∀ c ∈ cs, c.toNat < 256 ^ width) :
    readCounts order width cs.length (cs.flatMap (countBytes order width) ++ rest) = some (cs, rest) := by
  induction cs with
  | nil => rfl
  | cons c cs ih =>
    obtain ⟨hc, hcs⟩ := List.forall_mem_cons.1 hcs
    have hstep := readCounts_succ_append (order := order) (field := countBytes order width c) cs.length
      (cs.flatMap (countBytes order width) ++ rest)
    rw [length_countBytes, ih hcs, ofCountBytes_countBytes order hc] at hstep
    rw [List.length_cons, List.flatMap_cons, List.append_assoc, hstep]
    rfl

/-- A file whose first byte is one of the four widths is read as 256 counts of that width (R79, R81). -/
theorem readHeader_width_cons {w : Nat} (hw : w ∈ [1, 2, 4, 8]) (rest : List Byte) :
    readHeader (BitVec.ofNat 8 w :: rest) = readCounts Config.hdrByteOrder w 256 rest := by
  simp only [List.mem_cons, List.not_mem_nil, or_false] at hw
  rcases hw with rfl | rfl | rfl | rfl <;> rfl

theorem readHeader_compressedFile (table : Vector Count 256) (packed : List Byte) :
    readHeader (compressedFile table packed) = some (table.toList, packed) := by
  have hread := readCounts_flatMap_countBytes Config.hdrByteOrder (headerWidth table) table.toList packed
    (countsFit_headerWidth table)
  rw [Vector.length_toList] at hread
  rw [compressedFile, headerBytes, List.cons_append, readHeader_width_cons (headerWidth_mem table), hread]

theorem length_headerBytes (table : Vector Count 256) :
    (headerBytes table).length = 1 + 256 * headerWidth table := by
  rw [headerBytes, List.length_cons, length_flatMap_countBytes, Vector.length_toList, Nat.add_comm]

/-- Settles O60: `readHeader_compressedFile` for the contents, `length_headerBytes` for the header's length. -/
theorem headerReadsBack : Obligations.HeaderReadsBack := fun table packed =>
  ⟨readHeader_compressedFile table packed, length_headerBytes table⟩

end Sys2Proof.Machine
end

section
/-!
Command words (spec 30_encoding.md R90 to R98): a word and its fields, decoding as the inverse of encoding, the rows of
the opcode map as masks and matches, the illegal words, and the statements O1 to O5.
-/

namespace Sys2Proof.Machine

/-! ### A word and its fields (R91) -/

/-- Two words with the same fields are the same word. -/
theorem word_ext {v w : CommandWord} (ho : opField v = opField w) (hs : symField v = symField w)
    (hi : immField v = immField w) : v = w := by
  rw [← assemble_fields v, ho, hs, hi, assemble_fields]

theorem assemble_eq_iff {o : BitVec 8} {x : Symbol} {v : Count} {w : CommandWord} :
    assemble o x v = w ↔ opField w = o ∧ symField w = x ∧ immField w = v := by
  constructor
  · rintro rfl
    exact ⟨opField_assemble .., symField_assemble .., immField_assemble ..⟩
  · rintro ⟨rfl, rfl, rfl⟩
    exact assemble_fields w

@[simp] theorem opField_and (v w : CommandWord) : opField (v &&& w) = opField v &&& opField w := by
  ext k hk; simp [opField]

@[simp] theorem symField_and (v w : CommandWord) : symField (v &&& w) = symField v &&& symField w := by
  ext k hk; simp [symField]

@[simp] theorem immField_and (v w : CommandWord) : immField (v &&& w) = immField v &&& immField w := by
  ext k hk; simp [immField]

@[simp] theorem opField_encode (i : Instr) : opField (encode i) = i.opcode := opField_assemble ..

@[simp] theorem symField_encode (i : Instr) : symField (encode i) = i.symOperand := symField_assemble ..

@[simp] theorem immField_encode (i : Instr) : immField (encode i) = i.immOperand := immField_assemble ..

/-! ### Decoding and encoding (R94, R96) -/

/-- Decoding a command's word: the branch of its opcode, which finds the operands in their fields and zero in the fields
the format does not use. -/
theorem decode_encode (i : Instr) : decode (encode i) = .ok i := by
  unfold decode
  rw [opField_encode]
  cases i
  case fld x v => simp [Instr.opcode, Instr.symOperand, Instr.immOperand]
  case finc x | fdec x | frd x | xcode x | enc x => simp [Instr.opcode, Instr.symOperand, Instr.immOperand, decodeS]
  all_goals simp [Instr.opcode, Instr.symOperand, Instr.immOperand, decodeZ]

/-- A word decodes to a command exactly when it is that command's word. -/
theorem decode_eq_ok_iff {w : CommandWord} {i : Instr} : decode w = .ok i ↔ encode i = w := by
  constructor
  · intro h
    have hw := decode_decoded w
    rw [h] at hw
    cases hw with
    | command _ ho hs hi => exact assemble_eq_iff.2 ⟨ho, hs, hi⟩
  · rintro rfl
    exact decode_encode i

/-- Every opcode of the map has a format, so every command is well formed (R92, R96). -/
theorem wellFormed_instr (i : Instr) : WellFormed i = true :=
  Laws.EncodesItsOpcode.wellFormed_of_format (by cases i <;> rfl)

/-- Settles O1: `wellFormed_instr` and `decode_encode`. -/
theorem decodeOfEncode : Obligations.DecodeOfEncode := fun i => ⟨wellFormed_instr i, decode_encode i⟩

/-- Settles O2: one direction of `decode_eq_ok_iff`. -/
theorem encodeOfDecode : Obligations.EncodeOfDecode := fun _ _ h => decode_eq_ok_iff.1 h

/-- Settles O5: each of the eight words is the word of its command. -/
theorem sampleWordsDecode : Obligations.SampleWordsDecode := by
  refine ⟨?_, ?_, ?_, ?_, ?_, ?_, ?_, ?_⟩ <;> exact decode_eq_ok_iff.2 rfl

/-! ### Rows of the opcode map (R93, R95) -/

/-- The word has the row's opcode, and zero in the fields the row's format does not use. -/
def InRow (i : Instr) (w : CommandWord) : Prop :=
  opField w = i.opcode ∧ i.format.zeroFieldsOk (symField w).toNat (immField w).toNat = true

/-- A row's mask keeps `op` and the fields its format does not use, so the match asks for zero in these (R95). -/
theorem and_mask_eq_matchWord_iff (w : CommandWord) (i : Instr) :
    w &&& i.format.mask = i.matchWord ↔ InRow i w := by
  rw [Instr.matchWord, eq_comm, assemble_eq_iff, InRow, opField_and, symField_and, immField_and]
  have hop : opField i.format.mask = BitVec.allOnes 8 := by cases i.format <;> decide
  rw [hop, BitVec.and_allOnes]
  refine and_congr_right fun _ => ?_
  cases i.format with
  | z =>
    have hsym : symField Format.z.mask = BitVec.allOnes 8 := by decide
    have himm : immField Format.z.mask = BitVec.allOnes 64 := by decide
    rw [hsym, himm, BitVec.and_allOnes, BitVec.and_allOnes]
    simp [Format.zeroFieldsOk, toNat_beq_zero]
  | s =>
    have hsym : symField Format.s.mask = 0#8 := by decide
    have himm : immField Format.s.mask = BitVec.allOnes 64 := by decide
    rw [hsym, himm, BitVec.and_allOnes]
    simp [Format.zeroFieldsOk, toNat_beq_zero]
  | si =>
    have hsym : symField Format.si.mask = 0#8 := by decide
    have himm : immField Format.si.mask = 0#64 := by decide
    simp [hsym, himm, Format.zeroFieldsOk]

theorem inRow_encode (i : Instr) : InRow i (encode i) := by
  rw [InRow, opField_encode, symField_encode, immField_encode]
  exact ⟨rfl, zeroFieldsOk_operands i⟩

/-- A row is its opcode: it fixes the format. -/
theorem InRow.of_opcode {i j : Instr} {w : CommandWord} (h : InRow j w) (hij : j.opcode = i.opcode) : InRow i w := by
  rw [InRow, ← hij, ← format_of_opcode hij]
  exact h

/-- The words in a row are those that decode to a command with the row's opcode (R94). -/
theorem inRow_iff_decode (w : CommandWord) (i : Instr) :
    InRow i w ↔ ∃ j, decode w = .ok j ∧ j.opcode = i.opcode := by
  constructor
  · rintro ⟨ho, hz⟩
    have hw := decode_decoded w
    generalize decode w = r at hw ⊢
    cases hw with
    | command j hj _ _ => exact ⟨j, rfl, hj.symm.trans ho⟩
    | nonzero j hj hnz =>
      rw [format_of_opcode (hj.symm.trans ho), hz] at hnz
      cases hnz
    | reserved hr => exact absurd (ho ▸ hr) (not_reserved i)
  · rintro ⟨j, hd, hij⟩
    rw [← decode_eq_ok_iff.1 hd]
    exact (inRow_encode j).of_opcode hij

/-- The match holds the opcode in bits 79:72 and zeros below (R95). -/
theorem matchWord_toNat (i : Instr) : i.matchWord.toNat = i.opcode.toNat * 2 ^ 72 := by
  rw [Instr.matchWord, assemble, BitVec.toNat_append, BitVec.toNat_append]
  simp [Nat.shiftLeft_eq, Nat.mul_assoc]

/-- Settles O3: a row's mask and match pick the words of `InRow`, and these are the words that decode into the row. -/
theorem decodeByMaskAndMatch : Obligations.DecodeByMaskAndMatch := by
  refine ⟨rfl, rfl, rfl, matchWord_toNat, fun w i => ?_, fun w i j hi hj => ?_, fun w h => ?_⟩
  · rw [and_mask_eq_matchWord_iff, inRow_iff_decode]
  · obtain ⟨hoi, -⟩ := (and_mask_eq_matchWord_iff w i).1 hi
    obtain ⟨hoj, -⟩ := (and_mask_eq_matchWord_iff w j).1 hj
    exact hoi.symm.trans hoj
  · cases hd : decode w with
    | error e => exact ⟨e, rfl⟩
    | ok i => exact absurd ((and_mask_eq_matchWord_iff w i).2 ((inRow_iff_decode w i).2 ⟨i, hd, rfl⟩)) (h i)

/-! ### Illegal words (R97, R98) -/

/-- The reserved opcodes are those the decoder refuses as such (R97): no command has one. -/
theorem decode_eq_reserved_iff (w : CommandWord) :
    decode w = .error (.reservedOpcode (opField w)) ↔ ReservedOpcode (opField w).toNat := by
  have hw := decode_decoded w
  generalize decode w = r at hw ⊢
  cases hw with
  | command i ho _ _ => simpa [ho] using not_reserved i
  | nonzero i ho _ => simpa [ho] using not_reserved i
  | reserved hr => simpa using hr

/-- A listed opcode with a field that should be zero and is not (R98). -/
theorem decode_eq_nonzero {w : CommandWord} {i : Instr} (ho : opField w = i.opcode)
    (hz : i.format.zeroFieldsOk (symField w).toNat (immField w).toNat = false) :
    decode w = .error (.nonzeroField (opField w)) := by
  have hw := decode_decoded w
  generalize hd : decode w = r at hw ⊢
  cases hw with
  | command j hj _ _ =>
    obtain ⟨-, hz'⟩ := (inRow_iff_decode w i).2 ⟨j, hd, hj.symm.trans ho⟩
    rw [hz] at hz'
    cases hz'
  | nonzero _ _ _ => rfl
  | reserved hr => exact absurd (ho ▸ hr) (not_reserved i)

/-- An illegal word outside the fault state is recorded as `IllegalCmd` with its opcode (R97, R194). -/
theorem runWord_illegal {w : CommandWord} {e : DecodeError} {s : State} (hd : decode w = .error e)
    (hf : s.fault = false) : runWord w s = .next (enterFault .illegalCmd ((opField w).setWidth 16) s) := by
  rw [runWord_error hd, execIllegal, command_ok hf]
  rfl

/-- R97 lists 242 reserved opcodes. -/
theorem count_reservedOpcode : ((List.range 256).countP fun n => decide (ReservedOpcode n)) = 242 := by
  decide +kernel

/-- Settles O4: the two refusals of the decoder, and the fault that an illegal word is recorded as. -/
theorem illegalWordsFault : Obligations.IllegalWordsFault :=
  ⟨decode_eq_reserved_iff, fun _ _ => decode_eq_nonzero, count_reservedOpcode,
    ⟨_, (decode_eq_reserved_iff 0#80).2 (Or.inl rfl)⟩, fun _ _ _ => runWord_illegal⟩

end Sys2Proof.Machine
end

section
/-!
The frequency table and its two counters (spec 40_freq_table.md; 10_state.md R32): what each of `FLD`, `FINC`, `FDEC`,
`FRD` answers, that no command leaves `TOTAL` or `LIVE` wrong, the pre-scan, and the statements O20, O25 to O29.
-/

namespace Sys2Proof.Machine

/-! ### The counters (R32, R110) -/

/-- The counters depend on the table part of the state alone. -/
theorem CountsOk.congr {s t : State} (h : CountsOk s) (ht : t.freq = s.freq ∧ t.live = s.live ∧ t.total = s.total) :
    CountsOk t := by
  obtain ⟨hfreq, hlive, htotal⟩ := ht
  rw [CountsOk, hfreq, hlive, htotal]
  exact h

theorem fincBody_counts {s : State} (h : CountsOk s) (x : Symbol) : (fincBody x s).Ends CountsOk := by
  unfold fincBody
  split
  · exact raise_ends _ _ h
  · exact setF_countsOk h x _

theorem fdecBody_counts {s : State} (h : CountsOk s) (x : Symbol) : (fdecBody x s).Ends CountsOk := by
  unfold fdecBody
  split
  · exact raise_ends _ _ h
  · exact setF_countsOk h x _

/-- A command that does not write the table (R20) leaves the counters right. -/
theorem bodyOf_counts_of_not_writer {i : Instr}
    (hi : i.opcode ∉ [0x01#8, 0x02#8, 0x03#8, 0x04#8, 0x15#8, 0x20#8, 0x21#8, 0x22#8]) {s : State} (h : CountsOk s) :
    (bodyOf i s).Ends CountsOk :=
  (bodyOf_ends i s).mono fun _ ht => h.congr (ht.1.keeps_table hi)

theorem buildBody_counts {s : State} (h : CountsOk s) : (buildBody s).Ends CountsOk :=
  bodyOf_counts_of_not_writer (i := .build) (by decide) h

/-- The symbol is pushed before it is counted off; pushing does not touch the table (R162). -/
theorem emitBody_counts {s : State} (h : CountsOk s) : (emitBody s).Ends CountsOk := by
  unfold emitBody
  split
  · exact raise_ends _ _ h
  · split
    · trivial
    · split
      · exact raise_ends _ _ h
      · exact fdecBody_counts (s := pushSymbol _ { s with sym := _ }) h _

theorem encBody_counts {s : State} (h : CountsOk s) (x : Symbol) : (encBody x s).Ends CountsOk := by
  unfold encBody
  split
  · exact raise_ends _ _ h
  · split
    · exact raise_ends _ _ h
    · have hbuild := buildBody_counts h
      have hcode := hbuild.andThen (fun _ => id) fun t ht =>
        bodyOf_counts_of_not_writer (i := .xcode x) (by simp [Instr.opcode]) ht
      have hpack := hcode.andThen (fun _ => id) fun t ht => bodyOf_counts_of_not_writer (i := .pack) (by decide) ht
      exact hpack.andThen (fun _ => id) fun t ht => fdecBody_counts ht x

theorem decBody_counts {s : State} (h : CountsOk s) : (decBody s).Ends CountsOk := by
  have hwalk := (buildBody_counts h).andThen (fun _ => id) fun t ht =>
    (walkLoop_ends (bitsLeft t + 1) t).mono fun _ hu =>
      ht.congr (CommandFrame.keeps_table (i := .step) hu.1 (by decide))
  exact hwalk.andThen (fun _ => id) fun t ht => emitBody_counts ht

theorem drunLoop_counts (k : Nat) {s : State} (h : CountsOk s) : (drunLoop k s).Ends CountsOk := by
  induction k generalizing s with
  | zero =>
    unfold drunLoop
    split
    · exact h
    · trivial
  | succ k ih =>
    unfold drunLoop
    split
    · exact h
    · exact (decBody_counts h).andThen (fun _ => id) fun t ht => ih ht

/-- Every command ends with the counters right, a fault of its own included. -/
theorem bodyOf_counts (i : Instr) {s : State} (h : CountsOk s) : (bodyOf i s).Ends CountsOk := by
  cases i with
  | clr => exact counts_replicate
  | fld x v => exact setF_countsOk h x v
  | finc x => exact fincBody_counts h x
  | fdec x => exact fdecBody_counts h x
  | emit => exact emitBody_counts h
  | enc x => exact encBody_counts h x
  | dec => exact decBody_counts h
  | drun => exact drunLoop_counts _ h
  | frd | build | xcode | pack | flush | step => exact bodyOf_counts_of_not_writer (by simp [Instr.opcode]) h

/-- What a body ends with is true of the next state, when entering a fault does not touch it. -/
theorem Result.Ends.of_outcome {R : State → Prop} (hfault : ∀ c info u, R u → R (enterFault c info u))
    {t : State} : ∀ {r : Result}, r.Ends R → r.outcome = .next t → R t
  | .done _, h, ht => by cases ht; exact h
  | .raised _, ⟨c, info, u, hu, he⟩, ht => by cases ht; exact he ▸ hfault c info u hu

theorem exec_counts {i : Instr} {s t : State} (h : CountsOk s) (he : exec i s = .next t) : CountsOk t := by
  by_cases hi : i = .clr
  · subst hi; cases he; exact counts_replicate
  · cases hf : s.fault with
    | true => rw [exec_of_fault hf hi] at he; cases he; exact h
    | false =>
      rw [exec_of_no_fault hf] at he
      exact (bodyOf_counts i h).of_outcome (fun _ _ _ hu => hu) he

/-- Settles O20: the command executed keeps the counters, and nothing else of a step touches them; both are zero exactly
when no symbol is live. -/
theorem stepKeepsTheCounters : Obligations.StepKeepsTheCounters := by
  refine ⟨fun s t h hstep => ?_, fun s h => (live_eq_zero_iff h).trans (total_eq_zero_iff h).symm⟩
  cases step_cases hstep with
  | idle hw ht => exact ht ▸ h
  | legal w i hw hd he => exact exec_counts (s := advance s) h he
  | refused w hw hf ht => exact ht ▸ h
  | illegal w hw hf ht => exact ht ▸ h

/-- `EMPTY` is 1 exactly when every entry is 0 (R28, R115). -/
theorem emptyFlag_iff_table {s : State} (h : CountsOk s) : emptyFlag s = true ↔ ∀ x, freqOf s x = 0#64 := by
  rw [emptyFlag, beq_iff_eq, total_eq_zero_iff h]
  constructor
  · intro hlive x
    by_contra hx
    exact liveCount_pos_of_freqOf hx hlive
  · intro hall
    by_contra hlive
    obtain ⟨x, hx⟩ := exists_live hlive
    exact hx (hall x)

/-! ### The four commands (R111 to R114) -/

/-- Settles O25: `FLD` is `SetF`. -/
theorem fldLoadsTheEntry : Obligations.FldLoadsTheEntry := fun s x v hf hk =>
  ⟨setF s x v, exec_of_no_fault hf (.fld x v), setF_writes hk x v, setF_countsOk hk x v⟩

/-- Settles O28: the body of `FRD` is one assignment. -/
theorem frdReadsTheEntry : Obligations.FrdReadsTheEntry := fun _ x hf => exec_of_no_fault hf (.frd x)

/-- A count is all ones exactly at its greatest value. -/
theorem eq_allOnes_iff {v : Count} : v = BitVec.allOnes 64 ↔ v.toNat = 2 ^ 64 - 1 := by
  rw [BitVec.toNat_eq, BitVec.toNat_allOnes]

/-- One occurrence counted up (R112). -/
theorem count_up {v : Count} (h : v.toNat ≠ 2 ^ 64 - 1) : (v + 1#64).toNat = v.toNat + 1 := by
  have := v.isLt
  rw [BitVec.toNat_add, BitVec.toNat_ofNat]; omega

section Commands

variable {s : State} {x : Symbol} (hf : s.fault = false)
include hf

theorem exec_finc_overflow (hx : (freqOf s x).toNat = 2 ^ 64 - 1) :
    exec (.finc x) s = .next (enterFault .freqOverflow (x.setWidth 16) s) := by
  rw [exec_of_no_fault hf, bodyOf, fincBody, if_pos (eq_allOnes_iff.2 hx)]
  rfl

theorem exec_finc (hx : (freqOf s x).toNat ≠ 2 ^ 64 - 1) :
    exec (.finc x) s = .next (setF s x (freqOf s x + 1#64)) := by
  rw [exec_of_no_fault hf, bodyOf, fincBody, if_neg (mt eq_allOnes_iff.1 hx)]
  rfl

theorem exec_fdec_absent (hx : freqOf s x = 0#64) :
    exec (.fdec x) s = .next (enterFault .absentSymbol (x.setWidth 16) s) := by
  rw [exec_of_no_fault hf, bodyOf, fdecBody, if_pos hx]
  rfl

theorem exec_fdec (hx : freqOf s x ≠ 0#64) : exec (.fdec x) s = .next (setF s x (freqOf s x - 1#64)) := by
  rw [exec_of_no_fault hf, bodyOf, fdecBody, if_neg hx]
  rfl

end Commands

/-- Settles O26: below the greatest count the new count is one higher, and the rest is `SetF`. -/
theorem fincCountsOneUp : Obligations.FincCountsOneUp := by
  refine fun s x hf hk => ⟨exec_finc_overflow hf, fun hx => ?_⟩
  have hw := setF_writes hk x (freqOf s x + 1#64)
  have hup := count_up hx
  have htotal : (setF s x (freqOf s x + 1#64)).total.toNat = s.total.toNat + 1 := by
    have := hw.total
    omega
  refine ⟨_, _, exec_finc hf hx, hw, hup, htotal, ?_⟩
  rw [Bool.eq_false_iff, ne_eq, emptyFlag_iff]
  omega

/-- Settles O27: above zero the new count is one lower, and the rest is `SetF`. -/
theorem fdecCountsOneDown : Obligations.FdecCountsOneDown := by
  refine fun s x hf hk => ⟨exec_fdec_absent hf, fun hx => ?_⟩
  have hw := setF_writes hk x (freqOf s x - 1#64)
  have hdown := count_off hx
  have htotal : (setF s x (freqOf s x - 1#64)).total.toNat + 1 = s.total.toNat := by
    have := hw.total
    omega
  exact ⟨_, _, exec_fdec hf hx, hw, hdown, htotal, emptyFlag_iff_table (setF_countsOk hk x _)⟩

/-! ### The pre-scan (R112, R118) -/

/-- `FINC` for every byte of a list raises each entry by the byte's count in the list, as long as none overflows. -/
theorem execAll_finc (bytes : List Byte) {s : State} (hf : s.fault = false) (hk : CountsOk s)
    (hlt : ∀ x, (freqOf s x).toNat + bytes.count x < 2 ^ 64) :
    ∃ t, execAll (bytes.map Instr.finc) s = .next t ∧ t.fault = false ∧ CountsOk t ∧
      ∀ x, (freqOf t x).toNat = (freqOf s x).toNat + bytes.count x := by
  induction bytes generalizing s with
  | nil => exact ⟨s, rfl, hf, hk, fun x => rfl⟩
  | cons b bytes ih =>
    have hb : (freqOf s b).toNat ≠ 2 ^ 64 - 1 := by
      have := hlt b
      rw [List.count_cons_self] at this
      omega
    have hentry : ∀ x, (freqOf (setF s b (freqOf s b + 1#64)) x).toNat + bytes.count x =
        (freqOf s x).toNat + (b :: bytes).count x := by
      intro x
      rw [freqOf_setF]
      split
      · next hx => rw [hx, count_up hb, List.count_cons_self]; omega
      · next hx => rw [List.count_cons_of_ne (Ne.symm hx)]
    obtain ⟨t, ht, htf, htk, htx⟩ := ih (s := setF s b (freqOf s b + 1#64)) hf (setF_countsOk hk b _) fun x => by
      rw [hentry]; exact hlt x
    refine ⟨t, ?_, htf, htk, fun x => by rw [htx, hentry]⟩
    rw [List.map_cons, execAll_cons _ (exec_finc hf hb), ht]

/-- A table is the table of counts of a list when each entry is its byte's count. -/
theorem freq_eq_countTable {bytes : List Byte} {t : State} (h : ∀ x, (freqOf t x).toNat = bytes.count x) :
    t.freq = countTable bytes := by
  have hb : ∀ b, bytes.count b < 2 ^ 64 := fun b => h b ▸ (freqOf t b).isLt
  refine Vector.ext fun i hi => BitVec.eq_of_toNat_eq ?_
  rw [countTable_get bytes hb i hi, ← h]
  simp only [freqOf, BitVec.toNat_ofNat, Nat.mod_eq_of_lt hi]

/-- Settles O29: from the all-zero table the entries are the counts of `execAll_finc`, and `TOTAL` is their sum. -/
theorem preScanCountsTheInput : Obligations.PreScanCountsTheInput := by
  intro bytes s hb hf hk hzero
  have hz : ∀ x, (freqOf s x).toNat = 0 := fun x => by rw [hzero x]; rfl
  obtain ⟨t, ht, htf, htk, htx⟩ := execAll_finc bytes hf hk fun x => by rw [hz, Nat.zero_add]; exact hb x
  have hfreq : t.freq = countTable bytes := freq_eq_countTable fun x => by rw [htx, hz, Nat.zero_add]
  refine ⟨t, ht, htf, hfreq, ?_, htk⟩
  rw [htk.1, hfreq, sum_countTable bytes hb]

end Sys2Proof.Machine
end

section
/-!
The tree builder (spec 41_tree_builder.md R120 to R134): what `Insert`, the leaf loop and a merge pass do, what a
`BUILD` that completes leaves, the one-leaf tree with its one code and its one missing child, and the statements O30
to O38 and O51.
-/

namespace Sys2Proof.Machine

/-! ### Insert (R121) -/

/-- The order `Q` is kept in: no entry has a greater frequency than one before it. -/
def Descending (nodes : Vector Node 511) (q : List NodeIx) : Prop :=
  q.Pairwise fun a b => (nodeFreq nodes b).toNat ≤ (nodeFreq nodes a).toNat

/-- In a descending sequence the entries of greater or equal frequency stand in front of the others, and `Insert` puts
the node between the two parts. -/
theorem insertNode_split {nodes : Vector Node 511} (n : NodeIx) {q : List NodeIx} (hq : Descending nodes q) :
    ∃ before after, q = before ++ after ∧ insertNode nodes n q = before ++ n :: after ∧
      (∀ m ∈ before, (nodeFreq nodes n).toNat ≤ (nodeFreq nodes m).toNat) ∧
      ∀ m ∈ after, (nodeFreq nodes m).toNat < (nodeFreq nodes n).toNat := by
  induction q with
  | nil => exact ⟨[], [], rfl, rfl, by simp, by simp⟩
  | cons m rest ih =>
    obtain ⟨hm, hrest⟩ := List.pairwise_cons.1 hq
    by_cases hle : (nodeFreq nodes n).toNat ≤ (nodeFreq nodes m).toNat
    · obtain ⟨before, after, rfl, hins, hbefore, hafter⟩ := ih hrest
      refine ⟨m :: before, after, rfl, ?_, List.forall_mem_cons.2 ⟨hle, hbefore⟩, hafter⟩
      rw [insertNode, if_pos hle, hins, List.cons_append]
    · refine ⟨[], m :: rest, rfl, ?_, by simp, List.forall_mem_cons.2 ⟨by omega, fun k hk => ?_⟩⟩
      · rw [insertNode, if_neg hle, List.nil_append]
      · have := hm k hk
        omega

/-- A node between the greater or equal entries and the smaller ones leaves the sequence in order. -/
theorem Descending.insert_between {nodes : Vector Node 511} {n : NodeIx} {before after : List NodeIx}
    (hq : Descending nodes (before ++ after))
    (hbefore : ∀ m ∈ before, (nodeFreq nodes n).toNat ≤ (nodeFreq nodes m).toNat)
    (hafter : ∀ m ∈ after, (nodeFreq nodes m).toNat < (nodeFreq nodes n).toNat) :
    Descending nodes (before ++ n :: after) := by
  obtain ⟨hb, ha, hba⟩ := List.pairwise_append.1 hq
  refine List.pairwise_append.2 ⟨hb, List.pairwise_cons.2 ⟨fun m hm => (hafter m hm).le, ha⟩, fun m hm => ?_⟩
  exact List.forall_mem_cons.2 ⟨hbefore m hm, hba m hm⟩

/-- Settles O35: the split of `insertNode_split`, and the order around the new entry. -/
theorem insertGoesBehindEquals : Obligations.InsertGoesBehindEquals := by
  intro nodes n q hq
  obtain ⟨before, after, rfl, hins, hbefore, hafter⟩ := insertNode_split n hq
  exact ⟨before, after, rfl, hins, hbefore, hafter, hins ▸ Descending.insert_between hq hbefore hafter⟩

/-! ### The leaf loop (R123, R129) -/

/-- After the leaf loop `Q` lists the leaf slots of the live symbols, each once. -/
theorem addLeaves_q_perm (s : State) : (addLeaves s).q.Perm ((liveSymbols s.freq).map leafSlot) := by
  obtain ⟨ts, -, hf, -, -, -, hleaf⟩ := addLeaves_forest s
  have hslots : ts.flatMap STree.slots = ts.map STree.slot := by
    rw [List.map_eq_flatMap]
    refine List.flatMap_congr fun u hu => ?_
    obtain ⟨x, f, rfl⟩ := hleaf u hu
    rfl
  have hw : writtenSlots (liveSymbols s.freq) 0 = (liveSymbols s.freq).map leafSlot := List.append_nil _
  rw [hf.q_eq, ← hslots, ← hw]
  exact hf.perm

/-- The order of the leaves in `Q`: descending count, then ascending symbol. -/
theorem addLeaves_q_order (s : State) :
    (addLeaves s).q.Pairwise fun a b => ∀ x y, a = leafSlot x → b = leafSlot y →
      (freqOf s y).toNat < (freqOf s x).toNat ∨ (freqOf s y = freqOf s x ∧ x.toNat < y.toNat) := by
  obtain ⟨ts, rfl, hf, -⟩ := addLeaves_forest s
  have horder := leafForest_order _ [] List.Pairwise.nil (liveEntries_sorted s.freq) (by simp)
  rw [hf.q_eq, List.pairwise_map]
  refine horder.imp_of_mem fun {u v} hu hv huv x y hx hy => ?_
  obtain ⟨x', -, rfl⟩ := (mem_leafForest_iff s.freq u).1 hu
  obtain ⟨y', -, rfl⟩ := (mem_leafForest_iff s.freq v).1 hv
  obtain rfl := leafSlot_injective hx
  obtain rfl := leafSlot_injective hy
  exact (huv _ _ _ _ rfl rfl).imp_right fun ⟨hcount, hlt⟩ => ⟨BitVec.eq_of_toNat_eq hcount.symm, hlt⟩

/-- Settles O36: the entries are those of `addLeaves_q_perm`, their order that of `addLeaves_q_order`. -/
theorem leavesStandInOrder : Obligations.LeavesStandInOrder := by
  intro s
  have hperm := addLeaves_q_perm s
  refine ⟨fun n => ?_, ?_, ?_, addLeaves_q_order s⟩
  · rw [hperm.mem_iff, List.mem_map]
    exact exists_congr fun x => and_congr (mem_liveSymbols s.freq x) eq_comm
  · exact hperm.nodup_iff.2 ((liveSymbols_nodup s.freq).map leafSlot_injective)
  · rw [hperm.length_eq, List.length_map, length_liveSymbols]

/-! ### The merge loop (R125) -/

theorem mergeLoop_one {b : Builder} {n : NodeIx} (hq : b.q = [n]) (k : Nat) : mergeLoop k b = b := by
  cases k with
  | zero => rfl
  | succ k => simp [mergeLoop, hq]

theorem mergeLoop_pass {b : Builder} {front : List NodeIx} {a z : NodeIx} (hq : b.q = front ++ [a, z]) (k : Nat) :
    mergeLoop (k + 1) b = mergeLoop k (mergePass b front a z) := by
  rw [mergeLoop]
  simp [hq]

/-- The arena after a pass: the links of the two children, the new node, nothing else. -/
theorem nodeAt_mergePass {b : Builder} {a z : NodeIx} (ha : a ≠ nextSlot b) (hz : z ≠ nextSlot b)
    (hp : nextSlot b ≠ Config.null) (front : List NodeIx) (m : NodeIx) :
    nodeAt (mergePass b front a z).nodes m =
      if m = a ∨ m = z then (nodeAt b.nodes m).map fun nd => { nd with parent := nextSlot b }
      else if m = nextSlot b then some (innerNode (nodeFreq b.nodes a + nodeFreq b.nodes z) a z)
      else nodeAt b.nodes m := by
  simp only [mergePass, nodeAt_setParent, nodeAt_setNode _ _ _ hp]
  by_cases hmz : m = z
  · subst hmz
    by_cases hma : m = a
    · subst hma
      simp [hz, Function.comp_def]
    · simp [hma, hz]
  · by_cases hma : m = a
    · subst hma
      simp [hmz, ha]
    · simp [hmz, hma]

/-- Settles O38: one pass is `mergePass`, whose arena `nodeAt_mergePass` gives slot by slot. -/
theorem mergeTakesTheLastTwo : Obligations.MergeTakesTheLastTwo := by
  refine ⟨fun b k n s hq => ⟨mergeLoop_one hq k, by rw [rootOf, hq]; rfl⟩,
    fun b k front a z hq ha hz hap hzp hp haz => ?_⟩
  have hread := nodeAt_mergePass hap hzp hp front
  obtain ⟨na, hna⟩ := exists_nodeAt (nodes := b.nodes) ha
  obtain ⟨nz, hnz⟩ := exists_nodeAt (nodes := b.nodes) hz
  refine ⟨mergePass b front a z, mergeLoop_pass hq k, rfl, rfl, ?_, ⟨na, hna, ?_⟩, ⟨nz, hnz, ?_⟩,
    fun m hma hmz hmp => ?_⟩
  · rw [hread, if_neg (by simp [hap.symm, hzp.symm]), if_pos rfl]
    rfl
  · rw [hread, if_pos (Or.inl rfl), hna]
    rfl
  · rw [hread, if_pos (Or.inr rfl), hnz]
    rfl
  · rw [hread, if_neg (by simp [hma, hmz]), if_neg hmp]

/-! ### A `BUILD` that completes (R120 to R128, R134) -/

/-- With exact counters `LIVE` says whether a symbol is live. -/
theorem CountsOk.live_ne_zero {s : State} (h : CountsOk s) (hlive : s.live ≠ 0#9) : liveCount s.freq ≠ 0 :=
  mt (live_eq_zero_iff h).2 hlive

/-- A built tree's cursor is on its root, which is no leaf. -/
theorem HasTree.not_atLeaf {s : State} {t : STree} (h : HasTree s t) (hcur : s.cur = s.root) : atLeafFlag s = false := by
  rw [Bool.eq_false_iff, ne_eq, atLeafFlag_iff, hcur]
  rintro ⟨-, nd, hnd, hleaf⟩
  obtain ⟨nd', hnd', hinternal, -⟩ := h.root_internal
  obtain rfl : nd = nd' := Option.some.inj (hnd.symm.trans hnd')
  rw [hinternal] at hleaf
  cases hleaf

/-- Settles O30: the arena holds the tree `t` of `builtState_hasTree`, and `t.erase` is `tree(F)`. -/
theorem buildMakesTheTree : Obligations.BuildMakesTheTree := by
  intro s hf hk hlive
  have hl := hk.live_ne_zero hlive
  obtain ⟨t, ht, hcur⟩ := builtState_hasTree hl
  refine ⟨builtState s, t.erase, exec_build hf hk hl, rfl, ht.tree, ?_, rfl, rfl, ht.not_atLeaf rfl, ?_,
    ht.leafValid⟩
  · rw [ht.root]
    exact ht.reps.represents ht.good
  · exact BitVec.eq_of_toNat_eq (ht.nleaf.trans hk.2.symm)

/-- Each link in a record of a tree is the parent link of its root, `NULL`, or a slot of the tree. -/
theorem STree.Reps.link_mem {nodes : Vector Node 511} {t : STree} {p : NodeIx} (h : t.Reps nodes p) {n : NodeIx}
    (hn : n ∈ t.slots) {nd : Node} (hnd : nodeAt nodes n = some nd) :
    ∀ m ∈ [nd.parent, nd.left, nd.right], m = p ∨ m = Config.null ∨ m ∈ t.slots := by
  induction t generalizing p with
  | leaf x f =>
    obtain rfl := List.mem_singleton.1 hn
    obtain rfl := Option.some.inj (hnd.symm.trans h)
    simp [leafRecord]
  | two k l r f ihl ihr =>
    obtain ⟨hk, hl, hr⟩ := h
    simp only [slots, List.mem_cons, List.mem_append] at hn
    rcases hn with rfl | hn | hn
    · obtain rfl := Option.some.inj (hnd.symm.trans hk)
      simp [innerRecord, slots, l.slot_mem_slots, r.slot_mem_slots]
    · exact fun m hm => by rcases ihl hl hn m hm with rfl | hm | hm <;> simp [slots, hm]
    · exact fun m hm => by rcases ihr hr hn m hm with rfl | hm | hm <;> simp [slots, hm]
  | one k l f ih =>
    obtain ⟨hk, hl⟩ := h
    simp only [slots, List.mem_cons] at hn
    rcases hn with rfl | hn
    · obtain rfl := Option.some.inj (hnd.symm.trans hk)
      simp [innerRecord, slots, l.slot_mem_slots]
    · exact fun m hm => by rcases ih hl hn m hm with rfl | hm | hm <;> simp [slots, hm]

/-- A build keeps every slot it does not write (R128). -/
theorem builtState_keeps {s : State} (h : liveCount s.freq ≠ 0) {n : NodeIx} (hn : ¬SlotWritten (builtState s) n) :
    nodeAt (builtState s).nodes n = nodeAt s.nodes n := by
  obtain ⟨t, ht, -⟩ := builtState_hasTree h
  obtain ⟨u, hu⟩ := buildArena_built s h
  exact hu.keep n (mt (mem_written_iff ht.nint_le n).1 hn)

/-- Settles O32: the counts are those of the tree, the slots written are its slots, and its links stay among them. -/
theorem buildWritesOnlyItsSlots : Obligations.BuildWritesOnlyItsSlots := by
  intro s hf hk hlive
  have hl := hk.live_ne_zero hlive
  obtain ⟨t, ht, -⟩ := builtState_hasTree hl
  have hnint := ht.nint
  have hroot := congrArg BitVec.toNat ht.root
  rw [ht.slot] at hroot
  refine ⟨builtState s, exec_build hf hk hl, by rw [hnint, ht.nleaf], by omega, ht.nint_le, hroot, ?_, rfl,
    fun n => builtState_keeps hl, fun n nd hn hnd => ?_⟩
  · exact (ht.mem_slots _).1 (ht.root ▸ t.slot_mem_slots)
  · have hlink := ht.reps.link_mem ((ht.mem_slots n).2 hn) hnd
    have hwritten : ∀ m ∈ [nd.parent, nd.left, nd.right], m = Config.null ∨ SlotWritten (builtState s) m :=
      fun m hm => by rw [← ht.mem_slots]; exact (or_self_left ..).1 (hlink m hm)
    exact ⟨hwritten _ (by simp), hwritten _ (by simp), hwritten _ (by simp)⟩

/-- Settles O33: equal tables have one tree, and each arena holds it. -/
theorem buildDependsOnTheTableAlone : Obligations.BuildDependsOnTheTableAlone := by
  intro s s' hf hf' hk hk' hlive hfreq
  have hl := hk.live_ne_zero hlive
  have hl' : liveCount s'.freq ≠ 0 := hfreq ▸ hl
  obtain ⟨t, ht, -⟩ := builtState_hasTree hl
  obtain ⟨t', ht', -⟩ := builtState_hasTree hl'
  obtain rfl := ht.unique ht' hfreq
  have hfreq' : (builtState s).freq = (builtState s').freq := hfreq
  refine ⟨builtState s, builtState s', exec_build hf hk hl, exec_build hf' hk' hl', ?_, ?_, ?_, ?_, rfl, rfl,
    fun n hn => ht.reps.agree ht'.reps n ((ht.mem_slots n).2 hn)⟩
  · rw [ht.leafv, ht'.leafv, hfreq']
  · rw [ht.root, ht'.root]
  · exact BitVec.eq_of_toNat_eq (by rw [ht.nleaf, ht'.nleaf, hfreq'])
  · exact BitVec.eq_of_toNat_eq (by rw [ht.nint, ht'.nint, hfreq'])

/-! ### A `BUILD` with the tree valid, and one of the empty table (R120, R133) -/

/-- Two arenas with the same record in every slot are one arena. -/
theorem arena_ext {nodes nodes' : Vector Node 511} (h : ∀ n, nodeAt nodes n = nodeAt nodes' n) : nodes = nodes' := by
  refine Vector.ext fun i hi => ?_
  have hn := h (BitVec.ofNat 9 i)
  have hi9 : (BitVec.ofNat 9 i).toNat = i := by rw [BitVec.toNat_ofNat]; omega
  simpa [nodeAt, hi9, hi] using hn

/-- A valid tree is what a build makes of the table, slot by slot: built again, the arena is the same. -/
theorem TreeOk.rebuilt_nodes {s : State} (h : TreeOk s) : (builtState s).nodes = s.nodes := by
  refine arena_ext fun n => ?_
  by_cases hn : SlotWritten s n
  · exact (h.arena_eq n hn).symm
  · refine builtState_keeps h.some_live ?_
    rwa [SlotWritten, builtState_nint, ← h.nint_eq]

theorem TreeOk.rebuilt {s : State} (h : TreeOk s) (htv : s.tv = true) : builtState s = { s with cur := s.root } := by
  obtain ⟨t, ht, -⟩ := builtState_hasTree h.some_live
  have hframe : BuildFrame s (builtState s) := rfl
  have hnleaf : (builtState s).nleaf = s.nleaf := BitVec.eq_of_toNat_eq (ht.nleaf.trans h.nleaf_eq.symm)
  rw [hframe, h.rebuilt_nodes, hnleaf, builtState_leafv, ← h.leafv_eq, builtState_root, builtState_cur, ← h.root_eq,
    builtState_nint, ← h.nint_eq, builtState_tv, ← htv]

/-- Settles O34: `TreeOk.rebuilt`. -/
theorem rebuildResetsTheCursor : Obligations.RebuildResetsTheCursor := by
  intro s hs hf htv
  have hok := hs.tree htv
  rw [exec_build hf hs.counts hok.some_live, hok.rebuilt htv]

/-- Settles O31: the test of `BUILD` comes before its first write, and a valid tree has a live symbol. -/
theorem buildOfTheEmptyTable : Obligations.BuildOfTheEmptyTable := by
  intro s hs hf hlive
  refine ⟨?_, Bool.eq_false_iff.2 fun htv => (hs.tree htv).some_live ((live_eq_zero_iff hs.counts).1 hlive)⟩
  rw [exec_of_no_fault hf, bodyOf, buildBody, if_pos hlive]
  rfl

/-! ### The tree of one symbol (R124, R179) -/

/-- With one live symbol the tree is its leaf under the parent in slot 256. -/
theorem HasTree.eq_one_leaf {s : State} {t : STree} (h : HasTree s t) (h1 : liveCount s.freq = 1) {x : Symbol}
    (hx : freqOf s x ≠ 0#64) : t = .one 256#9 (.leaf x (freqOf s x).toNat) (freqOf s x).toNat := by
  obtain ⟨-, y, f, rfl⟩ := h.one_leaf h1
  obtain ⟨c, hc, -⟩ := h.exists_code hx
  obtain ⟨d, hd, -⟩ := (STree.code_one _ _ _ _ _).1 hc
  obtain ⟨rfl, -⟩ := (STree.code_leaf _ _ _ _).1 hd
  obtain ⟨-, rfl⟩ := h.mem_leaves (List.mem_singleton.2 rfl)
  rfl

theorem CountsOk.liveCount_one {s : State} (h : CountsOk s) (h1 : s.live = 1#9) : liveCount s.freq = 1 := by
  rw [← h.2, h1]
  rfl

/-- What a build of a table with the one live symbol `x` gives. -/
theorem builtState_one {s : State} (hk : CountsOk s) (h1 : s.live = 1#9) {x : Symbol} (hx : freqOf s x ≠ 0#64) :
    HasTree (builtState s) (.one 256#9 (.leaf x (freqOf s x).toNat) (freqOf s x).toNat) := by
  have hl := hk.liveCount_one h1
  obtain ⟨t, ht, -⟩ := builtState_hasTree (s := s) (by omega)
  exact ht.eq_one_leaf hl hx ▸ ht

/-- Settles O37: the two records of the tree of `builtState_one`. -/
theorem oneLeafTree : Obligations.OneLeafTree := by
  intro s x hf hk h1 hx
  have ht := builtState_one hk h1 hx
  have hcount : BitVec.ofNat 72 (freqOf s x).toNat = (freqOf s x).setWidth 72 := BitVec.ofNat_toNat 72 _
  have hl := hk.liveCount_one h1
  obtain ⟨hparent, hleaf⟩ := ht.reps
  refine ⟨builtState s, exec_build hf hk ht.live, ht.root, ?_, ?_, ?_, ?_⟩
  · exact BitVec.eq_of_toNat_eq (by rw [ht.nint, builtState_freq, hl]; rfl)
  · exact BitVec.eq_of_toNat_eq (ht.nleaf.trans hl)
  · rw [hparent, innerRecord, hcount]
    rfl
  · rw [← hcount]
    exact hleaf

/-- In a one-leaf tree a walk that begins with a 1 gets nowhere: the right child is missing. -/
theorem walkDown_one_true {nodes : Vector Node 511} {p n : NodeIx} {l : STree} {f : Nat}
    (h : (STree.one n l f).Reps nodes p) (bits : List Bool) : walkDown nodes n (true :: bits) = none := by
  simp [walkDown, h.1, innerRecord]

/-- A walk of `DEC` from the root of a one-leaf tree that takes a 1 first faults there, with just this bit taken. -/
theorem WalkFault.of_one_leaf {s s' : State} {r : Result} (h : WalkFault s s' r) {n : NodeIx} {l : STree} {f : Nat}
    {p : NodeIx} (ht : (STree.one n l f).Reps s.nodes p) (hcur : s.cur = n) {rest : List Bool}
    (hb : inputBits s = true :: rest) :
    Walked s s' ∧ inputBits s' = rest ∧ r = .raised (enterFault .nullChild (n.setWidth 16) s') := by
  subst hcur
  cases h with
  | underrun path hw hp hpath =>
    rw [← hpath, hb, walkDown_one_true ht] at hp
    cases hp
  | nullChild path hw hp hpath =>
    rw [hb] at hpath
    cases path with
    | nil =>
      have hstay : s.cur = s'.cur := Option.some.inj hp
      exact ⟨hw, (List.cons.inj hpath).2.symm, by rw [hstay]⟩
    | cons bit path =>
      obtain ⟨rfl, -⟩ := List.cons.inj hpath
      rw [walkDown_one_true ht] at hp
      cases hp

/-- Settles O51: the tree of `builtState_one` has one code, and its root no right child. -/
theorem oneSymbolIsOneZeroBit : Obligations.OneSymbolIsOneZeroBit := by
  intro s x rest hs hf h1 hx
  have ht := builtState_one hs.counts h1 hx
  obtain ⟨h, htree, hdec⟩ := decBody_spec hs.counts ht.live hs.unpacker
  obtain rfl : _ = h := Option.some.inj (ht.tree.symm.trans htree)
  refine ⟨⟨_, htree, by simp [STree.erase, treeCode]⟩, fun hb => ?_, fun hb => ?_⟩
  · rw [hb] at hdec
    obtain ⟨s', hw, -, hbits, -, -, hdone⟩ := hdec
    obtain ⟨-, -, -, -, -, -, hsout, -, -, -, -, hfault⟩ := emitted_walked hs hw hx
    refine ⟨emitted x s', ?_, hfault.trans hf, hsout, hbits⟩
    rw [exec_of_no_fault hf, bodyOf, hdone]
    rfl
  · rw [hb] at hdec
    obtain ⟨s', hfault⟩ := hdec
    obtain ⟨hw, hbits, hraised⟩ := hfault.of_one_leaf ht.reps ht.root hb
    refine ⟨enterFault .nullChild 256#16 s', ?_, rfl, rfl, rfl, ?_, ?_, hbits⟩
    · rw [exec_of_no_fault hf, bodyOf, hraised]
      rfl
    · exact (congrArg State.sout hw.eq :)
    · exact (congrArg State.freq hw.eq :)

end Sys2Proof.Machine
end

section
/-!
The code extractor (spec 42_code_extractor.md R140 to R142): when an `XCODE` completes and with which state, its two
faults, and the statements O39, O40 and O41.
-/

namespace Sys2Proof.Machine

/-! ### The ends of an `XCODE` (R140) -/

/-- In any state, an `XCODE` completes exactly when there is a tree, the symbol is in it, and the walk from its leaf
ends; the edges recorded on the way up are the code backwards. -/
theorem xcodeBody_eq_done_iff {x : Symbol} {s u : State} :
    xcodeBody x s = .done u ↔ s.tv = true ∧ leafValid s x = true ∧
      ∃ c : List Bool, edgesUp s.nodes Config.CODE_W (leafSlot x) = some c.reverse ∧ u = coded c s := by
  constructor
  · intro h
    unfold xcodeBody at h
    split at h
    · cases h
    rename_i htv
    split at h
    · cases h
    rename_i hv
    split at h
    · cases h
    rename_i edges hedges
    cases h
    refine ⟨by simpa using htv, by simpa using hv, edges.reverse, ?_, ?_⟩
    · rw [hedges, List.reverse_reverse]
    · rw [coded, List.reverse_reverse, List.length_reverse]
  · rintro ⟨htv, hv, c, hedges, rfl⟩
    rw [xcodeBody, if_neg (by simp [htv]), if_neg (by simp [hv]), hedges]
    simp [coded]

section Ends

variable {s : State} {x : Symbol} (hf : s.fault = false)
include hf

theorem exec_xcode_noTree (htv : s.tv = false) : exec (.xcode x) s = .next (enterFault .noTree 0#16 s) := by
  rw [exec_of_no_fault hf, bodyOf, xcodeBody, if_pos htv]
  rfl

theorem exec_xcode_absent (htv : s.tv = true) (hv : leafValid s x = false) :
    exec (.xcode x) s = .next (enterFault .absentSymbol (x.setWidth 16) s) := by
  rw [exec_of_no_fault hf, bodyOf, xcodeBody, if_neg (by simp [htv]), if_pos hv]
  rfl

/-- `XCODE` of a live symbol leaves its code in the valid tree. -/
theorem HasTree.exec_xcode {t : STree} (h : HasTree s t) (htv : s.tv = true) (hx : freqOf s x ≠ 0#64) :
    ∃ c, t.code x = some c ∧ 1 ≤ c.length ∧ c.length ≤ 255 ∧ exec (.xcode x) s = .next (coded c s) := by
  obtain ⟨c, hc, -, h1, h255⟩ := h.exists_code hx
  refine ⟨c, hc, h1, h255, ?_⟩
  rw [exec_of_no_fault hf, bodyOf, xcodeBody_done h htv hx hc h255]
  rfl

end Ends

/-- `CLEN` is the length of the code. -/
theorem coded_clen {c : List Bool} (h : c.length ≤ 255) (s : State) : (coded c s).clen.toNat = c.length := by
  rw [coded, BitVec.toNat_ofNat, Nat.mod_eq_of_lt (by omega)]

/-- The code of a symbol in the tree leads from `ROOT` down to the symbol's slot. -/
theorem HasTree.walkDown_code {s : State} {t : STree} (h : HasTree s t) {x : Symbol} {c : List Bool}
    (hc : t.code x = some c) : walkDown s.nodes s.root c = some (leafSlot x) := by
  have hwalk := Machine.walkDown_code h.reps hc []
  rwa [List.append_nil, ← h.root] at hwalk

/-- `ROOT` is as many parent links above a symbol's slot as its code has bits. -/
theorem HasTree.ancestor_code {s : State} {t : STree} (h : HasTree s t) {x : Symbol} {c : List Bool}
    (hc : t.code x = some c) : ancestor s.nodes c.length (leafSlot x) = some s.root := by
  rw [h.root]
  exact Machine.ancestor_code h.reps hc 0

/-- Settles O39: with a valid tree the code left is that of the symbol in the tree of the table, which the arena
holds. -/
theorem xcodeExtractsTheCode : Obligations.XcodeExtractsTheCode := by
  intro s x hs hf
  refine ⟨exec_xcode_noTree hf, exec_xcode_absent hf, fun htv hv => ?_⟩
  obtain ⟨t, ht⟩ := (hs.tree htv).hasTree
  obtain ⟨c, hc, h1, h255, hexec⟩ := ht.exec_xcode hf htv ((ht.leafValid x).1 hv)
  exact ⟨coded c s, c, hexec, rfl, ⟨t.erase, ht.tree, hc⟩, codeBits_coded h255 s, coded_clen h255 s,
    codeOk_coded h255 s, h1, h255, ht.ancestor_code hc, ht.walkDown_code hc⟩

/-- Settles O40: both codes are codes of one tree, in which a bit string leads to at most one leaf. -/
theorem codesArePrefixFree : Obligations.CodesArePrefixFree := by
  intro s t u x y hs hf htv hx hy hxy hex hey hprefix
  obtain ⟨tree, ht⟩ := (hs.tree htv).hasTree
  obtain ⟨c, hc, -, hc255, hcx⟩ := ht.exec_xcode hf htv hx
  obtain ⟨d, hd, -, hd255, hdy⟩ := ht.exec_xcode hf htv hy
  obtain rfl : coded c s = t := Host.Outcome.next.inj (hcx.symm.trans hex)
  obtain rfl : coded d s = u := Host.Outcome.next.inj (hdy.symm.trans hey)
  rw [codeBits_coded hc255, codeBits_coded hd255] at hprefix
  exact hxy (STree.code_prefix_free hc hd hprefix)

/-! ### `XCODE` repeated, and after a write of the table (R142) -/

/-- A completed `XCODE` changes nothing that an `XCODE` reads: after it one answers the state it would have answered
before. -/
theorem exec_xcode_after_xcode {s t u : State} {x y : Symbol} (hf : s.fault = false)
    (hy : exec (.xcode y) s = .next t) (ht : t.fault = false) (hx : exec (.xcode x) s = .next u)
    (hu : u.fault = false) : exec (.xcode x) t = .next u := by
  obtain ⟨-, -, d, -, rfl⟩ := xcodeBody_eq_done_iff.1 (exec_completed hy hf ht)
  obtain ⟨htv, hv, c, hedges, rfl⟩ := xcodeBody_eq_done_iff.1 (exec_completed hx hf hu)
  have hdone : xcodeBody x (coded d s) = .done (coded c s) := xcodeBody_eq_done_iff.2 ⟨htv, hv, c, hedges, rfl⟩
  rw [exec_of_no_fault ht, bodyOf, hdone]
  rfl

/-- A command that completed and changed the table, and a completed `FLD` also of the old count, leave `TV = 0` (R110,
R27). -/
theorem exec_write_drops_tree {i : Instr} {s t : State} (hs : Inv s) (hf : s.fault = false)
    (h : exec i s = .next t) (ht : t.fault = false) (hw : t.freq ≠ s.freq ∨ ∃ y v, i = .fld y v) : t.tv = false := by
  rcases hw with hne | hfld
  · rcases exec_tree_cases hs h with ⟨-, hfreq⟩ | htv | ⟨-, hfreq⟩ | ⟨-, hfault, -⟩ | ⟨-, hfault⟩
    · exact absurd hfreq hne
    · exact htv
    · exact absurd hfreq hne
    · rw [ht] at hfault; cases hfault
    · rw [ht] at hfault; cases hfault
  · exact bodyOf_done_tv hs (exec_completed h hf ht) (Or.inr (Or.inl hfld))

/-- A command that is not `CLR`, `XCODE` or `ENC` keeps `CODE` and `CLEN`, completed, faulted or refused (R20). -/
theorem exec_keeps_code {i : Instr} {s t : State} (h : exec i s = .next t) (hi : i.opcode ∉ [0x01#8, 0x11#8, 0x20#8]) :
    t.code = s.code ∧ t.clen = s.clen := by
  obtain ⟨u, hu, -, ht⟩ := exec_within h
  obtain ⟨hcode, hclen⟩ := hu.keeps_code hi
  exact ⟨(congrArg State.code ht :).trans hcode, (congrArg State.clen ht :).trans hclen⟩

/-- Settles O41: the repetition; no tree after a write of the table; the three writers do not reach the code. -/
theorem xcodeRepeats : Obligations.XcodeRepeats := by
  refine ⟨fun s t u x y hf hy ht hx hu => exec_xcode_after_xcode hf hy ht hx hu, fun i s t x hs hf h ht hw => ?_,
    fun s t y v h => ?_⟩
  · exact exec_xcode_noTree ht (exec_write_drops_tree hs hf h ht hw)
  · rcases h with h | h | h
    · exact exec_keeps_code h (by simp [Instr.opcode])
    · exact exec_keeps_code h (by simp [Instr.opcode])
    · exact exec_keeps_code h (by simp [Instr.opcode])

end Sys2Proof.Machine
end

section
/-!
The bit packer (43_bit_packer.md R150 to R153): the state `PACK` and `FLUSH` answer, the lazy push, the number of bits
packed, and the statements O42, O43 and O44.
-/

namespace Sys2Proof.Machine

theorem exec_pack {s : State} (hf : s.fault = false) : exec .pack s = .next (packed s) :=
  exec_of_no_fault hf .pack

theorem exec_flush {s : State} (hf : s.fault = false) : exec .flush s = .next (flushed s) := by
  rw [exec_of_no_fault hf, bodyOf, flushBody_eq]
  rfl

/-! ### The lazy push (R151, R152) -/

theorem packChunk_free (code : CodeReg) (len k : Nat) (p : Packer) :
    (packChunk code len k p).free.toNat = p.free.toNat - k := by
  rw [packChunk, BitVec.toNat_ofNat, Nat.mod_eq_of_lt]
  exact lt_of_le_of_lt (Nat.sub_le _ _) p.free.isLt

/-- A pass begins by pushing a full byte and ends with at least one bit in `PBUF`: a byte that is just full waits. -/
theorem packLoop_free_lt (code : CodeReg) : ∀ {fuel len : Nat} {p : Packer}, len ≤ fuel → PackerFine p →
    0 < len ∨ p.free.toNat < 8 → (packLoop code fuel len p).free.toNat < 8
  | 0, len, p, hle, _, h => by
    rw [packLoop]
    omega
  | fuel + 1, len, p, hle, hp, h => by
    unfold packLoop
    split
    · omega
    · obtain ⟨hfine, -, hpos, h8⟩ := pushIfFull_spec hp
      have hnext := (packChunk_spec hfine code (Nat.min_le_right len _) (Nat.min_le_left len _)).1
      refine packLoop_free_lt code (by omega) hnext (Or.inr ?_)
      rw [packChunk_free]
      omega

theorem clen_toNat_pos {s : State} (hc : s.clen ≠ 0#8) : 0 < s.clen.toNat :=
  Nat.pos_of_ne_zero fun h => hc (BitVec.eq_of_toNat_eq h)

theorem packed_free_lt {s : State} (hp : PackerOk s) (hc : s.clen ≠ 0#8) : (packed s).free.toNat < 8 :=
  packLoop_free_lt s.code (le_refl _) hp (Or.inl (clen_toNat_pos hc))

theorem packed_of_clen_zero {s : State} (hc : s.clen = 0#8) : packed s = s := by
  rw [packed, hc]
  rfl

theorem packed_frame (s : State) :
    packed s = { s with pbuf := (packed s).pbuf, free := (packed s).free, out := (packed s).out } := rfl

/-- Settles O42: the passes append the code (`packed_spec`), and the last of them leaves a bit in `PBUF`. -/
theorem packAppendsTheCode : Obligations.PackAppendsTheCode := by
  intro s hp hf
  obtain ⟨hok, hbits⟩ := packed_spec hp
  obtain ⟨pushed, hout⟩ := (packed_streams s).out
  exact ⟨packed s, pushed, exec_pack hf, packed_frame s, hok, hbits, hout.symm, packed_of_clen_zero, packed_free_lt hp⟩

/-! ### The number of bytes pushed (R151, R152) -/

theorem length_packedBits (s : State) : (packedBits s).length = 8 * s.out.length + (8 - s.free.toNat) := by
  rw [packedBits, List.length_append, length_flatMap_byteBits, List.length_take, byteBits_length,
    Nat.min_eq_left (Nat.sub_le _ _)]

theorem length_codeBits (s : State) : (codeBits s).length = s.clen.toNat := by
  rw [codeBits, List.length_map, List.length_range]

/-- `PACK` adds `CLEN` to the number of bits in `OUT` and `PBUF` together. -/
theorem packed_bit_count {s : State} (hp : PackerOk s) :
    8 * (packed s).out.length + (8 - (packed s).free.toNat) =
      8 * s.out.length + (8 - s.free.toNat) + s.clen.toNat := by
  rw [← length_packedBits, (packed_spec hp).2, List.length_append, length_packedBits, length_codeBits]

/-- Settles O43: with between one and eight bits left in `PBUF`, the number of bits fixes the number of bytes. -/
theorem packPushesTheFilledBytes : Obligations.PackPushesTheFilledBytes := by
  intro s hp hf hc
  have hcount := packed_bit_count hp
  have hlt := packed_free_lt hp hc
  have hpos := clen_toNat_pos hc
  have hle := hp.1
  refine ⟨packed s, exec_pack hf, by omega, fun hfull => ?_⟩
  have hlen : s.out.length = (packed s).out.length := by omega
  have hfree : (packed s).free.toNat = 0 := by omega
  exact ⟨((packed_streams s).out.eq_of_length hlen).symm, BitVec.eq_of_toNat_eq hfree⟩

/-! ### `FLUSH` (R153) -/

theorem flushed_of_pending {s : State} (h : s.free.toNat < 8) : flushed s = withPacker s (pushByte (packerOf s)) :=
  if_pos h

theorem flushed_of_not_pending {s : State} (h : ¬ s.free.toNat < 8) : flushed s = s := if_neg h

/-- Settles O44: `FLUSH` pushes the byte exactly when `PPEND = 1`; the free bits it pushes are zero (R150). -/
theorem flushPushesThePartialByte : Obligations.FlushPushesThePartialByte := by
  intro s hp hf
  obtain ⟨-, hfree, -⟩ := flushed_spec hp
  refine ⟨flushed s, exec_flush hf, flushed_frame s, fun hlt => ?_, fun h8 => flushed_of_not_pending (by omega), ?_⟩
  · rw [flushed_of_pending hlt]
    exact ⟨rfl, rfl, rfl, packerBits_flush hp⟩
  · rw [ppendFlag, hfree]
    rfl

end Sys2Proof.Machine
end

section
/-!
The bit unpacker and the tree walk (spec 44_bit_unpacker.md R160 to R163; 60_exceptions.md section 4): what `GetBit`
delivers, the ends of a `STEP` and of an `EMIT`, what a walk of `DEC` leaves when it faults, and the statements O12,
O45, O46 and O47.
-/

namespace Sys2Proof.Machine

/-! ### `GetBit` (R160) -/

theorem takeBit_eq (s : State) :
    takeBit s = (s.ubuf.getLsbD 7, { s with ubuf := s.ubuf <<< 1, ucnt := s.ucnt - 1#4 }) := by
  rw [takeBit, BitVec.msb_eq_getLsbD_last]

/-- With a bit to come, `GetBit` delivers it. -/
theorem exists_getBit {s : State} {bit : Bool} {rest : List Bool} (h8 : UnpackerOk s)
    (hb : inputBits s = bit :: rest) : ∃ u, getBit s = some (bit, u) ∧ inputBits u = rest := by
  cases hg : getBit s with
  | none => simp [(getBit_eq_none_iff h8).1 hg] at hb
  | some r =>
    obtain ⟨hr, -⟩ := getBit_cons h8 hg
    obtain ⟨hbit, hrest⟩ := List.cons.inj (hr.symm.trans hb)
    exact ⟨r.2, by rw [← hbit], hrest⟩

section Delivered

variable {s u : State} {bit : Bool} (h : getBit s = some (bit, u))
include h

/-- The bit comes from `UBUF` as it is, or as it is after a refill from `IN`. -/
theorem getBit_cases :
    (s.ucnt ≠ 0#4 ∧ takeBit s = (bit, u)) ∨
      (s.ucnt = 0#4 ∧ ∃ byte rest, s.inp = byte :: rest ∧ takeBit (refill byte rest s) = (bit, u)) := by
  unfold getBit at h
  split at h
  · next h0 =>
    split at h
    · cases h
    · next byte rest hi => exact Or.inr ⟨h0, byte, rest, hi, Option.some.inj h⟩
  · next h0 => exact Or.inl ⟨h0, Option.some.inj h⟩

/-- While `UBUF` holds a bit, it comes from there. -/
theorem getBit_of_buffered (h0 : s.ucnt ≠ 0#4) :
    bit = s.ubuf.getLsbD 7 ∧ u.ubuf = s.ubuf <<< 1 ∧ u.ucnt.toNat + 1 = s.ucnt.toNat ∧ u.inp = s.inp := by
  rcases getBit_cases h with ⟨-, ht⟩ | ⟨h0', -⟩
  · rw [takeBit_eq] at ht
    obtain ⟨rfl, rfl⟩ := Prod.mk.inj ht
    have hcount : (s.ucnt - 1#4).toNat + 1 = s.ucnt.toNat := by bv_omega
    exact ⟨rfl, rfl, hcount, rfl⟩
  · exact absurd h0' h0

/-- With `UBUF` used up, it comes from a fresh byte of `IN`. -/
theorem getBit_of_refill (h0 : s.ucnt = 0#4) :
    ∃ byte, s.inp = byte :: u.inp ∧ bit = byte.getLsbD 7 ∧ u.ubuf = byte <<< 1 ∧ u.ucnt = 7#4 := by
  rcases getBit_cases h with ⟨h0', -⟩ | ⟨-, byte, rest, hi, ht⟩
  · exact absurd h0 h0'
  · rw [takeBit_eq] at ht
    obtain ⟨rfl, rfl⟩ := Prod.mk.inj ht
    have hcount : 8#4 - 1#4 = 7#4 := by decide
    exact ⟨byte, hi, rfl, rfl, hcount⟩

/-- Nothing but the unpacker's side of `IN` changes; the cursor too stays. -/
theorem getBit_unpacker_frame : u = { s with ubuf := u.ubuf, ucnt := u.ucnt, inp := u.inp } := by
  rcases getBit_cases h with ⟨-, ht⟩ | ⟨-, byte, rest, -, ht⟩
  · exact (Prod.mk.inj ht).2 ▸ rfl
  · exact (Prod.mk.inj ht).2 ▸ rfl

end Delivered

/-! ### The ends of a `STEP` (R161) -/

section StepEnds

variable {s : State} (hf : s.fault = false)
include hf

theorem exec_step_noTree (htv : s.tv = false) : exec .step s = .next (enterFault .noTree 0#16 s) := by
  rw [exec_of_no_fault hf, bodyOf, stepBody, if_pos htv]
  rfl

variable (htv : s.tv = true) {nd : Node} (hn : nodeAt s.nodes s.cur = some nd)
include htv hn

theorem exec_step_badCursor (ht : nd.tag = .leaf) :
    exec .step s = .next (enterFault .badCursor (s.cur.setWidth 16) s) := by
  rw [exec_of_no_fault hf, bodyOf, stepBody, if_neg (by simp [htv])]
  simp only [hn, ht]
  rfl

variable (ht : nd.tag = .internal)
include ht

theorem exec_step_underrun (hg : getBit s = none) : exec .step s = .next (enterFault .inUnderrun 0#16 s) := by
  rw [exec_of_no_fault hf, bodyOf, stepBody_internal htv hn ht, hg]
  rfl

/-- On an internal node a delivered bit selects the edge. -/
theorem exec_step_edge_of_getBit {bit : Bool} {u : State} (hg : getBit s = some (bit, u)) :
    exec .step s = (followEdge nd bit u).outcome := by
  rw [exec_of_no_fault hf, bodyOf, stepBody_internal htv hn ht, hg]

end StepEnds

theorem followEdge_of_child {nd : Node} {bit : Bool} (hc : (if bit then nd.right else nd.left) ≠ Config.null)
    (u : State) : followEdge nd bit u = .done { u with cur := if bit then nd.right else nd.left } := if_neg hc

theorem followEdge_of_null {nd : Node} {bit : Bool} (hc : (if bit then nd.right else nd.left) = Config.null)
    (u : State) : followEdge nd bit u = .raised (enterFault .nullChild (u.cur.setWidth 16) u) := if_pos hc

/-- The internal node the cursor stands on is one a build made (R44 items 3 and 6). -/
theorem Inv.cursor_internalOk {s : State} (hs : Inv s) (htv : s.tv = true) {nd : Node}
    (hn : nodeAt s.nodes s.cur = some nd) (ht : nd.tag = .internal) : InternalOk s s.cur := by
  have hok := hs.tree htv
  obtain ⟨t, h⟩ := hok.hasTree
  obtain ⟨path, hpath⟩ := hok.cur_ok
  rcases h.slotWritten_of_walkDown hpath with ⟨x, hx, hcur⟩ | ⟨h1, h2⟩
  · obtain ⟨f, p, hleaf⟩ := h.leaf_record hx
    rw [hcur, hleaf] at hn
    cases hn
    cases ht
  · exact h.internalOk h1 h2

/-- An internal node has a left child, and lacks a right child only at the root of a one-leaf tree. -/
theorem InternalOk.children {s : State} {p : NodeIx} (h : InternalOk s p) {nd : Node}
    (hn : nodeAt s.nodes p = some nd) :
    nd.left ≠ Config.null ∧ (nd.right = Config.null → p = s.root ∧ s.nleaf = 1#9) := by
  obtain ⟨nd', l, hn', -, -, hleft, -, -, hright⟩ := h
  obtain rfl : nd' = nd := Option.some.inj (hn'.symm.trans hn)
  refine ⟨hleft, fun hnull => ?_⟩
  rcases hright with ⟨hne, -⟩ | ⟨h1, hp, hroot, -⟩
  · exact absurd hnull hne
  · exact ⟨hp.trans hroot.symm, h1⟩

/-- Settles O45: the bit is that of `GetBit`, and the edge it selects decides between the two ends. -/
theorem stepFollowsOneBit : Obligations.StepFollowsOneBit := by
  refine ⟨fun s nd bit rest h8 hf htv hn ht hb => ?_, fun s hf => exec_step_noTree hf,
    fun s nd hf htv hn => exec_step_badCursor hf htv hn, fun s nd hf htv hn ht h0 hi => ?_,
    fun s nd hs htv hn ht => (hs.cursor_internalOk htv hn ht).children hn⟩
  · obtain ⟨u, hg, hrest⟩ := exists_getBit h8 hb
    have hframe := getBit_unpacker_frame hg
    have hcur : u.cur = s.cur := (congrArg State.cur hframe :)
    have hexec := exec_step_edge_of_getBit hf htv hn ht hg
    refine ⟨u, hframe, hrest, getBit_of_buffered hg, getBit_of_refill hg, fun hc => ?_, fun hc => ?_⟩
    · rw [hexec, followEdge_of_child hc]
      rfl
    · rw [hexec, followEdge_of_null hc, hcur]
      rfl
  · exact exec_step_underrun hf htv hn ht (by rw [getBit, if_pos h0, hi])

/-! ### The ends of an `EMIT` (R162) -/

section EmitEnds

variable {s : State} (hf : s.fault = false)
include hf

theorem exec_emit_noTree (htv : s.tv = false) : exec .emit s = .next (enterFault .noTree 0#16 s) := by
  rw [exec_of_no_fault hf, bodyOf, emitBody, if_pos htv]
  rfl

variable (htv : s.tv = true) {nd : Node} (hn : nodeAt s.nodes s.cur = some nd)
include htv hn

theorem exec_emit_badCursor (ht : nd.tag = .internal) :
    exec .emit s = .next (enterFault .badCursor (s.cur.setWidth 16) s) := by
  rw [exec_of_no_fault hf, bodyOf, emitBody, if_neg (by simp [htv])]
  simp only [hn, ht]
  rfl

theorem exec_emit_leaf (ht : nd.tag = .leaf) (hx : freqOf s nd.sym ≠ 0#64) :
    exec .emit s = .next (emitted nd.sym s) := by
  rw [exec_of_no_fault hf, bodyOf, emitBody_leaf htv hn ht hx]
  rfl

end EmitEnds

/-- An `EMIT` writes the count of its symbol and nothing else of the table. -/
theorem emitted_writes {s : State} (hk : CountsOk s) (x : Symbol) :
    WritesCount { s with sym := x, sout := s.sout ++ [x] } x (freqOf s x - 1#64) (emitted x s) :=
  setF_writes (s := { s with sym := x, sout := s.sout ++ [x] }) hk x _

/-- Settles O46: a leaf under the cursor is that of a live symbol, so its count goes one down; the write drops the
tree. -/
theorem emitCountsTheSymbolOff : Obligations.EmitCountsTheSymbolOff := by
  refine fun s hs hf =>
    ⟨exec_emit_noTree hf, fun nd htv hn => exec_emit_badCursor hf htv hn, fun nd htv hn ht => ?_⟩
  have hx := (hs.cursor_leaf htv hn ht).2
  have hw := emitted_writes hs.counts nd.sym
  have hdown := count_off hx
  have htotal : (emitted nd.sym s).total.toNat + (freqOf s nd.sym).toNat =
      s.total.toNat + (freqOf s nd.sym - 1#64).toNat := hw.total
  exact ⟨_, _, exec_emit_leaf hf htv hn ht hx, hdown, hw, by omega, exec_emit_noTree (s := emitted nd.sym s) hf rfl⟩

/-! ### The walk law (R163) -/

theorem WalkFrame.nodes_eq {s t : State} (h : WalkFrame s t) : t.nodes = s.nodes := (congrArg State.nodes h :)

theorem WalkFrame.tv_eq {s t : State} (h : WalkFrame s t) : t.tv = s.tv := (congrArg State.tv h :)

theorem WalkFrame.fault_eq {s t : State} (h : WalkFrame s t) : t.fault = s.fault := (congrArg State.fault h :)

theorem atLeafFlag_of_leaf {s : State} {nd : Node} (htv : s.tv = true) (hn : nodeAt s.nodes s.cur = some nd)
    (ht : nd.tag = .leaf) : atLeafFlag s = true := (atLeafFlag_iff s).2 ⟨htv, nd, hn, ht⟩

theorem atLeafFlag_of_internal {s : State} {nd : Node} (hn : nodeAt s.nodes s.cur = some nd)
    (ht : nd.tag = .internal) : atLeafFlag s = false := by
  simp [atLeafFlag, hn, ht]

/-- From the root of the tree, the `STEP`s along the code of a symbol lead to its leaf. -/
theorem HasTree.steps_code {s : State} {t : STree} (h : HasTree s t) (hs : UnpackerOk s) (hf : s.fault = false)
    (htv : s.tv = true) (hcur : s.cur = s.root) {x : Symbol} {c rest : List Bool} (hc : IsCode s.freq x c)
    (hb : inputBits s = c ++ rest) : StepsFollow s x c rest := by
  obtain ⟨tree, htree, hcode⟩ := hc
  obtain rfl : t.erase = tree := Option.some.inj (h.tree.symm.trans htree)
  exact Machine.steps_code t Config.null s x c rest h.reps (hcur.trans h.root) htv hf hs hcode hb

/-- Settles O47: the `STEP`s follow the code in the tree that the arena holds, whose nodes on the way are internal. -/
theorem walkFollowsTheCode : Obligations.WalkFollowsTheCode := by
  intro s x c rest hs hf htv hcur hx hc hb
  obtain ⟨t, h⟩ := (hs.tree htv).hasTree
  obtain ⟨⟨u, hexec, hw, hleaf, hrest, -⟩, hfewer⟩ := h.steps_code hs.unpacker hf htv hcur hc hb
  refine ⟨⟨u, hexec, hw, hleaf, ?_, hrest⟩, fun k hk => ?_⟩
  · obtain ⟨f, p, hrecord⟩ := h.leaf_record hx
    exact atLeafFlag_of_leaf (hw.tv_eq.trans htv) (by rw [hw.nodes_eq, hleaf, hrecord]) rfl
  · obtain ⟨v, nd, hexec, hw, hn, ht⟩ := hfewer k hk
    exact ⟨v, hexec, hw.fault_eq.trans hf, atLeafFlag_of_internal hn ht⟩

/-! ### A walk of `DEC` that faults (R171, R197) -/

/-- The state in which the fault of a walk leaves the core: the cursor where the bits of the completed `STEP`s lead, and
either no bit left or one more, a 1, taken. -/
theorem WalkFault.raised_state {s s' t : State} (h : WalkFault s s' (.raised t)) :
    t = { s with cur := t.cur, ubuf := t.ubuf, ucnt := t.ucnt, inp := t.inp, fault := true, fcode := t.fcode,
                 finfo := t.finfo } ∧
      ∃ path, walkDown s.nodes s.cur path = some t.cur ∧
        ((t.fcode = 0x06#8 ∧ t.finfo = 0#16 ∧ inputBits s = path ∧ inputBits t = []) ∨
          (t.fcode = 0x07#8 ∧ t.finfo = t.cur.setWidth 16 ∧ inputBits s = path ++ true :: inputBits t)) := by
  cases h with
  | underrun path hw hp hb h0 =>
    exact ⟨congrArg (enterFault _ _) hw.eq, path, hp, Or.inl ⟨rfl, rfl, hb, h0⟩⟩
  | nullChild path hw hp hb =>
    exact ⟨congrArg (enterFault _ _) hw.eq, path, hp, Or.inr ⟨rfl, rfl, hb⟩⟩

/-- Settles O12: with a live symbol the `BUILD` of the `DEC` completes, and its fault is that of the walk from the
root. -/
theorem decFaultLeavesTheWalk : Obligations.DecFaultLeavesTheWalk := by
  intro s t hs hf hlive h ht
  rcases decBody_raised hs (exec_raised h hf ht) with ⟨h0, -⟩ | ⟨hl, s', hfault⟩
  · exact absurd h0 hlive
  · obtain ⟨hframe, path, hpath, hcause⟩ := hfault.raised_state
    exact ⟨builtState s, path, exec_build hf hs.counts hl, hf, rfl, hframe, hpath, hcause⟩

end Sys2Proof.Machine
end

section
/-!
The driver (spec 45_driver.md R170 to R177): the ends of `ENC`, `DEC` and `DRUN`, what each counts off the table, each
as a list of commands, the two sides together, and the statements O13, O48, O49, O50, O52, O53, O54, O55 and O56.
-/

namespace Sys2Proof.Machine

/-- A command whose body completes answers the state its body left. -/
theorem exec_of_done {i : Instr} {s t : State} (hf : s.fault = false) (h : bodyOf i s = .done t) :
    exec i s = .next t := by
  rw [exec_of_no_fault hf, h]
  rfl

/-- A command whose body raises a fault answers the state in which it is recorded. -/
theorem exec_of_raised {i : Instr} {s t : State} (hf : s.fault = false) (h : bodyOf i s = .raised t) :
    exec i s = .next t := by
  rw [exec_of_no_fault hf, h]
  rfl

/-! ### One occurrence counted off (R113, R177) -/

/-- Only a table that is not all zero has a tree (R134). -/
theorem liveCount_ne_zero_of_treeOf {freq : Vector Count 256} {h : HTree} (htree : treeOf freq = some h) :
    liveCount freq ≠ 0 := by
  intro h0
  rw [← length_liveSymbols, liveSymbols, List.length_map, List.length_eq_zero_iff] at h0
  rw [treeOf, leafTrees, h0] at htree
  cases htree

theorem sumOfCounts_countDown {freq : Vector Count 256} {x : Symbol} (hx : freq[x.toNat]'x.isLt ≠ 0#64) :
    sumOfCounts (countDown freq x) + 1 = sumOfCounts freq := by
  have hset := sumOfCounts_set freq x (freq[x.toNat]'x.isLt - 1#64)
  have hdown := count_off hx
  rw [countDown]
  omega

section CountedOff

variable {s t : State} {x : Symbol} (hx : freqOf s x ≠ 0#64) (h : t.freq = countDown s.freq x)
include hx h

theorem freqOf_countDown_self : (freqOf t x).toNat + 1 = (freqOf s x).toNat := by
  simpa using freqOf_countDown hx h x

theorem freqOf_countDown_of_ne {y : Symbol} (hy : y ≠ x) : freqOf t y = freqOf s y :=
  BitVec.eq_of_toNat_eq (by simpa [hy] using freqOf_countDown hx h y)

theorem freqOf_countDown_ne_iff (y : Symbol) : freqOf t y ≠ freqOf s y ↔ y = x := by
  refine ⟨fun hne => by_contra fun hy => hne (freqOf_countDown_of_ne hx h hy), ?_⟩
  rintro rfl heq
  have hself := freqOf_countDown_self hx h
  rw [heq] at hself
  omega

theorem total_countDown (hs : CountsOk s) (ht : CountsOk t) : t.total.toNat + 1 = s.total.toNat := by
  rw [hs.1, ht.1, h, sumOfCounts_countDown hx]

end CountedOff

/-! ### `ENC` (R170) -/

theorem IsCode.unique {freq : Vector Count 256} {x : Symbol} {c d : List Bool} (hc : IsCode freq x c)
    (hd : IsCode freq x d) : c = d := by
  obtain ⟨h, htree, hc⟩ := hc
  obtain ⟨h', htree', hd⟩ := hd
  obtain rfl : h = h' := Option.some.inj (htree.symm.trans htree')
  exact Option.some.inj (hc.symm.trans hd)

section EncEnds

variable {s : State} {x : Symbol} (hf : s.fault = false)
include hf

theorem exec_enc_emptyBuild (h0 : s.live = 0#9) : exec (.enc x) s = .next (enterFault .emptyBuild 0#16 s) := by
  rw [exec_of_no_fault hf, bodyOf, encBody, if_pos h0]
  rfl

theorem exec_enc_absent (h0 : s.live ≠ 0#9) (hx : freqOf s x = 0#64) :
    exec (.enc x) s = .next (enterFault .absentSymbol (x.setWidth 16) s) := by
  rw [exec_of_no_fault hf, bodyOf, encBody, if_neg h0, if_pos hx]
  rfl

/-- An `ENC` that completes had an occurrence to count off. -/
theorem freqOf_ne_zero_of_exec_enc {t : State} (h : exec (.enc x) s = .next t) (ht : t.fault = false) :
    freqOf s x ≠ 0#64 := by
  intro hx
  by_cases h0 : s.live = 0#9
  · rw [exec_enc_emptyBuild hf h0] at h
    cases h
    cases ht
  · rw [exec_enc_absent hf h0 hx] at h
    cases h
    cases ht

variable (hk : CountsOk s) (hx : freqOf s x ≠ 0#64)
include hk hx

/-- With an occurrence left `ENC` completes. -/
theorem exec_enc : ∃ c, IsCode s.freq x c ∧ c.length ≤ 255 ∧ exec (.enc x) s = .next (encoded x c s) := by
  obtain ⟨h, c, htree, hcode, -, h255, hdone⟩ := encBody_done hk hx
  exact ⟨c, ⟨h, htree, hcode⟩, h255, exec_of_done hf hdone⟩

/-- The four parts of an `ENC`, executed as commands, leave its state. -/
theorem execAll_encParts {c : List Bool} (hc : IsCode s.freq x c) :
    execAll [.build, .xcode x, .pack, .fdec x] s = .next (encoded x c s) := by
  have hl := liveCount_pos_of_freqOf hx
  obtain ⟨t, ht, -⟩ := builtState_hasTree hl
  obtain ⟨d, hd, -, -, hxcode⟩ := ht.exec_xcode (s := builtState s) hf rfl hx
  obtain rfl : d = c := IsCode.unique ⟨t.erase, ht.tree, hd⟩ hc
  have hpack : exec .pack (coded d (builtState s)) = .next (packed (coded d (builtState s))) := exec_pack hf
  have hfdec : exec (.fdec x) (packed (coded d (builtState s))) = .next (encoded x d s) := exec_fdec hf hx
  rw [execAll_cons _ (exec_build hf hk hl), execAll_cons _ hxcode, execAll_cons _ hpack, execAll_cons _ hfdec]
  rfl

end EncEnds

theorem encoded_freq (x : Symbol) (c : List Bool) (s : State) : (encoded x c s).freq = countDown s.freq x := rfl

theorem codeBits_encoded {c : List Bool} (h : c.length ≤ 255) (x : Symbol) (s : State) :
    codeBits (encoded x c s) = c := codeBits_coded h (builtState s)

/-- Settles O48: the two tests in front, and the four parts of `encoded`. -/
theorem encCodesTheSymbol : Obligations.EncCodesTheSymbol := by
  refine fun s x hs hf => ⟨exec_enc_emptyBuild hf, exec_enc_absent hf, fun hx => ?_⟩
  obtain ⟨c, hc, h255, hexec⟩ := exec_enc hf hs.counts hx
  have ht := hs.exec hexec
  have hfreq := encoded_freq x c s
  have hbits : packedBits (encoded x c s) = packedBits s ++ codeBits (coded c (builtState s)) :=
    (packed_spec (s := coded c (builtState s)) hs.packer).2
  rw [codeBits_coded h255] at hbits
  exact ⟨encoded x c s, builtState s, c, hexec, rfl, exec_build hf hs.counts (liveCount_pos_of_freqOf hx), rfl, rfl,
    rfl, rfl, rfl, rfl, hc, codeBits_encoded h255 x s, coded_clen h255 (builtState s), ht.code, ht.packer, hbits,
    (exec_streams hexec).out, freqOf_countDown_self hx hfreq, fun _ hy => freqOf_countDown_of_ne hx hfreq hy,
    ht.counts, rfl⟩

/-- Settles O53: `execAll_encParts`. -/
theorem encIsFourCommands : Obligations.EncIsFourCommands := by
  intro s x hs hf hx
  obtain ⟨c, hc, -, hexec⟩ := exec_enc hf hs.counts hx
  exact ⟨encoded x c s, hexec, hf, execAll_encParts hf hs.counts hx hc⟩

/-! ### `DEC` (R171) -/

theorem exec_dec_emptyBuild {s : State} (hf : s.fault = false) (h0 : s.live = 0#9) :
    exec .dec s = .next (enterFault .emptyBuild 0#16 s) := by
  rw [exec_of_no_fault hf, bodyOf, decBody, buildBody, if_pos h0]
  rfl

/-- With bits to come that lead to a leaf of the table's tree `DEC` completes. -/
theorem exec_dec {s : State} (hs : Inv s) (hf : s.fault = false) {h : HTree} (htree : treeOf s.freq = some h)
    {x : Symbol} {rest : List Bool} (hdec : treeDecode h (inputBits s) = some (x, rest)) :
    ∃ u, Walked (builtState s) u ∧ u.cur = leafSlot x ∧ inputBits u = rest ∧ freqOf s x ≠ 0#64 ∧
      exec .dec s = .next (emitted x u) := by
  obtain ⟨h', htree', hspec⟩ := decBody_spec hs.counts (liveCount_ne_zero_of_treeOf htree) hs.unpacker
  obtain rfl : h = h' := Option.some.inj (htree.symm.trans htree')
  rw [hdec] at hspec
  obtain ⟨u, hw, hcur, hrest, -, hx, hdone⟩ := hspec
  exact ⟨u, hw, hcur, hrest, hx, exec_of_done hf hdone⟩

theorem emitted_freq_eq {s u : State} (hw : Walked (builtState s) u) (x : Symbol) :
    (emitted x u).freq = countDown s.freq x := by
  have hfreq : u.freq = s.freq := (congrArg State.freq hw.eq :)
  rw [countDown, ← hfreq]
  rfl

/-- Settles O49: the state of `exec_dec`, whose fields are those of `emitted_walked`. -/
theorem decEmitsTheSymbol : Obligations.DecEmitsTheSymbol := by
  refine fun s hs hf => ⟨exec_dec_emptyBuild hf, fun h x rest htree hdec => ?_⟩
  obtain ⟨u, hw, hcur, hrest, hx, hexec⟩ := exec_dec hs hf htree hdec
  obtain ⟨hframe, hnodes, hleafv, hroot, hnleaf, hnint, hsout, hinp, hdown, hother, hcounts, -⟩ :=
    emitted_walked hs hw hx
  exact ⟨emitted x u, builtState s, hexec, hframe, exec_build hf hs.counts (liveCount_ne_zero_of_treeOf htree), hnodes,
    hleafv, hroot, hnleaf, hnint, hcur, rfl, hsout, hrest, hinp, hdown, hother, hcounts, rfl⟩

/-- The bits a walk takes on its way to a leaf are the code of the leaf's symbol. -/
theorem HasTree.code_of_decode {s : State} {t : STree} (h : HasTree s t) {bits rest : List Bool} {x : Symbol}
    (hdec : t.decode bits = some (x, rest)) :
    ∃ c, t.code x = some c ∧ bits = c ++ rest ∧ 1 ≤ c.length ∧ c.length ≤ 255 := by
  obtain ⟨c, hc, hbits⟩ := STree.decode_split h.slots_nodup hdec
  obtain ⟨d, hd, -, h1, h255⟩ := h.exists_code ((h.leaf_mem x).1 (STree.mem_slots_of_decode hdec))
  obtain rfl : d = c := Option.some.inj (hd.symm.trans hc)
  exact ⟨d, hd, hbits, h1, h255⟩

/-- The bits taken make the difference in the number of bits left. -/
theorem bitsLeft_of_taken {s t : State} {taken : List Bool} (hs : UnpackerOk s) (ht : UnpackerOk t)
    (h : inputBits s = taken ++ inputBits t) : bitsLeft s = bitsLeft t + taken.length := by
  rw [← inputBits_length s hs, ← inputBits_length t ht, h, List.length_append, Nat.add_comm]

/-- Settles O50: in the full tree of two or more symbols as many bits as it has inner nodes lead to a leaf. -/
theorem decCompletesOnEnoughBits : Obligations.DecCompletesOnEnoughBits := by
  intro s hs hf hlive hbits
  have hcount : s.live.toNat = liveCount s.freq := hs.counts.2
  obtain ⟨t, ht, -⟩ := builtState_hasTree (s := s) (by omega)
  have hinner : t.inner = max 1 (liveCount s.freq - 1) := ht.inner_eq.trans ht.nint
  have hfull : t.Full := by
    rcases ht.shape with ⟨h1, -⟩ | ⟨-, hfull, -⟩
    · have h1 : liveCount s.freq = 1 := h1
      omega
    · exact hfull
  obtain ⟨x, rest, hdec, -⟩ := STree.full_decode (bits := inputBits s) hfull (by
    rw [inputBits_length s hs.unpacker]; omega)
  obtain ⟨u, hw, -, hrest, hx, hexec⟩ := exec_dec hs hf ht.tree hdec
  have ht' := hs.exec hexec
  obtain ⟨c, -, htaken, h1, h255⟩ := ht.code_of_decode hdec
  have hrest' : inputBits (emitted x u) = rest := hrest
  rw [← hrest'] at htaken
  have hleft := bitsLeft_of_taken hs.unpacker ht'.unpacker htaken
  have hfault : (emitted x u).fault = s.fault := (congrArg State.fault hw.eq :)
  exact ⟨emitted x u, hexec, hfault.trans hf,
    total_countDown hx (emitted_freq_eq hw x) hs.counts ht'.counts, by omega, by omega⟩

/-! ### `DEC` and `DRUN` as lists of commands (R174) -/

/-- A walk of `DEC` that reaches a leaf is a number of `STEP`s, each of which takes a bit. -/
theorem execAll_steps_of_walkLoop : ∀ (k : Nat) {s u : State}, s.fault = false → walkLoop k s = .done u →
    ∃ d, execAll (List.replicate d .step) s = .next u ∧ bitsLeft s = bitsLeft u + d
  | k, s, u, hf, h => by
    unfold walkLoop at h
    split at h
    · cases h
    · split at h
      · cases h
        exact ⟨0, rfl, rfl⟩
      · match k, h with
        | k + 1, h =>
          obtain ⟨v, hstep, hloop⟩ := Result.andThen_eq_done h
          obtain ⟨d, hexec, hleft⟩ := execAll_steps_of_walkLoop k ((stepBody_frame hstep).fault_eq.trans hf) hloop
          have hbit := stepBody_bitsLeft hstep
          refine ⟨d + 1, ?_, by omega⟩
          rw [List.replicate_succ, execAll_cons _ (exec_of_done (i := .step) hf hstep), hexec]

/-- A `DEC` that completes is a `BUILD`, as many `STEP`s as it took bits, and an `EMIT`. -/
theorem execAll_decParts {s t : State} (hf : s.fault = false) (h : decBody s = .done t) :
    ∃ d, bitsLeft s = bitsLeft t + d ∧ execAll (.build :: (List.replicate d .step ++ [.emit])) s = .next t := by
  obtain ⟨u, h, hemit⟩ := Result.andThen_eq_done h
  obtain ⟨b, hbuild, hwalk⟩ := Result.andThen_eq_done h
  obtain rfl := buildBody_eq_done hbuild
  obtain ⟨d, hsteps, hleft⟩ := execAll_steps_of_walkLoop _ (s := builtState s) hf hwalk
  have hemit' : exec .emit u = .next t := exec_of_done ((walkLoop_frame _ hwalk).fault_eq.trans hf) hemit
  have hleft' : bitsLeft s = bitsLeft u + d := hleft
  refine ⟨d, by rw [(emitBody_bitsLeft hemit).1, hleft'], ?_⟩
  rw [execAll_cons _ (exec_of_done (i := .build) hf hbuild), execAll_append, hsteps]
  exact execAll_cons [] hemit'

/-- The number of bits a `DEC` took is the depth of the leaf it reached. -/
theorem decBody_done_depth {s t : State} (hs : Inv s) (h : decBody s = .done t) :
    ∃ d, 1 ≤ d ∧ d ≤ 255 ∧ ancestor t.nodes d t.cur = some t.root ∧ bitsLeft s = bitsLeft t + d := by
  obtain ⟨-, -, -, -, hlive, h', x, rest, htree, hdec, hx, hrest, u, hw, hcur, -, rfl⟩ := decBody_done_spec hs h
  obtain ⟨b, hb, -⟩ := builtState_hasTree (hs.counts.live_ne_zero hlive)
  obtain rfl : b.erase = h' := Option.some.inj (hb.tree.symm.trans htree)
  obtain ⟨c, hc, htaken, h1, h255⟩ := hb.code_of_decode hdec
  obtain ⟨-, hnodes, -, hroot, -⟩ := emitted_walked hs hw hx
  have hcur' : (emitted x u).cur = leafSlot x := hcur
  refine ⟨c.length, h1, h255, ?_, ?_⟩
  · rw [hnodes, hroot, hcur']
    exact hb.ancestor_code hc
  · rw [← hrest] at htaken
    exact bitsLeft_of_taken hs.unpacker (decBody_done_inv hs h).unpacker htaken

/-- A `DRUN` that completes ends with the empty table, after as many `DEC`s as `TOTAL` said. -/
theorem drunLoop_done : ∀ (k : Nat) {s t : State}, Inv s → s.fault = false → drunLoop k s = .done t →
    t.total = 0#72 ∧ execAll (List.replicate s.total.toNat .dec) s = .next t
  | k, s, t, hs, hf, h => by
    unfold drunLoop at h
    split at h
    · next h0 =>
      cases h
      exact ⟨h0, by rw [h0]; rfl⟩
    · match k, h with
      | k + 1, h =>
        obtain ⟨u, hdec, hloop⟩ := Result.andThen_eq_done h
        obtain ⟨hfault, htotal, -⟩ := decBody_done_spec hs hdec
        obtain ⟨h0, hexec⟩ := drunLoop_done k (decBody_done_inv hs hdec) (hfault.trans hf) hloop
        refine ⟨h0, ?_⟩
        rw [← htotal, List.replicate_succ, execAll_cons _ (exec_of_done (i := .dec) hf hdec), hexec]

/-- Settles O54: `execAll_decParts` with the depth of `decBody_done_depth`, and `drunLoop_done`. -/
theorem decAndDrunAreTheirCommands : Obligations.DecAndDrunAreTheirCommands := by
  refine ⟨fun s t hs hf h ht => ?_, fun s t hs hf h ht => (drunLoop_done _ hs hf (exec_completed h hf ht)).2⟩
  have hdone := exec_completed h hf ht
  obtain ⟨d, h1, h255, hdepth, hleft⟩ := decBody_done_depth hs hdone
  obtain ⟨d', hleft', hexec⟩ := execAll_decParts hf hdone
  obtain rfl : d' = d := by omega
  exact ⟨d', h1, h255, hdepth, hleft, hexec⟩

/-! ### The ends of `DRUN` (R172, R197) -/

/-- A `DRUN` that faults has a turn in progress, a `DEC` of a table that is not empty, that faults. -/
theorem exec_drun_faulted {s t : State} (hs : Inv s) (hf : s.fault = false) (h : exec .drun s = .next t)
    (ht : t.fault = true) :
    ∃ (k : Nat) (u : State), execAll (List.replicate k .dec) s = .next u ∧ u.fault = false ∧ Inv u ∧
      u.total ≠ 0#72 ∧ decBody u = .raised t ∧ u.total.toNat + k = s.total.toNat ∧
      u.sout.length = s.sout.length + k := by
  obtain ⟨k, u, hexec, huf, hu, hu0, hraised, htotal, hsout, -⟩ :=
    drunLoop_raised _ hs hf (Nat.lt_succ_self _) (exec_raised h hf ht)
  exact ⟨k, u, hexec, huf, hu, hu0, hraised, htotal, hsout⟩

/-- With symbols left the faults of a `DEC` are those of its walk. -/
theorem decBody_raised_fcode {s t : State} (hs : Inv s) (h0 : s.total ≠ 0#72) (h : decBody s = .raised t) :
    t.fcode = 0x06#8 ∨ t.fcode = 0x07#8 := by
  obtain ⟨u, hwalk⟩ := decBody_raised_walk hs (live_ne_zero hs h0) h
  obtain ⟨-, -, -, ⟨h6, -⟩ | ⟨h7, -⟩⟩ := hwalk.raised_state
  · exact Or.inl h6
  · exact Or.inr h7

/-- Settles O13: `exec_drun_faulted`. -/
theorem drunFaultIsThatOfATurn : Obligations.DrunFaultIsThatOfATurn := by
  intro s t hs hf h ht
  obtain ⟨k, u, hexec, huf, hu, hu0, hraised, htotal, hsout⟩ := exec_drun_faulted hs hf h ht
  exact ⟨k, u, hexec, huf, htotal, hsout, exec_of_raised huf hraised, decBody_raised_fcode hu hu0 hraised⟩

theorem exec_drun_empty {s : State} (hf : s.fault = false) (h0 : s.total = 0#72) : exec .drun s = .next s := by
  refine exec_of_done hf ?_
  rw [bodyOf, drunBody, drunLoop, if_pos h0]

/-- When the bits to come hold a symbol for every count, `DRUN` emits them and counts them all off. -/
theorem exec_drun {s : State} (hs : Inv s) (hf : s.fault = false) {xs : List Symbol} {rest : List Bool}
    (hdec : decodeSymbols s.total.toNat s.freq (inputBits s) = some (xs, rest)) :
    ∃ t, exec .drun s = .next t ∧ DecodeFrame s t ∧ t.sout = s.sout ++ xs ∧ inputBits t = rest ∧ t.total = 0#72 ∧
      (s.ucnt.toNat ≤ 7 → t.ucnt.toNat ≤ 7) := by
  have hspec := drunLoop_spec _ (bitsLeft s + 1) s hs.counts hs.unpacker rfl (Nat.lt_succ_self _)
  rw [← hs.counts.1, hdec] at hspec
  obtain ⟨t, hdone, hframe, hsout, h0, -, -, hrest, -, h7, -⟩ := hspec
  exact ⟨t, exec_of_done hf hdone, hframe, hsout, hrest, h0, h7⟩

/-- When they do not, `DRUN` faults. -/
theorem exec_drun_faults {s : State} (hs : Inv s) (hf : s.fault = false)
    (hdec : decodeSymbols s.total.toNat s.freq (inputBits s) = none) :
    ∃ t, exec .drun s = .next t ∧ t.fault = true := by
  have hspec := drunLoop_spec _ (bitsLeft s + 1) s hs.counts hs.unpacker rfl (Nat.lt_succ_self _)
  rw [← hs.counts.1, hdec] at hspec
  obtain ⟨t, hraised⟩ := hspec
  have hends := bodyOf_ends .drun s
  rw [show bodyOf .drun s = .raised t from hraised] at hends
  obtain ⟨c, info, u, -, rfl⟩ := hends
  exact ⟨_, exec_of_raised hf hraised, rfl⟩

theorem length_of_decodeSymbols {n : Nat} {freq : Vector Count 256} {bits rest : List Bool} {xs : List Symbol}
    (h : decodeSymbols n freq bits = some (xs, rest)) : xs.length = n := by
  induction n generalizing freq bits xs rest with
  | zero =>
    cases h
    rfl
  | succ n ih =>
    unfold decodeSymbols at h
    split at h
    · cases h
    · split at h
      · cases h
      · split at h
        · cases h
        · next hrest =>
          cases h
          rw [List.length_cons, ih hrest]

/-- Settles O52: the three ends of `DRUN`. -/
theorem drunDecodesToTheEnd : Obligations.DrunDecodesToTheEnd := by
  refine fun s hs hf => ⟨exec_drun_empty hf, fun xs rest hdec => ?_, fun hdec => ?_⟩
  · obtain ⟨t, hexec, hframe, hsout, hrest, h0, -⟩ := exec_drun hs hf hdec
    have ht := hs.exec hexec
    have hempty : emptyFlag t = true := beq_iff_eq.2 h0
    exact ⟨t, hexec, hframe, hsout, length_of_decodeSymbols hdec, hrest, (exec_streams hexec).inp, hempty,
      (emptyFlag_iff_table ht.counts).1 hempty, ht.no_tree_of_empty h0⟩
  · obtain ⟨t, hexec, ht⟩ := exec_drun_faults hs hf hdec
    obtain ⟨k, u, -, -, hu, hu0, hraised, -⟩ := exec_drun_faulted hs hf hexec ht
    exact ⟨t, hexec, ht, decBody_raised_fcode hu hu0 hraised⟩

/-! ### What each counts off (R177) -/

/-- A `DRUN` that faults has symbols left: its last turn counted none off. -/
theorem total_ne_zero_of_drun_faulted {s t : State} (hs : Inv s) (hf : s.fault = false)
    (h : exec .drun s = .next t) (ht : t.fault = true) : t.total ≠ 0#72 := by
  obtain ⟨k, u, -, -, hu, hu0, hraised, -⟩ := exec_drun_faulted hs hf h ht
  rw [ne_eq, total_eq_zero_iff (hs.exec h).counts, decBody_raised_freq hu hraised, ← total_eq_zero_iff hu.counts]
  exact hu0

/-- Settles O55: both leave the table counted down by one symbol; `drunLoop_done` and
`total_ne_zero_of_drun_faulted`. -/
theorem totalShrinksByOne : Obligations.TotalShrinksByOne := by
  refine ⟨fun s t x hs hf h ht => ?_, fun s t hs hf h ht => ?_, fun s t hs hf h => ⟨fun ht => ?_, fun h0 => ?_⟩⟩
  · have hx := freqOf_ne_zero_of_exec_enc hf h ht
    obtain ⟨c, -, -, hexec⟩ := exec_enc hf hs.counts hx
    obtain rfl : encoded x c s = t := Host.Outcome.next.inj (hexec.symm.trans h)
    have hfreq := encoded_freq x c s
    exact ⟨total_countDown hx hfreq hs.counts (hs.exec h).counts, x, freqOf_countDown_ne_iff hx hfreq⟩
  · obtain ⟨-, htotal, -, -, -, -, x, -, -, -, hx, -, u, hw, -, -, rfl⟩ :=
      decBody_done_spec hs (exec_completed h hf ht)
    exact ⟨htotal, x, freqOf_countDown_ne_iff hx (emitted_freq_eq hw x)⟩
  · exact (drunLoop_done _ hs hf (exec_completed h hf ht)).1
  · exact Bool.eq_false_iff.2 fun ht => total_ne_zero_of_drun_faulted hs hf h ht h0

/-! ### The two sides (R173) -/

/-- Settles O56: the decoder's walk reads the encoder's code in the tree of the same table, and `BUILD` of equal tables
makes one tree. -/
theorem bothSidesStayEqual : Obligations.BothSidesStayEqual := by
  intro e d x he hd hef hdf hfreq hx
  obtain ⟨c, hc, h255, hexec⟩ := exec_enc hef he.counts hx
  refine ⟨encoded x c e, hexec, hef, fun rest hbits => ?_⟩
  rw [codeBits_encoded h255] at hbits
  obtain ⟨h, htree, hcode⟩ := hc
  rw [hfreq] at htree
  obtain ⟨u, hw, -, hrest, hxd, hdexec⟩ := exec_dec hd hdf htree (by rw [hbits, treeDecode_code hcode])
  obtain ⟨-, hnodes, hleafv, hroot, hnleaf, hnint, hsout, -, -, -, -, hfault⟩ := emitted_walked hd hw hxd
  have hl := liveCount_pos_of_freqOf hx
  obtain ⟨b, b', hb, hb', hleafv', hroot', hnleaf', hnint', -, -, hslots⟩ := buildDependsOnTheTableAlone e d hef hdf
    he.counts hd.counts (mt (live_eq_zero_iff he.counts).1 hl) hfreq
  obtain rfl : builtState e = b := Host.Outcome.next.inj ((exec_build hef he.counts hl).symm.trans hb)
  obtain rfl : builtState d = b' :=
    Host.Outcome.next.inj ((exec_build hdf hd.counts (hfreq ▸ hl)).symm.trans hb')
  refine ⟨emitted x u, hdexec, hfault.trans hdf, rfl, hsout, hrest, ?_, hroot.trans hroot'.symm,
    hleafv.trans hleafv'.symm, hnint.trans hnint'.symm, hnleaf.trans hnleaf'.symm, fun n hn => ?_⟩
  · rw [emitted_freq_eq hw, encoded_freq, hfreq]
  · rw [hnodes]
    exact (hslots n hn).symm

end Sys2Proof.Machine
end

section
/-!
The runs of the two sides (spec 45_driver.md R173, R176, R178; 70_reset_and_hazards.md R238): the loops of the encoder
and of the decoder, each as a property of the state and of the commands still to come, and the statements O57 and O58.
-/

namespace Sys2Proof.Machine

/-! ### Loops over a list of commands (R24) -/

/-- A list of commands that each keep a property of the commands still to come completes. -/
theorem execAll_list {P : List Instr → State → Prop}
    (hstep : ∀ i is s, P (i :: is) s → ∃ t, exec i s = .next t ∧ P is t) (is : List Instr) {s : State} (hp : P is s) :
    ∃ t, execAll is s = .next t ∧ P [] t := by
  induction is generalizing s with
  | nil => exact ⟨s, rfl, hp⟩
  | cons i is ih =>
    obtain ⟨t, hexec, ht⟩ := hstep i is s hp
    obtain ⟨u, hrest, hu⟩ := ih ht
    exact ⟨u, by rw [execAll_cons _ hexec, hrest], hu⟩

/-- The whole run takes as many steps as there are words left. -/
theorem runAll_of_words {s : State} {ws : List CommandWord} (h : s.cmds.drop s.cmdIx = ws) :
    runAll s = runFor ws.length s := by
  rw [runAll, ← List.length_drop, h]

/-- In a run, such a list at the front of the commands left completes, and the run goes on with the others. -/
theorem runAll_list {P : List Instr → State → Prop} (hadv : ∀ is s, P is s → P is (advance s))
    (hstep : ∀ i is s, P (i :: is) s → ∃ t, exec i s = .next t ∧ P is t) {is : List Instr} {s : State}
    {ws : List CommandWord} (hd : s.cmds.drop s.cmdIx = is.map encode ++ ws) (hp : P is s) :
    ∃ t, runAll s = runAll t ∧ P [] t ∧ t.cmds.drop t.cmdIx = ws := by
  obtain ⟨t, hrun, ht, -, -, hws⟩ := run_list decode_encode hadv hstep is s ws hd hp
  refine ⟨t, ?_, ht, hws⟩
  rw [runAll_of_words hd, List.length_append, List.length_map, runFor_add _ hrun, runAll_of_words hws]

/-- The last command ends the run. -/
theorem runAll_last {s t : State} {i : Instr} (hd : s.cmds.drop s.cmdIx = [encode i])
    (h : exec i (advance s) = .next t) : runAll s = .next t ∧ runOver t = true := by
  obtain ⟨hcmds, hix⟩ := exec_keeps_list h
  constructor
  · rw [runAll_of_words hd]
    exact runFor_next 0 ((step_command decode_encode hd).trans h)
  · have hlen := congrArg List.length hd
    rw [List.length_drop, List.length_singleton] at hlen
    rw [runOver, hcmds, hix, decide_eq_true_iff, advance_cmds, advance_cmdIx]
    omega

/-! ### The encode loop (R170, R178) -/

/-- The encode loop on `xs`, begun in `s₀`, with the symbols `ys` still to code: the `bits` of the others are packed. -/
structure Encoding (s₀ : State) (xs ys : List Symbol) (bits : List Bool) (s : State) : Prop where
  inv    : Inv s
  fault  : s.fault = false
  enough : ∀ x, ys.count x ≤ (freqOf s x).toNat
  entry  : ∀ x, (freqOf s x).toNat + xs.count x = (freqOf s₀ x).toNat + ys.count x
  packed : packedBits s = packedBits s₀ ++ bits
  code   : ∀ more, encodeSymbols s.freq ys = some more → encodeSymbols s₀.freq xs = some (bits ++ more)
  out    : s₀.out <+: s.out

theorem Encoding.begin {s : State} {xs : List Symbol} (hs : Inv s) (hf : s.fault = false)
    (hxs : ∀ x, xs.count x ≤ (freqOf s x).toNat) : Encoding s xs xs [] s :=
  ⟨hs, hf, hxs, fun _ => rfl, (List.append_nil _).symm, fun _ h => h, List.prefix_rfl⟩

/-- One more code in front of a coded list. -/
theorem encodeSymbols_cons {freq : Vector Count 256} {h : HTree} {x : Symbol} {xs : List Symbol} {c bits : List Bool}
    (htree : treeOf freq = some h) (hcode : treeCode h x = some c)
    (hbits : encodeSymbols (countDown freq x) xs = some bits) : encodeSymbols freq (x :: xs) = some (c ++ bits) := by
  simp only [encodeSymbols, htree, hcode, hbits]

/-- One turn of the encode loop. -/
theorem Encoding.turn {s₀ s : State} {x : Symbol} {xs ys : List Symbol} {bits : List Bool}
    (h : Encoding s₀ xs (x :: ys) bits s) : ∃ t c, exec (.enc x) s = .next t ∧ Encoding s₀ xs ys (bits ++ c) t := by
  have hx : freqOf s x ≠ 0#64 := fun h0 => by
    have henough := h.enough x
    rw [h0, List.count_cons_self] at henough
    exact Nat.not_succ_le_zero _ henough
  obtain ⟨t, tree, c, hexec, ht, htf, -, htree, hcode, hpacked, hfreq, hout⟩ := enc_step h.inv h.fault hx
  have hdown : ∀ y, (freqOf t y).toNat + (x :: ys).count y = (freqOf s y).toNat + ys.count y := fun y => by
    have hy := freqOf_countDown hx hfreq y
    rw [List.count_cons]
    simp only [beq_iff_eq, eq_comm (a := x)]
    omega
  refine ⟨t, c, hexec, ht, htf, fun y => ?_, fun y => ?_, ?_, fun more hmore => ?_, h.out.trans hout⟩
  · have := hdown y
    have := h.enough y
    omega
  · have := hdown y
    have := h.entry y
    omega
  · rw [hpacked, h.packed, List.append_assoc]
  · rw [List.append_assoc]
    exact h.code _ (encodeSymbols_cons htree hcode (hfreq ▸ hmore))

/-- At the end of the loop `FLUSH` makes whole bytes of the bits. -/
theorem Encoding.flush {s₀ s : State} {xs : List Symbol} {bits : List Bool} (h : Encoding s₀ xs [] bits s)
    (hfree : s₀.free = 8#4) :
    encodeSymbols s₀.freq xs = some bits ∧ exec .flush s = .next (flushed s) ∧ ∃ bytes,
      (flushed s).out = s₀.out ++ bytes ∧ (flushed s).free = 8#4 ∧ bytes.length = (bits.length + 7) / 8 ∧
      bytes.flatMap byteBits = bits ++ List.replicate (8 * bytes.length - bits.length) false := by
  have hcode := h.code [] rfl
  rw [List.append_nil] at hcode
  have hpre : packedBits s₀ = s₀.out.flatMap byteBits := by
    rw [packedBits, hfree]
    exact List.append_nil _
  exact ⟨hcode, exec_flush h.fault, flush_bytes h.inv.packer hpre h.packed h.out⟩

/-- The encode loop as a property of the commands still to come. -/
def EncodingRun (s₀ : State) (xs : List Symbol) (is : List Instr) (s : State) : Prop :=
  ∃ ys bits, is = ys.map Instr.enc ∧ Encoding s₀ xs ys bits s

theorem EncodingRun.step {s₀ : State} {xs : List Symbol} (i : Instr) (is : List Instr) (s : State)
    (h : EncodingRun s₀ xs (i :: is) s) : ∃ t, exec i s = .next t ∧ EncodingRun s₀ xs is t := by
  obtain ⟨ys, bits, hys, h⟩ := h
  obtain ⟨x, ys, rfl, rfl, rfl⟩ := List.map_eq_cons_iff.1 hys.symm
  obtain ⟨t, c, hexec, ht⟩ := h.turn
  exact ⟨t, hexec, ys, bits ++ c, rfl, ht⟩

theorem EncodingRun.done {s₀ s : State} {xs : List Symbol} (h : EncodingRun s₀ xs [] s) :
    ∃ bits, Encoding s₀ xs [] bits s := by
  obtain ⟨ys, bits, hys, h⟩ := h
  obtain rfl := List.map_eq_nil_iff.1 hys.symm
  exact ⟨bits, h⟩

theorem EncodingRun.advance {s₀ : State} {xs : List Symbol} (is : List Instr) (s : State)
    (h : EncodingRun s₀ xs is s) : EncodingRun s₀ xs is (advance s) := by
  obtain ⟨ys, bits, his, h⟩ := h
  exact ⟨ys, bits, his, h.inv.advance, h.fault, h.enough, h.entry, h.packed, h.code, h.out⟩

/-- Settles O57: the loop keeps `Encoding`, and `FLUSH` ends it. -/
theorem encodeLoopPacksTheCodes : Obligations.EncodeLoopPacksTheCodes := by
  intro s xs hs hf hfree hxs
  obtain ⟨u, hloop, hu⟩ := execAll_list EncodingRun.step _ ⟨xs, [], rfl, Encoding.begin hs hf hxs⟩
  obtain ⟨bits, hu⟩ := hu.done
  obtain ⟨hcode, hflush, bytes, hout, hfree', hlen, hbits⟩ := hu.flush hfree
  have hframe := flushed_frame u
  have hfault : (flushed u).fault = u.fault := (congrArg State.fault hframe :)
  have hfreq : (flushed u).freq = u.freq := (congrArg State.freq hframe :)
  refine ⟨flushed u, bits, bytes, ?_, hfault.trans hu.fault, hfree', hcode, hout, hlen, hbits, fun x => ?_⟩
  · rw [execAll_append, hloop]
    exact execAll_cons [] hflush
  · rw [freqOf, hfreq]
    exact hu.entry x

/-! ### The encoder's run (R118, R223, R238) -/

/-- The pre-scan of `bytes` with the bytes `ys` still to count; nothing is packed yet. -/
structure Counting (bytes ys : List Byte) (s : State) : Prop where
  inv   : Inv s
  fault : s.fault = false
  entry : ∀ x, (freqOf s x).toNat + ys.count x = bytes.count x
  free  : s.free = 8#4
  out   : s.out = []

/-- One turn of the pre-scan. -/
theorem Counting.turn {bytes ys : List Byte} {b : Byte} {s : State} (hb : ∀ b, bytes.count b < 2 ^ 64)
    (h : Counting bytes (b :: ys) s) : ∃ t, exec (.finc b) s = .next t ∧ Counting bytes ys t := by
  have hlt : (freqOf s b).toNat ≠ 2 ^ 64 - 1 := by
    have hentry := h.entry b
    rw [List.count_cons_self] at hentry
    have := hb b
    omega
  refine ⟨_, exec_finc h.fault hlt, h.inv.setF b _, h.fault, fun x => ?_, h.free, h.out⟩
  rw [freqOf_setF, ← h.entry x]
  split
  · next hx => rw [hx, count_up hlt, List.count_cons_self]; omega
  · next hx => rw [List.count_cons_of_ne (Ne.symm hx)]

/-- The pre-scan as a property of the commands still to come. -/
def CountingRun (bytes : List Byte) (is : List Instr) (s : State) : Prop :=
  ∃ ys, is = ys.map Instr.finc ∧ Counting bytes ys s

theorem CountingRun.step {bytes : List Byte} (hb : ∀ b, bytes.count b < 2 ^ 64) (i : Instr) (is : List Instr)
    (s : State) (h : CountingRun bytes (i :: is) s) : ∃ t, exec i s = .next t ∧ CountingRun bytes is t := by
  obtain ⟨ys, hys, h⟩ := h
  obtain ⟨b, ys, rfl, rfl, rfl⟩ := List.map_eq_cons_iff.1 hys.symm
  obtain ⟨t, hexec, ht⟩ := h.turn hb
  exact ⟨t, hexec, ys, rfl, ht⟩

theorem CountingRun.advance {bytes : List Byte} (is : List Instr) (s : State) (h : CountingRun bytes is s) :
    CountingRun bytes is (advance s) := by
  obtain ⟨ys, his, h⟩ := h
  exact ⟨ys, his, h.inv.advance, h.fault, h.entry, h.free, h.out⟩

theorem CountingRun.done {bytes : List Byte} {s : State} (h : CountingRun bytes [] s) : Counting bytes [] s := by
  obtain ⟨ys, hys, h⟩ := h
  obtain rfl := List.map_eq_nil_iff.1 hys.symm
  exact h

/-- At the start of a run `CLR` would change nothing. -/
theorem startRun_inv (ws : List CommandWord) (inp : List Byte) : Inv (startRun ws inp) :=
  clearState_inv (startRun ws inp)

theorem freqOf_startRun (ws : List CommandWord) (inp : List Byte) (x : Symbol) : freqOf (startRun ws inp) x = 0#64 :=
  Vector.getElem_replicate ..

theorem startRun_words (ws : List CommandWord) (inp : List Byte) :
    (startRun ws inp).cmds.drop (startRun ws inp).cmdIx = ws := by
  rw [startRun_cmds, startRun_cmdIx, List.drop_zero]

/-- The encoder's run: `OUT` holds the codes of the bytes, padded with zeros to whole bytes. -/
theorem encoder_run {bytes : List Byte} (hb : ∀ b, bytes.count b < 2 ^ 64) :
    ∃ e bits, runAll (startRun (encoderCommands bytes) []) = .next e ∧ runOver e = true ∧ e.fault = false ∧
      e.free = 8#4 ∧ encodeSymbols (countTable bytes) bytes = some bits ∧
      e.out.length = (bits.length + 7) / 8 ∧
      e.out.flatMap byteBits = bits ++ List.replicate (8 * e.out.length - bits.length) false := by
  obtain ⟨u, hu, hcount, hwords⟩ := runAll_list (P := CountingRun bytes) (is := bytes.map Instr.finc)
    (ws := (bytes.map Instr.enc).map encode ++ [encode .flush]) CountingRun.advance (CountingRun.step hb)
    (s := startRun (encoderCommands bytes) [])
    (by simp [encoderCommands, Pseudo.expand])
    ⟨bytes, rfl, startRun_inv _ _, rfl, fun x => by rw [freqOf_startRun]; exact Nat.zero_add _, rfl, rfl⟩
  have hcount := hcount.done
  have hfreq : u.freq = countTable bytes := freq_eq_countTable hcount.entry
  obtain ⟨v, hv, hloop, hwords⟩ := runAll_list EncodingRun.advance EncodingRun.step hwords
    ⟨bytes, [], rfl, Encoding.begin hcount.inv hcount.fault fun x => (hcount.entry x).ge⟩
  obtain ⟨bits, hloop⟩ := (hloop.advance [] v).done
  obtain ⟨hcode, hflush, out, hout, hfree, hlen, hbits⟩ := hloop.flush hcount.free
  obtain ⟨hlast, hover⟩ := runAll_last hwords hflush
  rw [hcount.out, List.nil_append] at hout
  have hfault : (flushed (advance v)).fault = (advance v).fault := (congrArg State.fault (flushed_frame _) :)
  subst hout
  exact ⟨_, bits, by rw [hu, hv, hlast], hover, hfault.trans hloop.fault, hfree, hfreq ▸ hcode, hlen, hbits⟩

/-! ### The decoder's run (R118, R224, R238) -/

/-- The load of `table` with the entries `es` still to come; no bit is taken and no symbol emitted yet. -/
structure Loading (table : Vector Count 256) (inp : List Byte) (es : List (Symbol × Count)) (s : State) : Prop where
  inv   : Inv s
  fault : s.fault = false
  inp   : s.inp = inp
  ucnt  : s.ucnt = 0#4
  sout  : s.sout = []
  left  : ∀ x v, (x, v) ∈ es → v = table[x.toNat]'x.isLt
  entry : ∀ x, freqOf s x = table[x.toNat]'x.isLt ∨ (x, table[x.toNat]'x.isLt) ∈ es

/-- One turn of the load. -/
theorem Loading.turn {table : Vector Count 256} {inp : List Byte} {x : Symbol} {v : Count}
    {es : List (Symbol × Count)} {s : State} (h : Loading table inp ((x, v) :: es) s) :
    ∃ t, exec (.fld x v) s = .next t ∧ Loading table inp es t := by
  refine ⟨setF s x v, exec_of_no_fault h.fault (.fld x v), h.inv.setF x v, h.fault, h.inp, h.ucnt, h.sout,
    fun y w hw => h.left y w (List.mem_cons_of_mem _ hw), fun y => ?_⟩
  rw [freqOf_setF]
  split
  · next hy =>
    subst hy
    exact Or.inl (h.left y v List.mem_cons_self)
  · next hy =>
    refine (h.entry y).imp_right fun hmem => ?_
    rcases List.mem_cons.1 hmem with heq | hmem
    · exact absurd (Prod.mk.inj heq).1 hy
    · exact hmem

/-- The load as a property of the commands still to come. -/
def LoadingRun (table : Vector Count 256) (inp : List Byte) (is : List Instr) (s : State) : Prop :=
  ∃ es : List (Symbol × Count), is = es.map (fun e => Instr.fld e.1 e.2) ∧ Loading table inp es s

theorem LoadingRun.step {table : Vector Count 256} {inp : List Byte} (i : Instr) (is : List Instr) (s : State)
    (h : LoadingRun table inp (i :: is) s) : ∃ t, exec i s = .next t ∧ LoadingRun table inp is t := by
  obtain ⟨es, hes, h⟩ := h
  obtain ⟨⟨x, v⟩, es, rfl, rfl, rfl⟩ := List.map_eq_cons_iff.1 hes.symm
  obtain ⟨t, hexec, ht⟩ := h.turn
  exact ⟨t, hexec, es, rfl, ht⟩

theorem LoadingRun.advance {table : Vector Count 256} {inp : List Byte} (is : List Instr) (s : State)
    (h : LoadingRun table inp is s) : LoadingRun table inp is (advance s) := by
  obtain ⟨es, his, h⟩ := h
  exact ⟨es, his, h.inv.advance, h.fault, h.inp, h.ucnt, h.sout, h.left, h.entry⟩

/-- At the end of the load the table is the one loaded. -/
theorem LoadingRun.done {table : Vector Count 256} {inp : List Byte} {s : State} (h : LoadingRun table inp [] s) :
    Loading table inp [] s ∧ s.freq = table := by
  obtain ⟨es, hes, h⟩ := h
  obtain rfl := List.map_eq_nil_iff.1 hes.symm
  refine ⟨h, Vector.ext fun i hi => ?_⟩
  have hentry := (h.entry (BitVec.ofNat 8 i)).resolve_right List.not_mem_nil
  simpa only [freqOf, BitVec.toNat_ofNat, Nat.mod_eq_of_lt hi] using hentry

/-- The decoder's run: `SOUT` holds the symbols the bits of `IN` lead to, one for every count of the table. -/
theorem decoder_run {table : Vector Count 256} {inp : List Byte} {xs : List Symbol} {rest : List Bool}
    (hdec : decodeSymbols (sumOfCounts table) table (inp.flatMap byteBits) = some (xs, rest)) :
    ∃ d, runAll (startRun (decoderCommands table) inp) = .next d ∧ runOver d = true ∧ d.fault = false ∧
      d.sout = xs ∧ d.total = 0#72 ∧ inputBits d = rest ∧ d.ucnt.toNat ≤ 7 ∧ d.inp <:+ inp := by
  obtain ⟨u, hu, hload, hwords⟩ := runAll_list (P := LoadingRun table inp)
    (is := (allSymbols.zip table.toList).map fun e => Instr.fld e.1 e.2) (ws := [encode .drun]) LoadingRun.advance
    LoadingRun.step (s := startRun (decoderCommands table) inp)
    (by rw [startRun_words, decoderCommands, List.map_map]; rfl)
    ⟨_, rfl, startRun_inv _ _, rfl, rfl, rfl, rfl, fun x v => (mem_zip_counts table x v).1,
      fun x => Or.inr ((mem_zip_counts table x _).2 rfl)⟩
  obtain ⟨hload, hfreq⟩ := (hload.advance [] u).done
  have hbits : inputBits (advance u) = inp.flatMap byteBits := by
    rw [inputBits, hload.ucnt, hload.inp]
    rfl
  obtain ⟨d, hexec, hframe, hsout, hrest, h0, h7⟩ := exec_drun hload.inv hload.fault (xs := xs) (rest := rest) (by
    rw [hload.inv.counts.1, hfreq, hbits, hdec])
  obtain ⟨hlast, hover⟩ := runAll_last hwords hexec
  have hfault : d.fault = (advance u).fault := (congrArg State.fault hframe :)
  have hsuffix := (exec_streams hexec).inp
  rw [hload.inp] at hsuffix
  rw [hload.sout, List.nil_append] at hsout
  exact ⟨d, hu.trans hlast, hover, hfault.trans hload.fault, hsout, h0, hrest,
    h7 (by rw [hload.ucnt]; decide), hsuffix⟩

/-! ### The round trip (R176) -/

/-- Less than a byte of padding: the bytes not taken are those behind the packed stream. -/
theorem inp_eq_of_padding {d : State} {packed extra : List Byte} {k : Nat} (hk : k ≤ 7) (h7 : d.ucnt.toNat ≤ 7)
    (hsuffix : d.inp <:+ packed ++ extra)
    (hbits : inputBits d = List.replicate k false ++ extra.flatMap byteBits) : d.inp = extra := by
  have hlen := congrArg List.length hbits
  rw [inputBits_length d (by omega), bitsLeft, List.length_append, List.length_replicate,
    length_flatMap_byteBits] at hlen
  have hsame : d.inp.length = extra.length := by omega
  exact (List.suffix_of_suffix_length_le hsuffix (List.suffix_append _ _) hsame.le).eq_of_length hsame

/-- Settles O58: the decode loop reads back what the encode loop wrote (`decodeSymbols_encodeSymbols`), with the table
of the same counts, and stops behind the last code. -/
theorem roundTrip : Obligations.RoundTrip := by
  intro bytes extra hb
  obtain ⟨e, bits, herun, heover, hef, hfree, hcode, hlen, hout⟩ := encoder_run hb
  obtain ⟨d, hdrun, hdover, hdf, hsout, h0, hrest, h7, hsuffix⟩ :=
    decoder_run (table := countTable bytes) (inp := e.out ++ extra) (xs := bytes) (by
      rw [sum_countTable bytes hb, List.flatMap_append, hout, List.append_assoc]
      exact decodeSymbols_encodeSymbols hcode _)
  have hresult : encoderResult e = some e.out := by rw [encoderResult, heover, hef]; rfl
  have hresult' : decoderResult d = some bytes := by rw [decoderResult, hdover, hdf, hsout]; rfl
  refine ⟨e, e.out, d, herun, hresult, ?_, hdrun, hresult', ?_, h0, inp_eq_of_padding (by omega) h7 hsuffix hrest⟩
  · rw [encoderComplete, hresult, hfree]
    rfl
  · rw [decoderComplete, hresult', emptyFlag, h0]
    rfl

end Sys2Proof.Machine
end

section
/-!
The system command (spec 46_system.md R180; 70_reset_and_hazards.md R222): what `CLR` and the reset input leave, and the
statement O15.
-/

namespace Sys2Proof.Machine

/-! ### The state that `CLR` leaves -/

/-- A cleared block is a reset block with the arena, `LEAFV` and the host's channels of before (R180). -/
theorem clearState_eq_reset (s : State) :
    clearState s = { State.reset with cmds := s.cmds, cmdIx := s.cmdIx, nodes := s.nodes, leafv := s.leafv,
                                      inp := s.inp, out := s.out, sout := s.sout } := rfl

/-- A reset block has nothing to clear (R222). -/
theorem clearState_reset : clearState State.reset = State.reset := rfl

/-- Without a valid tree the cursor is at no leaf, whatever the arena still holds (R26). -/
theorem atLeafFlag_of_no_tree {s : State} (htv : s.tv = false) : atLeafFlag s = false := by
  rw [atLeafFlag, htv, Bool.false_and]

/-- Of a cleared block `STATUS` shows `EMPTY` alone, also where the arena that stays holds leaves (R180, R220). -/
@[simp] theorem status_clearState (s : State) : status (clearState s) = 0x0002#16 := by
  have hleaf : atLeafFlag (clearState s) = false := atLeafFlag_of_no_tree (clearState_tv s)
  have hpend : ppendFlag (clearState s) = false := rfl
  have hempty : emptyFlag (clearState s) = true := rfl
  rw [status, hleaf, hpend, hempty, clearState_fcode, clearState_fault, clearState_tv]
  rfl

/-! ### `CLR` and hardware reset -/

/-- `CLR` completes, the fault state included (R180, R198). -/
theorem exec_clr (s : State) : exec .clr s = .next (clearState s) := rfl

/-- The reset input clears the block as `CLR` does, and empties the two output streams as well (R222). -/
theorem hardwareReset_eq (s : State) : hardwareReset s = { clearState s with out := [], sout := [] } := rfl

/-- Settles O15: the state left is `clearState s`, of which the lemmas above say each part. -/
theorem clrResetsTheBlock : Obligations.ClrResetsTheBlock :=
  ⟨fun s => ⟨clearState s, exec_clr s, status_clearState s, clearState_eq_reset s, hardwareReset_eq s⟩,
    (exec_clr State.reset).trans (congrArg _ clearState_reset)⟩

end Sys2Proof.Machine
end

section
/-!
The fault state and the faults (spec 60_exceptions.md R191, R194, R196 to R198, R200): what the fault state refuses and
how it is left, the row of R191 that each recorded fault belongs to and what it leaves unchanged, the fault of the first
test that fails, and the statements O8, O9, O10 and O11.
-/

namespace Sys2Proof.Machine

/-! ### The fault state (R198, R200) -/

/-- In the fault state every word but a legal `CLR` changes nothing, an illegal one included (R198). -/
theorem runWord_refused {w : CommandWord} {s : State} (hf : s.fault = true) (hw : decode w ≠ .ok .clr) :
    runWord w s = .next s := by
  cases hd : decode w with
  | ok i =>
    have hi : i ≠ .clr := fun hclr => hw (hclr ▸ hd)
    rw [runWord_ok hd, exec_of_fault hf hi]
  | error e => rw [runWord_error hd, execIllegal, command_fault hf]

/-- A step on the word of a `CLR` clears the block (R180, R200). -/
theorem step_of_clr {s : State} {w : CommandWord} (hw : fetchWord s = some w) (hd : decode w = .ok .clr) :
    step s = .next (clearState (advance s)) := by
  rw [step_of_fetch hw, runWord_ok hd, exec_clr]

/-- Settles O8: a step leaves the fault state only by a `CLR`, and `CLR` and the reset input leave a cleared block. -/
theorem faultStateRefuses : Obligations.FaultStateRefuses := by
  refine ⟨fun _ _ => runWord_refused, fun s t hf h ht => ?_, hardwareReset_eq⟩
  rcases step_keeps_fault hf h with hkept | ⟨w, hw, hd⟩
  · rw [ht] at hkept
    cases hkept
  · have hclr : t = clearState (advance s) := Host.Outcome.next.inj (h.symm.trans (step_of_clr hw hd))
    exact ⟨w, hw, hd, hclr.trans (clearState_eq_reset (advance s))⟩

/-! ### The row of a fault, and what it leaves unchanged (R191, R196, R197) -/

/-- The faults raised after the command's first write, which do not leave everything unchanged (R197): `NullChild` of
`STEP`, those of `DEC` past its `BUILD`, those of `DRUN`. -/
def RaisedLate (i : Instr) (c : Cause) : Prop :=
  (i = .step ∧ c = .nullChild) ∨ (i = .dec ∧ c ≠ .emptyBuild) ∨ i = .drun

/-- The fault recorded in `t` is that of a row of R191, and it changed nothing else unless it is one of those raised
late (R197). -/
def FaultsByTable (i : Instr) (s t : State) : Prop :=
  ∃ c, t.fcode = causeCode c ∧ FaultRow i s t c ∧ (RaisedLate i c ∨ FaultFrame s t)

theorem faultsByTable_of_row {i : Instr} {s : State} {c : Cause} {info : BitVec 16}
    (h : FaultRow i s (enterFault c info s) c) : FaultsByTable i s (enterFault c info s) :=
  ⟨c, rfl, h, Or.inr rfl⟩

/-- The faults of `STEP`: `NullChild` has taken the bit that selects the missing child. -/
theorem stepBody_raised_row {s t : State} (hs : Inv s) (h : stepBody s = .raised t) : FaultsByTable .step s t := by
  rcases stepBody_raised hs h with
    ⟨htv, rfl⟩ | ⟨nd, hn, ht, rfl⟩ | ⟨hb, hnd, rfl⟩ | ⟨nd, u, hn, ht, hnull, hb, hcur, hw, rfl⟩
  · exact faultsByTable_of_row ⟨Or.inr (Or.inl rfl), htv, rfl⟩
  · exact faultsByTable_of_row ⟨rfl, nd, hn, Or.inl ⟨rfl, ht⟩⟩
  · obtain ⟨hcount, hend⟩ := inputBits_nil hs.unpacker hb
    exact faultsByTable_of_row ⟨Or.inl rfl, hcount, hend, rfl, hnd⟩
  · have hnode : nodeAt u.nodes u.cur = some nd := by rw [hw.eq.nodes_eq, hcur, hn]
    have hinfo : s.cur.setWidth 16 = u.cur.setWidth 16 := by rw [hcur]
    exact ⟨.nullChild, rfl, ⟨Or.inl rfl, hinfo, nd, [], true, hnode, ht, hb, fun _ => rfl, hnull⟩,
      Or.inl (Or.inl ⟨rfl, rfl⟩)⟩

/-- The fault of a walk from the root, in a `DEC` or in a turn of a `DRUN` that began in `u` with what the turns before
it left of the bits. -/
theorem WalkFault.row {i : Instr} {s u u' t : State} (hi : i = .dec ∨ i = .drun)
    (hbits : inputBits u <:+ inputBits s) (h : WalkFault (builtState u) u' (.raised t)) : FaultsByTable i s t := by
  have hlate : ∀ {c : Cause}, c ≠ .emptyBuild → RaisedLate i c := fun hc => Or.inr (hi.imp (⟨·, hc⟩) id)
  rcases walkFault_row h with ⟨hcode, hinfo, hcount, hend, hnd⟩ | ⟨hcode, hinfo, nd, path, hn, ht, hnull, hb⟩
  · exact ⟨.inUnderrun, hcode, ⟨Or.inr hi, hcount, hend, hinfo, hnd⟩, Or.inl (hlate (by decide))⟩
  · obtain ⟨before, hbefore⟩ := hbits
    have htaken : inputBits s = (before ++ path) ++ true :: inputBits t := by
      rw [← hbefore, hb, List.append_assoc]
    have hstep : i = .step → before ++ path = [] := by rcases hi with rfl | rfl <;> exact nofun
    exact ⟨.nullChild, hcode, ⟨Or.inr hi, hinfo, nd, _, true, hn, ht, htaken, hstep, hnull⟩,
      Or.inl (hlate (by decide))⟩

/-- Every fault that a command raises follows the table. -/
theorem bodyOf_raised_row {i : Instr} {s t : State} (hs : Inv s) (hf : s.fault = false) (h : bodyOf i s = .raised t) :
    FaultsByTable i s t := by
  cases i with
  | clr => cases h
  | fld x v => cases h
  | finc x =>
    obtain ⟨hx, rfl⟩ := fincBody_raised h
    exact faultsByTable_of_row ⟨x, rfl, eq_allOnes_iff.1 hx, rfl⟩
  | fdec x =>
    obtain ⟨hx, rfl⟩ := fdecBody_raised h
    exact faultsByTable_of_row ⟨x, rfl, Or.inl ⟨Or.inl rfl, hx⟩⟩
  | frd x => cases h
  | build =>
    obtain ⟨h0, rfl⟩ := buildBody_raised h
    exact faultsByTable_of_row ⟨Or.inl rfl, h0, rfl⟩
  | xcode x =>
    rcases xcodeBody_raised h with ⟨htv, rfl⟩ | ⟨hv, rfl⟩
    · exact faultsByTable_of_row ⟨Or.inl ⟨x, rfl⟩, htv, rfl⟩
    · exact faultsByTable_of_row ⟨x, rfl, Or.inr ⟨rfl, hv⟩⟩
  | pack => cases h
  | flush => cases (flushBody_eq s).symm.trans h
  | step => exact stepBody_raised_row hs h
  | emit =>
    rcases emitBody_raised hs h with ⟨htv, rfl⟩ | ⟨nd, hn, ht, rfl⟩
    · exact faultsByTable_of_row ⟨Or.inr (Or.inr rfl), htv, rfl⟩
    · exact faultsByTable_of_row ⟨rfl, nd, hn, Or.inr ⟨rfl, ht⟩⟩
  | enc x =>
    rcases encBody_raised hs h with ⟨h0, rfl⟩ | ⟨hx, rfl⟩
    · exact faultsByTable_of_row ⟨Or.inr (Or.inl ⟨x, rfl⟩), h0, rfl⟩
    · exact faultsByTable_of_row ⟨x, rfl, Or.inl ⟨Or.inr rfl, hx⟩⟩
  | dec =>
    rcases decBody_raised hs h with ⟨h0, rfl⟩ | ⟨-, u, hwalk⟩
    · exact faultsByTable_of_row ⟨Or.inr (Or.inr rfl), h0, rfl⟩
    · exact hwalk.row (Or.inl rfl) (List.suffix_refl _)
  | drun =>
    obtain ⟨_, u, -, -, hu, hu0, hraised, -, -, hbits⟩ := drunLoop_raised _ hs hf (Nat.lt_succ_self _) h
    obtain ⟨u', hwalk⟩ := decBody_raised_walk hu (live_ne_zero hu hu0) hraised
    exact hwalk.row (Or.inr rfl) hbits

/-- With no fault recorded there is neither code nor information (R26, R29). -/
theorem Inv.no_code {s : State} (hs : Inv s) (hf : s.fault = false) : s.fcode = 0#8 ∧ s.finfo = 0#16 := by
  have hok := hs.fault
  rwa [FaultOk, hf, if_neg Bool.false_ne_true] at hok

/-- Settles O9: `bodyOf_raised_row`; with no fault recorded the invariant says the rest. -/
theorem faultsFollowTheTable : Obligations.FaultsFollowTheTable := by
  refine ⟨fun _ _ _ _ => ⟨rfl, rfl⟩, by decide, fun i s t hs hf h ht => ?_, fun i s t hs h => (hs.exec h).no_code,
    fun w e s t hd hf h => ?_⟩
  · obtain ⟨c, hcode, hrow, -⟩ := bodyOf_raised_row hs hf (exec_raised h hf ht)
    exact ⟨c, hcode, hrow⟩
  · rw [runWord_illegal hd hf] at h
    cases h
    exact ⟨rfl, rfl⟩

/-- Code 2 is that of `EmptyBuild` alone (R191). -/
theorem eq_emptyBuild_of_causeCode {c : Cause} (h : causeCode c = 0x02#8) : c = .emptyBuild := by
  cases c with
  | emptyBuild => rfl
  | _ => exact absurd h (by decide)

/-- Settles O11: the commands and codes it names leave none of the rows raised late. -/
theorem faultsBeforeTheFirstWrite : Obligations.FaultsBeforeTheFirstWrite := by
  intro i s t hs hf h ht hdec hdrun hstep
  obtain ⟨c, hcode, -, hlate | hframe⟩ := bodyOf_raised_row hs hf (exec_raised h hf ht)
  · rcases hlate with ⟨hi, rfl⟩ | ⟨hi, hc⟩ | hi
    · exact absurd ⟨hi, hcode⟩ hstep
    · rcases hdec with hne | hempty
      · exact absurd hi hne
      · exact absurd (eq_emptyBuild_of_causeCode (hcode.symm.trans hempty)) hc
    · exact absurd hi hdrun
  · exact hframe

/-! ### The first test that fails (R194) -/

/-- The command answers a next state, with no fault when `first` is none and otherwise with that of `first`. -/
def Answers (i : Instr) (s : State) (first : Option Cause) : Prop :=
  ∃ t, exec i s = .next t ∧ (first = none → t.fault = false) ∧
    ∀ c, first = some c → t.fault = true ∧ t.fcode = causeCode c

theorem answers_none {i : Instr} {s t : State} (h : exec i s = .next t) (ht : t.fault = false) : Answers i s none :=
  ⟨t, h, fun _ => ht, nofun⟩

theorem answers_some {i : Instr} {s t : State} {c : Cause} (h : exec i s = .next t)
    (ht : t.fault = true ∧ t.fcode = causeCode c) : Answers i s (some c) :=
  ⟨t, h, nofun, fun _ hd => Option.some.inj hd ▸ ht⟩

theorem answers_fault {i : Instr} {s u : State} {c : Cause} {info : BitVec 16}
    (h : exec i s = .next (enterFault c info u)) : Answers i s (some c) := answers_some h ⟨rfl, rfl⟩

theorem answers_done {i : Instr} {s t : State} (hf : s.fault = false) (h : bodyOf i s = .done t) :
    Answers i s none :=
  answers_none (exec_of_done hf h) ((done_fault (bodyOf_ends i s) h).1.no_fault hf)

theorem exec_build_emptyBuild {s : State} (hs : Inv s) (hf : s.fault = false) (h0 : s.live = 0#9) :
    exec .build s = .next (enterFault .emptyBuild 0#16 s) := (buildOfTheEmptyTable s hs hf h0).1

/-- `XCODE` tests for a tree, then for the leaf of the symbol; with both the walk up ends (R140). -/
theorem xcode_answers {s : State} (hs : Inv s) (hf : s.fault = false) (x : Symbol) :
    Answers (.xcode x) s (firstFault (.xcode x) s) := by
  cases htv : s.tv with
  | false =>
    rw [firstFault, if_pos htv]
    exact answers_fault (exec_xcode_noTree hf htv)
  | true =>
    rw [firstFault, if_neg (by simp [htv])]
    cases hv : leafValid s x with
    | false => exact answers_fault (exec_xcode_absent hf htv hv)
    | true =>
      obtain ⟨tree, ht⟩ := (hs.tree htv).hasTree
      obtain ⟨c, -, -, -, hexec⟩ := ht.exec_xcode hf htv ((ht.leafValid x).1 hv)
      exact answers_none hexec hf

/-- `STEP` tests for a tree, for an internal node under the cursor, for a bit, then for the child the bit selects
(R161). -/
theorem step_answers {s : State} (hs : Inv s) (hf : s.fault = false) : Answers .step s (firstFault .step s) := by
  cases htv : s.tv with
  | false =>
    rw [firstFault, if_pos htv]
    exact answers_fault (exec_step_noTree hf htv)
  | true =>
    obtain ⟨nd, hn⟩ := hs.cursor htv
    simp only [firstFault, htv, hn, Bool.true_eq_false, if_false]
    cases ht : nd.tag with
    | leaf => exact answers_fault (exec_step_badCursor hf htv hn ht)
    | internal =>
      rw [if_neg (by decide)]
      cases hb : inputBits s with
      | nil => exact answers_fault (exec_step_underrun hf htv hn ht ((getBit_eq_none_iff hs.unpacker).2 hb))
      | cons bit rest =>
        obtain ⟨u, hg, -⟩ := exists_getBit hs.unpacker hb
        have hexec := exec_step_edge_of_getBit hf htv hn ht hg
        by_cases hc : (if bit then nd.right else nd.left) = Config.null
        · rw [followEdge_of_null hc] at hexec
          simp only [if_pos hc]
          exact answers_fault hexec
        · have huf : u.fault = s.fault := (congrArg State.fault (getBit_unpacker_frame hg) :)
          rw [followEdge_of_child hc] at hexec
          simp only [if_neg hc]
          exact answers_none hexec (huf.trans hf)

/-- `EMIT` tests for a tree, then for a leaf under the cursor; that leaf is of a live symbol (R162). -/
theorem emit_answers {s : State} (hs : Inv s) (hf : s.fault = false) : Answers .emit s (firstFault .emit s) := by
  cases htv : s.tv with
  | false =>
    rw [firstFault, if_pos htv]
    exact answers_fault (exec_emit_noTree hf htv)
  | true =>
    obtain ⟨nd, hn⟩ := hs.cursor htv
    rw [firstFault, if_neg (by simp [htv]), hn, Option.any_some]
    cases ht : nd.tag with
    | internal => exact answers_fault (exec_emit_badCursor hf htv hn ht)
    | leaf => exact answers_none (exec_emit_leaf hf htv hn ht (hs.cursor_leaf htv hn ht).2) hf

/-- `ENC` tests for a live symbol, then for its own; its four parts test nothing that can still fail (R170). -/
theorem enc_answers {s : State} (hs : Inv s) (hf : s.fault = false) (x : Symbol) :
    Answers (.enc x) s (firstFault (.enc x) s) := by
  by_cases h0 : s.live = 0#9
  · rw [firstFault, if_pos h0]
    exact answers_fault (exec_enc_emptyBuild hf h0)
  · rw [firstFault, if_neg h0]
    by_cases hx : freqOf s x = 0#64
    · rw [if_pos hx]
      exact answers_fault (exec_enc_absent hf h0 hx)
    · rw [if_neg hx]
      obtain ⟨c, -, -, hexec⟩ := exec_enc hf hs.counts hx
      exact answers_none hexec hf

/-- `DEC` tests for a live symbol, then bit by bit as its walk goes (R171). -/
theorem dec_answers {s : State} (hs : Inv s) (hf : s.fault = false) : Answers .dec s (firstFault .dec s) := by
  by_cases h0 : s.live = 0#9
  · rw [firstFault, if_pos h0]
    exact answers_fault (exec_dec_emptyBuild hf h0)
  · obtain ⟨h, htree, hwalk⟩ := decBody_treeFault hs fun hl => h0 ((live_eq_zero_iff hs.counts).2 hl)
    simp only [firstFault, if_neg h0, htree]
    cases hc : treeFault h (inputBits s) with
    | none =>
      rw [hc] at hwalk
      obtain ⟨t, hdone⟩ := hwalk
      exact answers_done hf hdone
    | some c =>
      rw [hc] at hwalk
      obtain ⟨t, hraised, ht⟩ := hwalk
      exact answers_some (exec_of_raised hf hraised) ht

/-- `DRUN` tests turn by turn, as its `DEC`s do (R172). -/
theorem drun_answers {s : State} (hs : Inv s) (hf : s.fault = false) : Answers .drun s (firstFault .drun s) := by
  have hturns := drunLoop_symbolsFault _ (bitsLeft s + 1) hs rfl (Nat.lt_succ_self _)
  rw [← hs.counts.1] at hturns
  rw [firstFault]
  cases hc : symbolsFault s.total.toNat s.freq (inputBits s) with
  | none =>
    rw [hc] at hturns
    obtain ⟨t, hdone, -⟩ := hturns
    exact answers_done hf hdone
  | some c =>
    rw [hc] at hturns
    obtain ⟨t, hraised, ht⟩ := hturns
    exact answers_some (exec_of_raised hf hraised) ht

/-- Every command answers as the first of its tests that fails says. -/
theorem exec_answers {s : State} (hs : Inv s) (hf : s.fault = false) (i : Instr) : Answers i s (firstFault i s) := by
  cases i with
  | clr => exact answers_done hf rfl
  | fld x v => exact answers_done hf rfl
  | finc x =>
    by_cases hx : (freqOf s x).toNat = 2 ^ 64 - 1
    · rw [firstFault, if_pos hx]
      exact answers_fault (exec_finc_overflow hf hx)
    · rw [firstFault, if_neg hx]
      exact answers_none (exec_finc hf hx) hf
  | fdec x =>
    by_cases hx : freqOf s x = 0#64
    · rw [firstFault, if_pos hx]
      exact answers_fault (exec_fdec_absent hf hx)
    · rw [firstFault, if_neg hx]
      exact answers_none (exec_fdec hf hx) hf
  | frd x => exact answers_done hf rfl
  | build =>
    by_cases h0 : s.live = 0#9
    · rw [firstFault, if_pos h0]
      exact answers_fault (exec_build_emptyBuild hs hf h0)
    · rw [firstFault, if_neg h0]
      exact answers_none (exec_build hf hs.counts fun hl => h0 ((live_eq_zero_iff hs.counts).2 hl)) hf
  | xcode x => exact xcode_answers hs hf x
  | pack => exact answers_done hf (packBody_eq s)
  | flush => exact answers_done hf (flushBody_eq s)
  | step => exact step_answers hs hf
  | emit => exact emit_answers hs hf
  | enc x => exact enc_answers hs hf x
  | dec => exact dec_answers hs hf
  | drun => exact drun_answers hs hf

/-- Settles O10: refusal first, then the illegal word, then `exec_answers`. -/
theorem firstFaultIsRaised : Obligations.FirstFaultIsRaised :=
  ⟨fun _ _ => runWord_refused, fun _ _ _ hf hd => ⟨_, runWord_illegal hd hf, rfl, rfl⟩,
    fun i _ hs hf => exec_answers hs hf i⟩

end Sys2Proof.Machine
end

section
/-!
Reset and progress (spec 70_reset_and_hazards.md R220; 60_exceptions.md R201): the values that hardware reset gives,
that a command in a state of the invariant always answers a next state, that the model's loop bound and a refusal are
no command's answer, and the statements O14, O18 and O21.
-/

namespace Sys2Proof.Machine

/-! ### Hardware reset (R220) -/

@[simp] theorem freqOf_reset (x : Symbol) : freqOf State.reset x = 0#64 := Vector.getElem_replicate x.isLt

/-- A reset block shows `EMPTY` alone, being a cleared block. -/
@[simp] theorem status_reset : status State.reset = 0x0002#16 := clearState_reset ▸ status_clearState State.reset

/-- Settles O14: the table and `STATUS` are those of a cleared block; the other items are fields of the record. -/
theorem resetValues : Obligations.ResetValues :=
  ⟨freqOf_reset, rfl, rfl, status_reset, rfl, rfl, rfl, rfl, rfl, rfl, rfl, rfl, rfl, rfl, rfl, rfl, rfl, rfl, rfl⟩

/-- Settles O18: a reset block is a cleared block, and `CLR` establishes the invariant in every state. -/
theorem resetMeetsTheInvariant : Obligations.ResetMeetsTheInvariant :=
  clearState_inv State.reset

/-! ### Progress from the states of the invariant (R201) -/

theorem exists_exec_next {s : State} (hs : Inv s) (i : Instr) : ∃ t, exec i s = .next t := by
  by_cases hi : i = .clr
  · exact ⟨clearState s, hi ▸ exec_clr s⟩
  · obtain ⟨body, hexec, hkeeps⟩ := body_keeps hs hi
    obtain ⟨t, ht, -⟩ := command_holds hkeeps hs
    exact ⟨t, hexec.trans ht⟩

/-- An illegal word is refused or faults, and both are next states (R97, R98, R198). -/
theorem exists_execIllegal_next (w : CommandWord) (s : State) : ∃ t, execIllegal w s = .next t := by
  cases hf : s.fault with
  | false => exact ⟨_, command_ok hf⟩
  | true => exact ⟨s, command_fault hf⟩

theorem exists_runWord_next {s : State} (hs : Inv s) (w : CommandWord) : ∃ t, runWord w s = .next t := by
  cases hd : decode w with
  | ok i => exact runWord_ok hd s ▸ exists_exec_next hs i
  | error e => exact runWord_error hd s ▸ exists_execIllegal_next w s

theorem exists_step_next {s : State} (hs : Inv s) : ∃ t, step s = .next t := by
  cases hw : fetchWord s with
  | none => exact ⟨s, step_idle hw⟩
  | some w => exact step_of_fetch hw ▸ exists_runWord_next hs.advance w

/-! ### What no command answers, in any state -/

theorem Result.andThen_ne_stuck {r : Result} {k : State → Result} {f : Fault} (hr : r ≠ .stuck f)
    (hk : ∀ t, k t ≠ .stuck f) : r.andThen k ≠ .stuck f := by
  cases r with
  | done t => exact hk t
  | raised t => exact nofun
  | stuck g => exact hr

theorem Result.outcome_ne_fault {r : Result} {f : Fault} (h : r ≠ .stuck f) : r.outcome ≠ .fault f := by
  cases r with
  | done t => exact nofun
  | raised t => exact nofun
  | stuck g => exact fun hg => h (congrArg Result.stuck (Host.Outcome.fault.inj hg))

theorem Result.outcome_ne_refused (r : Result) (q : Refusal) : r.outcome ≠ .refused q := by
  cases r <;> exact nofun

theorem fincBody_ne_stuck (x : Symbol) (s : State) (f : Fault) : fincBody x s ≠ .stuck f := by
  unfold fincBody
  split <;> exact nofun

theorem fdecBody_ne_stuck (x : Symbol) (s : State) (f : Fault) : fdecBody x s ≠ .stuck f := by
  unfold fdecBody
  split <;> exact nofun

theorem buildBody_ne_stuck (s : State) (f : Fault) : buildBody s ≠ .stuck f := by
  unfold buildBody
  split <;> exact nofun

/-- The only stop of `XCODE` is the walk that passes 255 links (log entry 6). -/
theorem xcodeBody_ne_loopBound (x : Symbol) (s : State) : xcodeBody x s ≠ .stuck .loopBound := by
  unfold xcodeBody
  split
  · exact nofun
  · split
    · exact nofun
    · split <;> exact nofun

theorem encBody_ne_loopBound (x : Symbol) (s : State) : encBody x s ≠ .stuck .loopBound := by
  unfold encBody
  split
  · exact nofun
  · split
    · exact nofun
    · have hcode := Result.andThen_ne_stuck (buildBody_ne_stuck s .loopBound) (xcodeBody_ne_loopBound x)
      have hpack := Result.andThen_ne_stuck (k := packBody) hcode fun _ => nofun
      exact Result.andThen_ne_stuck hpack fun t => fdecBody_ne_stuck x t .loopBound

/-- Only `DEC` and `DRUN` have loops with a bound, and every turn of theirs takes a bit (log entry 7). -/
theorem bodyOf_ne_loopBound (i : Instr) (s : State) : bodyOf i s ≠ .stuck .loopBound := by
  cases i with
  | clr => exact nofun
  | fld x v => exact nofun
  | finc x => exact fincBody_ne_stuck x s .loopBound
  | fdec x => exact fdecBody_ne_stuck x s .loopBound
  | frd x => exact nofun
  | build => exact buildBody_ne_stuck s .loopBound
  | xcode x => exact xcodeBody_ne_loopBound x s
  | pack => exact nofun
  | flush =>
    rw [show bodyOf .flush s = .done (flushed s) from flushBody_eq s]
    exact nofun
  | step => exact stepBody_ne_loopBound s
  | emit => exact emitBody_ne_loopBound s
  | enc x => exact encBody_ne_loopBound x s
  | dec => exact decBody_ne_loopBound s
  | drun => exact drunLoop_ne_loopBound _ s (Nat.lt_succ_self _)

/-- A command is refused in the fault state, or it is its body (R198). -/
theorem exec_eq_next_or_outcome (i : Instr) (s : State) : exec i s = .next s ∨ exec i s = (bodyOf i s).outcome := by
  cases hf : s.fault with
  | false => exact Or.inr (exec_of_no_fault hf i)
  | true =>
    by_cases hi : i = .clr
    · subst hi
      exact Or.inr rfl
    · exact Or.inl (exec_of_fault hf hi)

theorem exec_ne_loopBound (i : Instr) (s : State) : exec i s ≠ .fault .loopBound := by
  rcases exec_eq_next_or_outcome i s with h | h <;> rw [h]
  · exact nofun
  · exact Result.outcome_ne_fault (bodyOf_ne_loopBound i s)

theorem exec_ne_refused (i : Instr) (s : State) (q : Refusal) : exec i s ≠ .refused q := by
  rcases exec_eq_next_or_outcome i s with h | h <;> rw [h]
  · exact nofun
  · exact Result.outcome_ne_refused _ q

/-- Settles O21: the invariant rules out the stops of the model, and the loop bound and the refusals are no answer of a
command in any state. -/
theorem noCommandIsStuck : Obligations.NoCommandIsStuck :=
  ⟨fun _ => exists_step_next, fun i s => ⟨exec_ne_loopBound i s, exec_ne_refused i s⟩⟩

end Sys2Proof.Machine
end
